-- ==== Sys2Proof/Word.lean ====
section
/-! DEFINITION. The word types of CORE and nothing else: registers and coordinates are 256 bits wide
(00_scope.md R9 XLEN), host accesses and command words are 32 bits wide (R9 HOSTW, CMDW). -/

namespace Sys2Proof

/-- The content of a general register, an anchor coordinate or a table coordinate (10_state.md R20, R32, R36). -/
abbrev Word := BitVec 256

/-- One aligned access of the host window (20_memory.md R54). -/
abbrev HostWord := BitVec 32

/-- One command word, the value written to CMD (30_encoding.md R80). -/
abbrev Cmd := BitVec 32

end Sys2Proof
end

