-- ==== Sys2Proof/Config.lean ====
section
/-! DEFINITION. What an implementation fixes (00_scope.md R9) and the free values: values the spec leaves open after
which the machine goes on. A free value is a constant with no body, so nothing can be proved of it. -/

namespace Sys2Proof.Config

/-- NSLOT at reset: the default of the model argument 1 ≤ NSLOT ≤ 16 (00_scope.md R9, D15; log entry 4). -/
def nslotDefault : Nat := 2

/-- The largest NSLOT (00_scope.md R9). -/
def nslotMax : Nat := 16

/-- MAXW, the largest legal window size (00_scope.md R9). -/
def maxW : Nat := 8

/-- TBLDEPTH, the entries of one slot's table memory (00_scope.md R9, 10_state.md R36). -/
def tblDepth : Nat := 2176

/-- MAXBATCH of BINVP (00_scope.md R9). -/
def maxBatchInv : Nat := 32

/-- MAXBATCH of PNORM (00_scope.md R9). -/
def maxBatchNorm : Nat := 10

/-- Free value: what draw `d` finds in the parts of register `i` that nothing has written since reset
(10_state.md R21, 93 U9; log entry 3). -/
opaque freeReg : Nat → Nat → Word

/-- Free value: what draw `d` finds in coordinate `c` (0: ANCHX, 1: ANCHY) of the unbound slot `s`
(20_memory.md R51, 93 U10; log entry 6). -/
opaque freeAnchor : Nat → Nat → Nat → Word

/-- Free value: what draw `d` of the host window gives while `rst` is asserted
(70_reset_and_hazards.md R250, 93 U14; log entry 10). -/
opaque freeRead : Nat → HostWord

/-- Free value: coordinate `c` (0: x, 1: y) of a table entry `e` that the table memory holds no installed value for
(10_state.md R36, 93 U11; log entry 7). -/
opaque freeEntry : Nat → Nat → Word

end Sys2Proof.Config
end

