-- ==== Sys2Proof/Syntax.lean ====
section
/-! DEFINITION. The commands of CORE as syntax: one constructor per row of the opcode map (30_encoding.md R85). -/

namespace Sys2Proof

/-- A register field: `r0` to `r31`, the register itself or the first of a span (30_encoding.md R81, R84). -/
abbrev Reg := Fin 32

/-- A slot field, `imm[4:0]`; only 0 to NSLOT - 1 name a slot (30_encoding.md R83). -/
abbrev SlotIx := Fin 32

/-- The 9-bit unsigned immediate (30_encoding.md R83). -/
abbrev Imm := Fin 512

/-- The legal window sizes WSET (00_scope.md R9). -/
inductive WSize where
  | w1 | w2 | w4 | w8
deriving DecidableEq, Repr

/-- The window size as a number of bits. -/
def WSize.val : WSize → Nat
  | .w1 => 1
  | .w2 => 2
  | .w4 => 4
  | .w8 => 8

/-- The constant selectors of LDC, in the order of the table of 44_move_system.md R213. -/
inductive Const where
  | zero | one | p | n | gx | gy | beta | b7 | lambda | a1 | nb1 | a2 | b2 | pow128
deriving DecidableEq, Repr

/-- The 27 commands (30_encoding.md R85). -/
inductive Instr where
  -- data movement
  | nop
  | mov (rd ra : Reg)
  | ldc (rd : Reg) (c : Const)
  -- arithmetic modulo P
  | addp (rd ra rb : Reg)
  | subp (rd ra rb : Reg)
  | mulp (rd ra rb : Reg)
  | sqrp (rd ra : Reg)
  | pow2p (rd ra : Reg) (k : Imm)
  | redp (rd ra : Reg)
  | invp (rd ra : Reg)
  | sqrtp (rd ra : Reg)
  | binvp (rd ra : Reg) (n : Imm)
  -- arithmetic modulo n
  | addn (rd ra rb : Reg)
  | subn (rd ra rb : Reg)
  | muln (rd ra rb : Reg)
  | redn (rd ra : Reg)
  | invn (rd ra : Reg)
  -- Jacobian points
  | pdbl (rd ra : Reg)
  | padd (rd ra rb : Reg)
  | pneg (rd ra : Reg)
  | pnorm (rd ra : Reg) (n : Imm)
  -- scalar multiplication and the precomputation cache
  | glvsplit (rd ra : Reg)
  | smul (rd ra : Reg) (slot : SlotIx)
  | smulu (rd ra rb : Reg)
  | setanch (ra : Reg) (slot : SlotIx)
  | setw (slot : SlotIx) (w : WSize)
  | tblrd (rd ra : Reg) (slot : SlotIx)
deriving DecidableEq, Repr

end Sys2Proof
end

