-- ==== Sys2Proof/WellFormed.lean ====
section
/-! DEFINITION. Which commands are legal apart from their must-be-zero bits: immediates in their legal set
(30_encoding.md R83), register spans that end at or before r31 (R84), SETANCH not naming slot 0 (R88(e)). -/

namespace Sys2Proof

/-- Why a word is not a legal command; every one of them is ILLEGAL_CMD (30_encoding.md R88 (a) to (e)). -/
inductive Reject where
  /-- (a) the opcode is not in the map of R85 -/
  | unknownOp
  /-- (b) a 1 in a field the format does not use -/
  | mustBeZero
  /-- (c) an immediate outside its legal set -/
  | badImm
  /-- (d) a register span that passes r31 -/
  | badSpan
  /-- (e) SETANCH naming slot 0 -/
  | anchorSlotZero
deriving DecidableEq, Repr

/-- A span of `len` registers from `f` ends at or before r31; an empty span fits anywhere (30_encoding.md R84). -/
def fits (f : Reg) (len : Nat) : Bool := f.val + len ≤ 32

/-- The register spans of a command, each with its length (the operand column of 30_encoding.md R85). -/
def Instr.spans : Instr → List (Reg × Nat)
  | .nop => []
  | .mov rd ra => [(rd, 1), (ra, 1)]
  | .ldc rd _ => [(rd, 1)]
  | .addp rd ra rb => [(rd, 1), (ra, 1), (rb, 1)]
  | .subp rd ra rb => [(rd, 1), (ra, 1), (rb, 1)]
  | .mulp rd ra rb => [(rd, 1), (ra, 1), (rb, 1)]
  | .sqrp rd ra => [(rd, 1), (ra, 1)]
  | .pow2p rd ra _ => [(rd, 1), (ra, 1)]
  | .redp rd ra => [(rd, 1), (ra, 1)]
  | .invp rd ra => [(rd, 1), (ra, 1)]
  | .sqrtp rd ra => [(rd, 1), (ra, 1)]
  | .binvp rd ra n => [(rd, n.val), (ra, n.val)]
  | .addn rd ra rb => [(rd, 1), (ra, 1), (rb, 1)]
  | .subn rd ra rb => [(rd, 1), (ra, 1), (rb, 1)]
  | .muln rd ra rb => [(rd, 1), (ra, 1), (rb, 1)]
  | .redn rd ra => [(rd, 1), (ra, 1)]
  | .invn rd ra => [(rd, 1), (ra, 1)]
  | .pdbl rd ra => [(rd, 3), (ra, 3)]
  | .padd rd ra rb => [(rd, 3), (ra, 3), (rb, 3)]
  | .pneg rd ra => [(rd, 3), (ra, 3)]
  | .pnorm rd ra n => [(rd, 2 * n.val), (ra, 3 * n.val)]
  | .glvsplit rd ra => [(rd, 3), (ra, 1)]
  | .smul rd ra _ => [(rd, 2), (ra, 1)]
  | .smulu rd ra rb => [(rd, 3), (ra, 1), (rb, 3)]
  | .setanch ra _ => [(ra, 2)]
  | .setw _ _ => []
  | .tblrd rd ra _ => [(rd, 2), (ra, 1)]

/-- The immediate of a command is in its legal set (30_encoding.md R83: batch lengths of BINVP and PNORM; the other
immediates are legal at every value their constructor can hold). -/
def Instr.immOk : Instr → Bool
  | .binvp _ _ n => n.val ≤ Config.maxBatchInv
  | .pnorm _ _ n => n.val ≤ Config.maxBatchNorm
  | _ => true

/-- SETANCH names a slot other than 0 (30_encoding.md R88(e)). -/
def Instr.slotOk : Instr → Bool
  | .setanch _ slot => slot.val ≠ 0
  | _ => true

/-- Why a command is illegal, if it is. -/
def Instr.reject (i : Instr) : Option Reject :=
  if i.immOk = false then some .badImm
  else if i.spans.all (fun p => fits p.1 p.2) = false then some .badSpan
  else if i.slotOk = false then some .anchorSlotZero
  else none

/-- A legal command: one that some command word stands for. -/
def Instr.wf (i : Instr) : Bool := i.reject.isNone

end Sys2Proof
end

