-- ==== Sys2Proof/Decode.lean ====
section
/-! DEFINITION. The command encoding (30_encoding.md): the decoder of R86, total on 32-bit words and rejecting by name,
then the encoder of R81, and the notation of R89 and R90. -/

namespace Sys2Proof

/-! ### Fields (30_encoding.md R81) -/

/-- `cmd.op = w[31:24]`. -/
def opOf (w : Cmd) : Nat := w.toNat / 2 ^ 24

/-- `cmd.rd = w[23:19]`. -/
def rdOf (w : Cmd) : Reg := Fin.ofNat 32 (w.toNat / 2 ^ 19)

/-- `cmd.ra = w[18:14]`. -/
def raOf (w : Cmd) : Reg := Fin.ofNat 32 (w.toNat / 2 ^ 14)

/-- `cmd.rb = w[13:9]`. -/
def rbOf (w : Cmd) : Reg := Fin.ofNat 32 (w.toNat / 2 ^ 9)

/-- `cmd.imm = w[8:0]`. -/
def immOf (w : Cmd) : Imm := Fin.ofNat 512 w.toNat

/-- `slot = imm[4:0]` (R83(d)). -/
def slotOf (w : Cmd) : SlotIx := Fin.ofNat 32 w.toNat

/-- `aux = imm[8:5]` (R83(d)). -/
def auxOf (w : Cmd) : Nat := w.toNat / 2 ^ 5 % 16

/-! ### Formats (30_encoding.md R82) -/

/-- The eight formats. -/
inductive Format where
  | Z | R2 | R3 | RI | RS | DI | AS | SW
deriving DecidableEq, Repr

/-- Every field the format does not use is zero (R82, R88(b)). -/
def Format.unusedZero : Format → Cmd → Bool
  | .Z, w => rdOf w = 0 && raOf w = 0 && rbOf w = 0 && immOf w = 0
  | .R2, w => rbOf w = 0 && immOf w = 0
  | .R3, w => immOf w = 0
  | .RI, w => rbOf w = 0
  | .RS, w => rbOf w = 0 && auxOf w = 0
  | .DI, w => raOf w = 0 && rbOf w = 0
  | .AS, w => rdOf w = 0 && rbOf w = 0 && auxOf w = 0
  | .SW, w => rdOf w = 0 && raOf w = 0 && rbOf w = 0

/-! ### Decoding (30_encoding.md R86) -/

/-- The constant an LDC selector names: 0 to 13 (R83(c), 44_move_system.md R213). -/
def constOf (c : Imm) : Option Const :=
  match c.val with
  | 0 => some .zero
  | 1 => some .one
  | 2 => some .p
  | 3 => some .n
  | 4 => some .gx
  | 5 => some .gy
  | 6 => some .beta
  | 7 => some .b7
  | 8 => some .lambda
  | 9 => some .a1
  | 10 => some .nb1
  | 11 => some .a2
  | 12 => some .b2
  | 13 => some .pow128
  | _ => none

/-- The window size SETW's `aux` names: 1, 2, 4 or 8 (R83(d)). -/
def wsizeOf (aux : Nat) : Option WSize :=
  match aux with
  | 1 => some .w1
  | 2 => some .w2
  | 4 => some .w4
  | 8 => some .w8
  | _ => none

/-- The checks that follow the opcode lookup, in the order of R86: must-be-zero fields, then the immediates and spans.
`none` stands for an immediate that names nothing. -/
def accept (f : Format) (w : Cmd) (i : Option Instr) : Except Reject Instr :=
  if f.unusedZero w then
    match i with
    | none => .error .badImm
    | some i =>
      match i.reject with
      | none => .ok i
      | some r => .error r
  else .error .mustBeZero

/-- The decoder: every word is one command or a named rejection (R86, opcode map R85). -/
def decode (w : Cmd) : Except Reject Instr :=
  match opOf w with
  | 0x00 => accept .Z w (some .nop)
  | 0x01 => accept .R2 w (some (.mov (rdOf w) (raOf w)))
  | 0x02 => accept .DI w ((constOf (immOf w)).map (Instr.ldc (rdOf w)))
  | 0x10 => accept .R3 w (some (.addp (rdOf w) (raOf w) (rbOf w)))
  | 0x11 => accept .R3 w (some (.subp (rdOf w) (raOf w) (rbOf w)))
  | 0x12 => accept .R3 w (some (.mulp (rdOf w) (raOf w) (rbOf w)))
  | 0x13 => accept .R2 w (some (.sqrp (rdOf w) (raOf w)))
  | 0x14 => accept .RI w (some (.pow2p (rdOf w) (raOf w) (immOf w)))
  | 0x15 => accept .R2 w (some (.redp (rdOf w) (raOf w)))
  | 0x16 => accept .R2 w (some (.invp (rdOf w) (raOf w)))
  | 0x17 => accept .R2 w (some (.sqrtp (rdOf w) (raOf w)))
  | 0x18 => accept .RI w (some (.binvp (rdOf w) (raOf w) (immOf w)))
  | 0x20 => accept .R3 w (some (.addn (rdOf w) (raOf w) (rbOf w)))
  | 0x21 => accept .R3 w (some (.subn (rdOf w) (raOf w) (rbOf w)))
  | 0x22 => accept .R3 w (some (.muln (rdOf w) (raOf w) (rbOf w)))
  | 0x25 => accept .R2 w (some (.redn (rdOf w) (raOf w)))
  | 0x26 => accept .R2 w (some (.invn (rdOf w) (raOf w)))
  | 0x30 => accept .R2 w (some (.pdbl (rdOf w) (raOf w)))
  | 0x31 => accept .R3 w (some (.padd (rdOf w) (raOf w) (rbOf w)))
  | 0x32 => accept .R2 w (some (.pneg (rdOf w) (raOf w)))
  | 0x33 => accept .RI w (some (.pnorm (rdOf w) (raOf w) (immOf w)))
  | 0x40 => accept .R2 w (some (.glvsplit (rdOf w) (raOf w)))
  | 0x41 => accept .RS w (some (.smul (rdOf w) (raOf w) (slotOf w)))
  | 0x42 => accept .R3 w (some (.smulu (rdOf w) (raOf w) (rbOf w)))
  | 0x48 => accept .AS w (some (.setanch (raOf w) (slotOf w)))
  | 0x49 => accept .SW w ((wsizeOf (auxOf w)).map (Instr.setw (slotOf w)))
  | 0x4A => accept .RS w (some (.tblrd (rdOf w) (raOf w) (slotOf w)))
  | _ => .error .unknownOp

/-- The command this decoder reads from a table word of `nbits` bits; the word is the value written to CMD, so its bits
are numbered as the table numbers them (30_encoding.md R80). -/
def decodeTableWord (nbits w : Nat) : Option Instr :=
  if w % 2 ^ nbits < 2 ^ 32 then
    match decode (BitVec.ofNat 32 (w % 2 ^ nbits)) with
    | .ok i => some i
    | .error _ => none
  else none

/-! ### Encoding (30_encoding.md R81, R85) -/

/-- `op·2^24 + rd·2^19 + ra·2^14 + rb·2^9 + imm` (R81), each product with its constant first. -/
def assemble (op rd ra rb imm : Nat) : Cmd :=
  BitVec.ofNat 32 (2 ^ 24 * op + 2 ^ 19 * rd + 2 ^ 14 * ra + 2 ^ 9 * rb + imm)

/-- The selector of a constant (44_move_system.md R213, column c). -/
def Const.sel : Const → Nat
  | .zero => 0
  | .one => 1
  | .p => 2
  | .n => 3
  | .gx => 4
  | .gy => 5
  | .beta => 6
  | .b7 => 7
  | .lambda => 8
  | .a1 => 9
  | .nb1 => 10
  | .a2 => 11
  | .b2 => 12
  | .pow128 => 13

/-- The opcode of a command (R85). -/
def Instr.opcode : Instr → Nat
  | .nop => 0x00
  | .mov _ _ => 0x01
  | .ldc _ _ => 0x02
  | .addp _ _ _ => 0x10
  | .subp _ _ _ => 0x11
  | .mulp _ _ _ => 0x12
  | .sqrp _ _ => 0x13
  | .pow2p _ _ _ => 0x14
  | .redp _ _ => 0x15
  | .invp _ _ => 0x16
  | .sqrtp _ _ => 0x17
  | .binvp _ _ _ => 0x18
  | .addn _ _ _ => 0x20
  | .subn _ _ _ => 0x21
  | .muln _ _ _ => 0x22
  | .redn _ _ => 0x25
  | .invn _ _ => 0x26
  | .pdbl _ _ => 0x30
  | .padd _ _ _ => 0x31
  | .pneg _ _ => 0x32
  | .pnorm _ _ _ => 0x33
  | .glvsplit _ _ => 0x40
  | .smul _ _ _ => 0x41
  | .smulu _ _ _ => 0x42
  | .setanch _ _ => 0x48
  | .setw _ _ => 0x49
  | .tblrd _ _ _ => 0x4A

/-- The format of a command (R85). -/
def Instr.format : Instr → Format
  | .nop => .Z
  | .mov _ _ => .R2
  | .ldc _ _ => .DI
  | .addp _ _ _ => .R3
  | .subp _ _ _ => .R3
  | .mulp _ _ _ => .R3
  | .sqrp _ _ => .R2
  | .pow2p _ _ _ => .RI
  | .redp _ _ => .R2
  | .invp _ _ => .R2
  | .sqrtp _ _ => .R2
  | .binvp _ _ _ => .RI
  | .addn _ _ _ => .R3
  | .subn _ _ _ => .R3
  | .muln _ _ _ => .R3
  | .redn _ _ => .R2
  | .invn _ _ => .R2
  | .pdbl _ _ => .R2
  | .padd _ _ _ => .R3
  | .pneg _ _ => .R2
  | .pnorm _ _ _ => .RI
  | .glvsplit _ _ => .R2
  | .smul _ _ _ => .RS
  | .smulu _ _ _ => .R3
  | .setanch _ _ => .AS
  | .setw _ _ => .SW
  | .tblrd _ _ _ => .RS

/-- The word of a command, its unused fields zero. -/
def encode (i : Instr) : Cmd :=
  match i with
  | .nop => assemble i.opcode 0 0 0 0
  | .mov rd ra => assemble i.opcode rd ra 0 0
  | .ldc rd c => assemble i.opcode rd 0 0 c.sel
  | .addp rd ra rb => assemble i.opcode rd ra rb 0
  | .subp rd ra rb => assemble i.opcode rd ra rb 0
  | .mulp rd ra rb => assemble i.opcode rd ra rb 0
  | .sqrp rd ra => assemble i.opcode rd ra 0 0
  | .pow2p rd ra k => assemble i.opcode rd ra 0 k
  | .redp rd ra => assemble i.opcode rd ra 0 0
  | .invp rd ra => assemble i.opcode rd ra 0 0
  | .sqrtp rd ra => assemble i.opcode rd ra 0 0
  | .binvp rd ra n => assemble i.opcode rd ra 0 n
  | .addn rd ra rb => assemble i.opcode rd ra rb 0
  | .subn rd ra rb => assemble i.opcode rd ra rb 0
  | .muln rd ra rb => assemble i.opcode rd ra rb 0
  | .redn rd ra => assemble i.opcode rd ra 0 0
  | .invn rd ra => assemble i.opcode rd ra 0 0
  | .pdbl rd ra => assemble i.opcode rd ra 0 0
  | .padd rd ra rb => assemble i.opcode rd ra rb 0
  | .pneg rd ra => assemble i.opcode rd ra 0 0
  | .pnorm rd ra n => assemble i.opcode rd ra 0 n
  | .glvsplit rd ra => assemble i.opcode rd ra 0 0
  | .smul rd ra slot => assemble i.opcode rd ra 0 slot
  | .smulu rd ra rb => assemble i.opcode rd ra rb 0
  | .setanch ra slot => assemble i.opcode 0 ra 0 slot
  | .setw slot w => assemble i.opcode 0 0 0 (2 ^ 5 * w.val + slot.val)
  | .tblrd rd ra slot => assemble i.opcode rd ra 0 slot

/-! ### Notation: assembler text (30_encoding.md R89) and pseudo-instructions (R90) -/

/-- A register in assembler text, `r` and its decimal index. -/
def Reg.asm (r : Reg) : String := "r" ++ toString r.val

/-- An immediate in assembler text, `#` and a decimal number. -/
def immAsm (n : Nat) : String := "#" ++ toString n

/-- The assembler line of a command (R89), operands in the order destination, sources, immediate. -/
def Instr.asm : Instr → String
  | .nop => "NOP"
  | .mov rd ra => "MOV " ++ Reg.asm rd ++ ", " ++ Reg.asm ra
  | .ldc rd c => "LDC " ++ Reg.asm rd ++ ", " ++ immAsm c.sel
  | .addp rd ra rb => "ADDP " ++ Reg.asm rd ++ ", " ++ Reg.asm ra ++ ", " ++ Reg.asm rb
  | .subp rd ra rb => "SUBP " ++ Reg.asm rd ++ ", " ++ Reg.asm ra ++ ", " ++ Reg.asm rb
  | .mulp rd ra rb => "MULP " ++ Reg.asm rd ++ ", " ++ Reg.asm ra ++ ", " ++ Reg.asm rb
  | .sqrp rd ra => "SQRP " ++ Reg.asm rd ++ ", " ++ Reg.asm ra
  | .pow2p rd ra k => "POW2P " ++ Reg.asm rd ++ ", " ++ Reg.asm ra ++ ", " ++ immAsm k.val
  | .redp rd ra => "REDP " ++ Reg.asm rd ++ ", " ++ Reg.asm ra
  | .invp rd ra => "INVP " ++ Reg.asm rd ++ ", " ++ Reg.asm ra
  | .sqrtp rd ra => "SQRTP " ++ Reg.asm rd ++ ", " ++ Reg.asm ra
  | .binvp rd ra n => "BINVP " ++ Reg.asm rd ++ ", " ++ Reg.asm ra ++ ", " ++ immAsm n.val
  | .addn rd ra rb => "ADDN " ++ Reg.asm rd ++ ", " ++ Reg.asm ra ++ ", " ++ Reg.asm rb
  | .subn rd ra rb => "SUBN " ++ Reg.asm rd ++ ", " ++ Reg.asm ra ++ ", " ++ Reg.asm rb
  | .muln rd ra rb => "MULN " ++ Reg.asm rd ++ ", " ++ Reg.asm ra ++ ", " ++ Reg.asm rb
  | .redn rd ra => "REDN " ++ Reg.asm rd ++ ", " ++ Reg.asm ra
  | .invn rd ra => "INVN " ++ Reg.asm rd ++ ", " ++ Reg.asm ra
  | .pdbl rd ra => "PDBL " ++ Reg.asm rd ++ ", " ++ Reg.asm ra
  | .padd rd ra rb => "PADD " ++ Reg.asm rd ++ ", " ++ Reg.asm ra ++ ", " ++ Reg.asm rb
  | .pneg rd ra => "PNEG " ++ Reg.asm rd ++ ", " ++ Reg.asm ra
  | .pnorm rd ra n => "PNORM " ++ Reg.asm rd ++ ", " ++ Reg.asm ra ++ ", " ++ immAsm n.val
  | .glvsplit rd ra => "GLVSPLIT " ++ Reg.asm rd ++ ", " ++ Reg.asm ra
  | .smul rd ra slot => "SMUL " ++ Reg.asm rd ++ ", " ++ Reg.asm ra ++ ", " ++ immAsm slot.val
  | .smulu rd ra rb => "SMULU " ++ Reg.asm rd ++ ", " ++ Reg.asm ra ++ ", " ++ Reg.asm rb
  | .setanch ra slot => "SETANCH " ++ immAsm slot.val ++ ", " ++ Reg.asm ra
  | .setw slot w => "SETW " ++ immAsm slot.val ++ ", " ++ immAsm w.val
  | .tblrd rd ra slot => "TBLRD " ++ Reg.asm rd ++ ", " ++ Reg.asm ra ++ ", " ++ immAsm slot.val

/-- The register `k` places after `r`, if there is one: indices do not wrap (10_state.md R22). -/
def Reg.after (r : Reg) (k : Nat) : Option Reg :=
  if h : r.val + k < 32 then some ⟨r.val + k, h⟩ else none

/-- `PLDG rd`: BASE = (Gx, Gy, 1) (R90). -/
def pldg (rd : Reg) : Option (List Instr) := do
  return [.ldc rd .gx, .ldc (← Reg.after rd 1) .gy, .ldc (← Reg.after rd 2) .one]

/-- `PLDZ rd`: ZERO = (0, 1, 0) (R90). -/
def pldz (rd : Reg) : Option (List Instr) := do
  return [.ldc rd .zero, .ldc (← Reg.after rd 1) .one, .ldc (← Reg.after rd 2) .zero]

/-- A copy of `len` registers one after the other overwrites no source before it is read: the requirement of R90. -/
def copyable (rd ra : Reg) (len : Nat) : Bool := rd ≤ ra || ra.val + len ≤ rd.val

/-- `AMOV rd, ra`: copy a pair (R90). -/
def amov (rd ra : Reg) : Option (List Instr) :=
  if copyable rd ra 2 then do
    return [.mov rd ra, .mov (← Reg.after rd 1) (← Reg.after ra 1)]
  else none

/-- `PMOV rd, ra`: copy a triple (R90). -/
def pmov (rd ra : Reg) : Option (List Instr) :=
  if copyable rd ra 3 then do
    return [.mov rd ra, .mov (← Reg.after rd 1) (← Reg.after ra 1), .mov (← Reg.after rd 2) (← Reg.after ra 2)]
  else none

/-- `ALIFT rd, ra`: affine pair to Jacobian triple with Z = 1 (R90). -/
def alift (rd ra : Reg) : Option (List Instr) :=
  if copyable rd ra 2 then do
    return [.mov rd ra, .mov (← Reg.after rd 1) (← Reg.after ra 1), .ldc (← Reg.after rd 2) .one]
  else none

end Sys2Proof
end

