-- ==== Sys2Proof/Machine/Constants.lean ====
section
/-! DEFINITION. The constants of the curve (44_move_system.md R213, 43_scalar_mult.md R170, 40_field_scalar_arith.md
R100) and the identification constants (10_state.md R31). -/

namespace Sys2Proof.Machine

/-- The field modulus 2^256 − 2^32 − 977 (R100). -/
def P : Nat := 0xFFFFFFFFFFFFFFFFFFFFFFFFFFFFFFFFFFFFFFFFFFFFFFFFFFFFFFFEFFFFFC2F

/-- The group order n (R100). -/
def N : Nat := 0xFFFFFFFFFFFFFFFFFFFFFFFFFFFFFFFEBAAEDCE6AF48A03BBFD25E8CD0364141

/-- The base point's x. -/
def Gx : Nat := 0x79BE667EF9DCBBAC55A06295CE870B07029BFCDB2DCE28D959F2815B16F81798

/-- The base point's y. -/
def Gy : Nat := 0x483ADA7726A3C4655DA4FBFC0E1108A8FD17B448A68554199C47D08FFB10D4B8

/-- The endomorphism constant β. -/
def Beta : Nat := 0x7AE96A2B657C07106E64479EAC3434E99CF0497512F58995C1396C28719501EE

/-- The endomorphism constant λ. -/
def Lambda : Nat := 0x5363AD4CC05C30E0A5261C028812645A122E22EA20816678DF02967C1B23BD72

/-- The lattice basis element a1 (R170). -/
def A1 : Nat := 0x3086D221A7D46BCDE86C90E49284EB15

/-- NB1 = −b1 (R170). -/
def NB1 : Nat := 0xE4437ED6010E88286F547FA90ABFE4C3

/-- The lattice basis element a2 (R170). -/
def A2 : Nat := 0x114CA50F7A8E2F3F657C1108D9D44CFD8

/-- The lattice basis element b2 (R170). -/
def B2 : Nat := 0x3086D221A7D46BCDE86C90E49284EB15

/-- The half-scalar bound 2^128 (R170). -/
def Pow128 : Nat := 0x100000000000000000000000000000000

/-- The curve coefficient b (00_scope.md R8). -/
def B7 : Nat := 7

/-- `CONST[c]` (R213). -/
def constValue : Const → Nat
  | .zero => 0
  | .one => 1
  | .p => P
  | .n => N
  | .gx => Gx
  | .gy => Gy
  | .beta => Beta
  | .b7 => B7
  | .lambda => Lambda
  | .a1 => A1
  | .nb1 => NB1
  | .a2 => A2
  | .b2 => B2
  | .pow128 => Pow128

/-- The content of ID, the bytes "K256" (10_state.md R31). -/
def idValue : HostWord := 0x4B323536#32

end Sys2Proof.Machine
end

