-- ==== Sys2Proof/Machine/State.lean ====
section
/-! DEFINITION. The state of CORE (10_state.md), the moves of the host (70_reset_and_hazards.md R258), the reasons a
command faults (60_exceptions.md R220), and the state after reset (R251). Everything here is plain data. -/

namespace Sys2Proof.Machine

/-! ### Registers -/

/-- A general register: its 256 bits and, word by word, whether anything wrote them since reset (10_state.md R20, R21).
Bit `j` of `known` belongs to the word at offset `4j`, the bits `255-32j .. 224-32j` (20_memory.md R52). -/
structure GReg where
  val : Word
  known : BitVec 8
deriving DecidableEq, Repr

/-- The four bits of STATUS (10_state.md R26). -/
structure Status where
  busy : Bool
  done : Bool
  fault : Bool
  ovr : Bool
deriving DecidableEq, Repr

/-- The two bits of CTRL (10_state.md R27). -/
structure Ctrl where
  ieDone : Bool
  ieFault : Bool
deriving DecidableEq, Repr

/-! ### The precomputation cache -/

/-- An affine pair: an anchor (10_state.md R32) or a table entry (R36). -/
structure Affine where
  x : Word
  y : Word
deriving DecidableEq, Repr

/-- What every slot holds besides its anchor: W[s], TVALID[s] and TABLE[s] (10_state.md R32). The table memory is the list
of its installed entries by entry number; an entry past the list holds nothing that was installed (log entry 7). -/
structure Window where
  w : WSize
  tvalid : Bool
  table : List Affine
deriving DecidableEq, Repr

/-- A slot: anchor, AVALID and the rest (10_state.md R32). -/
structure Slot where
  anchor : Affine
  avalid : Bool
  win : Window
deriving DecidableEq, Repr

/-- A free slot after reset (10_state.md R34; the anchor is not specified and never shows: log entry 6). -/
def Slot.unbound : Slot :=
  { anchor := ⟨0, 0⟩, avalid := false, win := { w := .w1, tvalid := false, table := [] } }

/-! ### The host -/

/-- One move of the host (70_reset_and_hazards.md R258): a window access by byte offset from the window's base and size in
bytes (20_memory.md R50, R54), a change of the `rst` level (R250), or a sample of `irq`. -/
inductive HostMove where
  | read (off size : Nat)
  | write (off size : Nat) (v : HostWord)
  | assertRst
  | releaseRst
  | sampleIrq
deriving DecidableEq, Repr

/-- Who moves next. The spec leaves open when a busy command ends among the host's moves (70 R256), so the order is data
the state carries (log entry 1). -/
inductive Turn where
  /-- the host makes one move -/
  | host (m : HostMove)
  /-- the sequencer ends the command in flight, if there is one -/
  | core
  /-- the sequencer's ending and a host write of `v` to STATUS fall in the same instant (10_state.md R26) -/
  | statusAtEnd (v : HostWord)
deriving DecidableEq, Repr

/-- What the host's last move got back (70_reset_and_hazards.md R258, last column). -/
inductive Reply where
  | nothing
  | word (v : HostWord)
  | level (b : Bool)
deriving DecidableEq, Repr

/-! ### Command faults: an event of the machine, not a stop of the model -/

/-- The seven faults of a command (60_exceptions.md R220). Taking one is a next state (R221). -/
inductive Cause where
  | illegalCmd
  | operandRange
  | notInvertible
  | scalarRange
  | notOnCurve
  | glvOverflow
  | slotInvalid
deriving DecidableEq, Repr

/-- A raised fault and its index for FINFO: `raise <Fault>(info)` (00_scope.md R13, 60_exceptions.md R221). -/
structure Raise where
  cause : Cause
  info : Nat
deriving DecidableEq, Repr

/-! ### The state -/

/-- Everything the spec gives CORE, and the model's own `turns`, `reply` and `draw` (INVENTORY.md, State). -/
structure State where
  /-- r0 to r31 (10_state.md R20) -/
  regs : Vector GReg 32
  /-- STATUS (R26) -/
  status : Status
  /-- CTRL (R27) -/
  ctrl : Ctrl
  /-- CAUSE (R30) -/
  cause : HostWord
  /-- FCMD (R30) -/
  fcmd : HostWord
  /-- FINFO (R30) -/
  finfo : HostWord
  /-- CMDLATCH (R37) -/
  cmdLatch : Cmd
  /-- slot 0 but for its constants ANCHX, ANCHY, AVALID (R33) -/
  base : Window
  /-- slots 1 to NSLOT - 1 (R34), so NSLOT is one more than their number (R9) -/
  free : List Slot
  /-- the level of the reset input (70_reset_and_hazards.md R250) -/
  rst : Bool
  /-- the model's own: who moves next, first first -/
  turns : List Turn
  /-- the model's own: what the host's last move got back -/
  reply : Reply
  /-- the model's own: how many times free values have been drawn -/
  draw : Nat
deriving DecidableEq, Repr

/-- Why a step stops with a fault: it never does. The seven faults of CORE are taken, as next states (60_exceptions.md
R221), and no state of CORE is stuck (70_reset_and_hazards.md R256), so there is no constructor. -/
inductive Fault where
deriving DecidableEq, Repr

/-- Why a step refuses. -/
inductive Refusal where
  /-- An arm of `exec` without a meaning; no arm uses it. Safe. -/
  | notModelled (mnemonic : String)
  /-- Raised by a host access whose size is not 4 bytes: outside the spec, "a model refuses it" (20_memory.md R54). Safe. -/
  | hostAccessSize
  /-- Raised by a host access at an offset that is no multiple of 4: as above (20_memory.md R54). Safe. -/
  | hostAccessUnaligned
  /-- Raised by a host access outside the 4096-byte window (20_memory.md R50, 93 U13). Safe. -/
  | hostAccessOutsideWindow
  /-- Raised by a host access to a general register or a slot location while BUSY = 1: "A model refuses a run in which the
  host does so" (20_memory.md R57, 93 U12). Safe. -/
  | hostTouchesBusyCore
deriving DecidableEq, Repr

/-- The outcome of a step or a meaning. -/
abbrev Out := Host.Outcome State Fault Refusal

/-! ### Reset (70_reset_and_hazards.md R251) -/

/-- A register nothing has written since reset (log entry 2). -/
def GReg.unwritten : GReg := { val := 0, known := 0 }

/-- The state after reset of a CORE with `k` free slots (R251). -/
def State.resetWith (k : Nat) : State where
  regs := Vector.replicate 32 GReg.unwritten
  status := { busy := false, done := false, fault := false, ovr := false }
  ctrl := { ieDone := false, ieFault := false }
  cause := 0
  fcmd := 0
  finfo := 0
  cmdLatch := 0
  base := { w := .w8, tvalid := false, table := [] }
  free := List.replicate k Slot.unbound
  rst := false
  turns := []
  reply := .nothing
  draw := 0

/-- The state right after reset, NSLOT at its default (R251; log entry 4). -/
def State.reset : State := State.resetWith (Config.nslotDefault - 1)

end Sys2Proof.Machine
end

