-- ==== Sys2Proof/Machine/Arith.lean ====
section
/-! DEFINITION. The arithmetic of the engines as functions of numbers, on unbounded integers brought back into range by
`mod` (00_scope.md R10, R11, R14): field and scalar arithmetic, inverse, batched inverse, square root, Jacobian points,
the GLV split, the window table and the wNAF core. No state is read or written here. -/

namespace Sys2Proof.Machine

/-! ### Residues (00_scope.md R11, R14) -/

/-- `a mod m`: the least nonnegative residue of an integer of either sign (R11). -/
def residue (a : Int) (m : Nat) : Nat := (a % (m : Int)).toNat

/-- `Fadd` (R14). -/
def fadd (a b : Nat) : Nat := (a + b) % P

/-- `Fsub` (R14). -/
def fsub (a b : Nat) : Nat := residue ((a : Int) - (b : Int)) P

/-- `Fmul` (R14). -/
def fmul (a b : Nat) : Nat := a * b % P

/-- `Fsqr` (R14). -/
def fsqr (a : Nat) : Nat := a * a % P

/-- `Fneg` (R14). -/
def fneg (a : Nat) : Nat := residue (-(a : Int)) P

/-- `Nadd` (R14). -/
def nadd (a b : Nat) : Nat := (a + b) % N

/-- `Nsub` (R14). -/
def nsub (a b : Nat) : Nat := residue ((a : Int) - (b : Int)) N

/-- `Nmul` (R14). -/
def nmul (a b : Nat) : Nat := a * b % N

/-- `pow2(t, k)`: square `k` times modulo P (40_field_scalar_arith.md R106). -/
def pow2 (t : Nat) : Nat → Nat
  | 0 => t
  | k + 1 => pow2 (fsqr t) k

/-! ### Inverse (41_inverse_sqrt.md R132) -/

/-- The loop of `invert`: from (a, b, u, v), at most `fuel` divisions, to the last (b, v). `a` falls at each division, so
fuel `a + 1` lets the loop reach `a = 0`. -/
def euclid : (fuel : Nat) → (a b : Nat) → (u v : Int) → Nat × Int
  | 0, _, b, _, v => (b, v)
  | fuel + 1, a, b, u, v =>
    if a = 0 then (b, v) else euclid fuel (b % a) a (v - ((b / a : Nat) : Int) * u) u

/-- The result of `invert(x, m)` where it does not fail: `v mod m` (R132). -/
def invert (x m : Nat) : Nat := residue (euclid (x + 1) x m 1 0).2 m

/-- `invert(x, m)` fails: gcd(x, m) = b ≠ 1 (R132). -/
def invertFails (x m : Nat) : Bool := (euclid (x + 1) x m 1 0).1 ≠ 1

/-- `Finv` (00_scope.md R14). -/
def finv (a : Nat) : Nat := invert a P

/-- `Ninv` (00_scope.md R14). -/
def ninv (a : Nat) : Nat := invert a N

/-- Montgomery's trick from the values still to come and the prefix product `acc` of those before: forward on the way in,
the one inversion at the end, unwinding on the way out. Answers the running inverse and the outputs (R133). -/
def batchUnwind : List Nat → Nat → Nat × List Nat
  | [], acc => (finv acc, [])
  | v :: vs, acc =>
    if v ≠ 0 then
      let r := batchUnwind vs (fmul acc v)
      (fmul r.1 v, fmul r.1 acc :: r.2)
    else
      let r := batchUnwind vs acc
      (r.1, 0 :: r.2)

/-- `invertBatch(xs)`: one inversion, zeros pass through (R133). -/
def invertBatch (xs : List Nat) : List Nat := (batchUnwind xs 1).2

/-! ### Square root (41_inverse_sqrt.md R134, R135) -/

/-- The addition chain of R135. -/
def sqrtChain (x : Nat) : Nat :=
  let b2 := fmul (fmul x x) x
  let b3 := fmul (fmul b2 b2) x
  let b6 := fmul (pow2 b3 3) b3
  let b9 := fmul (pow2 b6 3) b3
  let b11 := fmul (pow2 b9 2) b2
  let b22 := fmul (pow2 b11 11) b11
  let b44 := fmul (pow2 b22 22) b22
  let b88 := fmul (pow2 b44 44) b44
  let b176 := fmul (pow2 b88 88) b88
  let b220 := fmul (pow2 b176 44) b44
  let b223 := fmul (pow2 b220 3) b3
  let t1 := fmul (pow2 b223 23) b22
  let t2 := fmul (pow2 t1 6) b2
  pow2 t2 2

/-! ### Jacobian points (42_jacobian_point.md) -/

/-- A Jacobian triple of field elements (R150). -/
structure Jac where
  X : Nat
  Y : Nat
  Z : Nat
deriving DecidableEq, Repr

/-- The sentinel ZERO = (0, 1, 0) (R150). -/
def jzero : Jac := ⟨0, 1, 0⟩

/-- `jdbl` (R151). -/
def jdbl (t : Jac) : Jac :=
  let A := fsqr t.X
  let B := fsqr t.Y
  let C := fsqr B
  let D := fmul 2 (fsub (fsub (fsqr (fadd t.X B)) A) C)
  let E := fmul 3 A
  let F := fsqr E
  let X' := fsub F (fmul 2 D)
  let Y' := fsub (fmul E (fsub D X')) (fmul 8 C)
  let Z' := fmul (fmul 2 t.Y) t.Z
  ⟨X', Y', Z'⟩

/-- `jadd` (R152): the second operand is tested for the identity first. -/
def jadd (p q : Jac) : Jac :=
  if q.X = 0 ∨ q.Y = 0 then p
  else if p.X = 0 ∨ p.Y = 0 then q
  else
    let Z1Z1 := fsqr p.Z
    let Z2Z2 := fsqr q.Z
    let U1 := fmul p.X Z2Z2
    let U2 := fmul q.X Z1Z1
    let S1 := fmul (fmul p.Y q.Z) Z2Z2
    let S2 := fmul (fmul q.Y p.Z) Z1Z1
    let H := fsub U2 U1
    let r := fsub S2 S1
    if H = 0 then
      if r = 0 then jdbl p else jzero
    else
      let HH := fsqr H
      let HHH := fmul H HH
      let V := fmul U1 HH
      let X3 := fsub (fsub (fsqr r) HHH) (fmul 2 V)
      let Y3 := fsub (fmul r (fsub V X3)) (fmul S1 HHH)
      let Z3 := fmul (fmul p.Z q.Z) H
      ⟨X3, Y3, Z3⟩

/-- `jneg` (R153). -/
def jneg (t : Jac) : Jac := ⟨t.X, fneg t.Y, t.Z⟩

/-- One triple scaled by the inverse of its Z: x = X·Z⁻², y = Y·Z⁻³ (R154). -/
def jscale (t : Jac) (zi : Nat) : Affine :=
  let iz2 := fsqr zi
  let iz3 := fmul iz2 zi
  { x := BitVec.ofNat 256 (fmul t.X iz2), y := BitVec.ofNat 256 (fmul t.Y iz3) }

/-- `jnorm`: all Z inverted in one pass; a triple with Z = 0 becomes (0, 0) (R154). -/
def jnorm (ts : List Jac) : List Affine :=
  List.zipWith jscale ts (invertBatch (ts.map Jac.Z))

/-- An affine pair as the triple (x, y, 1) (R150). -/
def lift (a : Affine) : Jac := ⟨a.x.toNat, a.y.toNat, 1⟩

/-- The admission test of an anchor, y² ≡ x³ + 7 (mod P) (43_scalar_mult.md R177). -/
def onCurve (x y : Nat) : Bool := y * y % P = (x * x * x + B7) % P

/-! ### The GLV split (43_scalar_mult.md R171) -/

/-- A split scalar: the two halves and their signs. -/
structure Split where
  k1 : Nat
  k2 : Nat
  k1neg : Bool
  k2neg : Bool
deriving DecidableEq, Repr

/-- `round(a / n)` of a nonnegative a (R171). -/
def roundDivN (a : Nat) : Nat := (N / 2 + a) / N

/-- A half above 2^128 is negated modulo n and its sign recorded (R171). -/
def halfSign (k : Nat) : Nat × Bool := if k > Pow128 then (N - k, true) else (k, false)

/-- The split of two halves with their signs. -/
def Split.ofHalves (h1 h2 : Nat × Bool) : Split := { k1 := h1.1, k2 := h2.1, k1neg := h1.2, k2neg := h2.2 }

/-- `glvsplit(k)`, without its check (R171); each product with its constant first. -/
def glvSplit (k : Nat) : Split :=
  let c1 := roundDivN (B2 * k)
  let c2 := roundDivN (NB1 * k)
  Split.ofHalves
    (halfSign (residue ((k : Int) - (A1 : Int) * (c1 : Int) - (A2 : Int) * (c2 : Int)) N))
    (halfSign (residue ((NB1 : Int) * (c1 : Int) - (B2 : Int) * (c2 : Int)) N))

/-- `glvsplit(k)` fails: a half still exceeds 2^128 (R171). -/
def Split.overflows (p : Split) : Bool := p.k1 > Pow128 || p.k2 > Pow128

/-- The sign word `k1neg + 2·k2neg` (R172). -/
def Split.signs (p : Split) : Nat := p.k1neg.toNat + 2 * p.k2neg.toNat

/-! ### The window table (43_scalar_mult.md R173) -/

/-- `half` = 2^(W−1), the entries of one window (R173). -/
def halfOf (w : WSize) : Nat := 2 ^ (w.val - 1)

/-- `windows` = 128/W + 1 (R173). -/
def windowsOf (w : WSize) : Nat := 128 / w.val + 1

/-- The meaningful entries of a table, (128/W + 1)·2^(W−1) (R173, 10_state.md R36). -/
def entriesOf (w : WSize) : Nat := windowsOf w * halfOf w

/-- The `count` entries of one window from `base` on, each the one before plus the window's anchor `q` (R173). -/
def windowRow (q : Jac) : (count : Nat) → (base : Jac) → List Jac
  | 0, _ => []
  | count + 1, base => base :: windowRow q count (jadd base q)

/-- The entries of `count` windows, the first with anchor `q`; the next anchor is twice the last entry (R173). -/
def windowRows (half : Nat) : (count : Nat) → (q : Jac) → List Jac
  | 0, _ => []
  | count + 1, q =>
    let row := windowRow q half q
    row ++ windowRows half count (jdbl (row.getLastD q))

/-- `wtable(A, W)` (R173). -/
def wtable (a : Affine) (w : WSize) : List Jac := windowRows (halfOf w) (windowsOf w) (lift a)

/-- The stored form of a table: `jnorm` of all its entries (R173). -/
def storedTable (a : Affine) (w : WSize) : List Affine := jnorm (wtable a w)

/-- Entry `e` of a table memory; where nothing was installed, a free value (10_state.md R36; log entry 7). -/
def tableEntry (table : List Affine) (e : Nat) : Affine :=
  match table[e]? with
  | some a => a
  | none => { x := Config.freeEntry e 0, y := Config.freeEntry e 1 }

/-! ### The wNAF core (43_scalar_mult.md R174) -/

/-- One window of the recoding: the digit d in (−2^(W−1), 2^(W−1)] and the scalar left over (R174). -/
def wnafDigit (w : WSize) (m : Nat) : Int × Nat :=
  let d := m % 2 ^ w.val
  let m' := m / 2 ^ w.val
  if d > halfOf w then ((d : Int) - ((2 ^ w.val : Nat) : Int), m' + 1) else ((d : Int), m')

/-- The point a nonzero digit adds: entry |d| − 1 of window `i`, negated where d < 0 (R174). -/
def digitPoint (w : WSize) (table : List Affine) (i : Nat) (d : Int) : Jac :=
  let t := lift (tableEntry table (i * halfOf w + d.natAbs - 1))
  if d < 0 then jneg t else t

/-- The pseudo-precompute of window `i`: its first entry, negated in an odd window (R174). -/
def pseudoPoint (w : WSize) (table : List Affine) (i : Nat) : Jac :=
  let t := lift (tableEntry table (i * halfOf w))
  if i % 2 = 1 then jneg t else t

/-- The `count` windows from window `i` on: real accumulator `p`, fake accumulator `f` (R174). -/
def wnafFrom (w : WSize) (table : List Affine) : (count i m : Nat) → (p f : Jac) → Jac × Jac
  | 0, _, _, p, f => (p, f)
  | count + 1, i, m, p, f =>
    let dm := wnafDigit w m
    if dm.1 = 0 then wnafFrom w table count (i + 1) dm.2 p (jadd f (pseudoPoint w table i))
    else wnafFrom w table count (i + 1) dm.2 (jadd p (digitPoint w table i dm.1)) f

/-- `wnaf(m, T, W)` (R174). -/
def wnaf (m : Nat) (table : List Affine) (w : WSize) : Jac × Jac :=
  wnafFrom w table (windowsOf w) 0 m jzero jzero

/-! ### The two multiplications (43_scalar_mult.md R175, R180) -/

/-- `jneg` where the sign bit is set (R175). -/
def negIf (b : Bool) (t : Jac) : Jac := if b then jneg t else t

/-- The endomorphism (x, y) ↦ (β·x, y) on a triple (R175). -/
def applyBeta (t : Jac) : Jac := ⟨fmul Beta t.X, t.Y, t.Z⟩

/-- SMUL's result from the split scalar and the table it uses: two wNAF runs, signs, β, sum, and one normalisation of the
real and the fake accumulator, of which the real one is returned (R175). -/
def multiply (k : Nat) (table : List Affine) (w : WSize) : Affine :=
  let sp := glvSplit k
  let r1 := wnaf sp.k1 table w
  let r2 := wnaf sp.k2 table w
  let p1 := negIf sp.k1neg r1.1
  let p2 := applyBeta (negIf sp.k2neg r2.1)
  let pt := jadd p1 p2
  let fk := jadd r1.2 r2.2
  (jnorm [pt, fk]).headD ⟨0, 0⟩

/-- SMULU's loop over the `i` low bits of `k`, most significant first (R180). -/
def doubleAndAdd (k : Nat) (q : Jac) : (i : Nat) → (acc : Jac) → Jac
  | 0, acc => acc
  | i + 1, acc =>
    let acc2 := jdbl acc
    doubleAndAdd k q i (if k.testBit i then jadd acc2 q else acc2)

/-- `multiply_unsafe`: left to right from bit 255 (R180); its normal form is what `multiply` gives (R182). -/
def multiplyUnsafe (k : Nat) (q : Jac) : Jac := doubleAndAdd k q 256 jzero

end Sys2Proof.Machine
end

