-- ==== Sys2Proof/Machine/Flags.lean ====
section
/-! DEFINITION. The flag-like state: STATUS and CTRL as words, write-1-to-clear, the interrupt output, the fault codes.
CORE keeps no condition codes (10_state.md R24), so no command computes a flag. -/

namespace Sys2Proof.Machine

/-- Bit `i` of a word, from a Bool. -/
def bitAt (b : Bool) (i : Nat) : HostWord := BitVec.ofNat 32 (b.toNat * 2 ^ i)

/-- STATUS as read: BUSY, DONE, FAULT, OVR in bits 0 to 3, bits 31:4 zero (10_state.md R26). -/
def Status.word (st : Status) : HostWord :=
  bitAt st.busy 0 ||| bitAt st.done 1 ||| bitAt st.fault 2 ||| bitAt st.ovr 3

/-- A host write of `v` to STATUS: DONE, FAULT, OVR fall where the written bit is 1; BUSY and the zero bits ignore it (R26). -/
def Status.clear (st : Status) (v : HostWord) : Status :=
  { st with
    done := st.done && !v.getLsbD 1
    fault := st.fault && !v.getLsbD 2
    ovr := st.ovr && !v.getLsbD 3 }

/-- CTRL as read: IE_DONE, IE_FAULT in bits 0 and 1, bits 31:2 zero (10_state.md R27). -/
def Ctrl.word (c : Ctrl) : HostWord := bitAt c.ieDone 0 ||| bitAt c.ieFault 1

/-- CTRL from a written word; bits 31:2 are ignored (R27). -/
def ctrlOf (v : HostWord) : Ctrl := { ieDone := v.getLsbD 0, ieFault := v.getLsbD 1 }

/-- The code written to CAUSE (60_exceptions.md R220). -/
def Cause.code : Cause → Nat
  | .illegalCmd => 1
  | .operandRange => 2
  | .notInvertible => 3
  | .scalarRange => 4
  | .notOnCurve => 5
  | .glvOverflow => 6
  | .slotInvalid => 7

/-- The interrupt output: (DONE and IE_DONE) or (FAULT and IE_FAULT) (60_exceptions.md R225); 0 while `rst` is asserted
(70_reset_and_hazards.md R250). -/
def State.irq (s : State) : Bool :=
  !s.rst && ((s.status.done && s.ctrl.ieDone) || (s.status.fault && s.ctrl.ieFault))

/-- The sequencer is idle: BUSY = 0 and FAULT = 0 (10_state.md R28). -/
def State.idle (s : State) : Bool := !s.status.busy && !s.status.fault

end Sys2Proof.Machine
end

