-- ==== Sys2Proof/Machine/Ops.lean ====
section
/-! DEFINITION. The named operations over registers, slots and tables; issuing a command, completing it, taking a fault
and leaving the faulted state; reset. Everything that changes the state goes through one of these. -/

namespace Sys2Proof.Machine

/-! ### Words of a 256-bit value (20_memory.md R52) -/

/-- Word `j` of a 256-bit value: bits `255-32j .. 224-32j`, word 0 the most significant (R52). -/
def wordOf (v : Word) (j : Nat) : HostWord := v.extractLsb' (224 - 32 * j) 32

/-- The eight words, most significant first, put together (R52). -/
def joinWords (f : Fin 8 → HostWord) : Word :=
  f 0 ++ f 1 ++ f 2 ++ f 3 ++ f 4 ++ f 5 ++ f 6 ++ f 7

/-- Word `j` replaced, the other 224 bits as they were (20_memory.md R54). -/
def putWord (v : Word) (j : Nat) (u : HostWord) : Word :=
  joinWords (fun k => if k.val = j then u else wordOf v k.val)

/-- Byte `j` of a 32-bit word, `bits [31-8j : 24-8j]`: big-endian (R52). -/
def byteOfWord (u : HostWord) (j : Nat) : BitVec 8 := u.extractLsb' (24 - 8 * j) 8

/-- Byte `j` of a 256-bit value, `v[255-8j : 248-8j]` (R52). -/
def byteOf (v : Word) (j : Nat) : BitVec 8 := v.extractLsb' (248 - 8 * j) 8

/-! ### General registers (10_state.md R20, R21) -/

/-- What a read of a register finds: the words written since reset, and a free value in the others (R21). -/
def GReg.view (r : GReg) (free : Word) : Word :=
  if r.known = 0xFF#8 then r.val
  else joinWords (fun j => if r.known.getLsbD j.val then wordOf r.val j.val else wordOf free j.val)

/-- `x[i]`: what a command reads in register `i` (00_scope.md R13). No command names a register past r31
(30_encoding.md R84); there is nothing there to read but a free value (log entry 19). -/
def State.x (s : State) (i : Nat) : Word :=
  match s.regs[i]? with
  | some r => r.view (Config.freeReg s.draw i)
  | none => Config.freeReg s.draw i

/-- `x[i]` as an unsigned integer (00_scope.md R13). -/
def State.xn (s : State) (i : Nat) : Nat := (s.x i).toNat

/-- `x[i] <- v` by a command: all eight words are written (00_scope.md R13, 10_state.md R21). -/
def State.setX (s : State) (i : Nat) (v : Word) : State :=
  { s with regs := s.regs.setIfInBounds i { val := v, known := 0xFF#8 } }

/-- Consecutive registers written from `i` on (10_state.md R22). -/
def State.setSpan (s : State) : (i : Nat) → List Word → State
  | _, [] => s
  | i, v :: vs => (s.setX i v).setSpan (i + 1) vs

/-- The word of a register the host reads (20_memory.md R51, R52); a word nothing has written is a free value (R21). -/
def State.regWord (s : State) (i j : Nat) : HostWord := wordOf (s.x i) j

/-- A host write of one word of a register: its 32 bits and no others change (20_memory.md R54, 10_state.md R21). -/
def State.setRegWord (s : State) (i j : Nat) (u : HostWord) : State :=
  match s.regs[i]? with
  | some r =>
    { s with regs := s.regs.setIfInBounds i { val := putWord r.val j u, known := r.known ||| BitVec.ofNat 8 (2 ^ j) } }
  | none => s

/-! ### Slots (10_state.md R32 to R36) -/

/-- NSLOT (00_scope.md R9; log entry 4). -/
def State.nslot (s : State) : Nat := s.free.length + 1

/-- Slot `i` as the commands see it. Slot 0 has the base point as its constant anchor and AVALID constant 1 (R33; log entry
5); an index of NSLOT or more names no slot, and no command gets past that (60_exceptions.md R220). -/
def State.slot (s : State) (i : Nat) : Slot :=
  match i with
  | 0 => { anchor := ⟨BitVec.ofNat 256 Gx, BitVec.ofNat 256 Gy⟩, avalid := true, win := s.base }
  | i + 1 => s.free.getD i Slot.unbound

/-- W[i], TVALID[i] and TABLE[i] written. -/
def State.setWindow (s : State) (i : Nat) (win : Window) : State :=
  match i with
  | 0 => { s with base := win }
  | i + 1 => { s with free := s.free.modify i (fun sl => { sl with win := win }) }

/-- Slot `i` ≥ 1 bound to an anchor: AVALID 1, W back to 1, TVALID 0; the table memory is not erased
(43_scalar_mult.md R177, 20_memory.md R60). Slot 0 has no anchor to write. -/
def State.bindSlot (s : State) (i : Nat) (a : Affine) : State :=
  match i with
  | 0 => s
  | i + 1 =>
    { s with
      free := s.free.modify i (fun sl =>
        { anchor := a, avalid := true, win := { sl.win with w := .w1, tvalid := false } }) }

/-- W[i] <- w, TVALID[i] <- 0; the table memory is not erased (43_scalar_mult.md R178, 20_memory.md R60). -/
def State.resizeSlot (s : State) (i : Nat) (w : WSize) : State :=
  s.setWindow i { (s.slot i).win with w := w, tvalid := false }

/-- A whole table installed together with TVALID (43_scalar_mult.md R176, 20_memory.md R59). -/
def State.installTable (s : State) (i : Nat) (table : List Affine) : State :=
  s.setWindow i { (s.slot i).win with tvalid := true, table := table }

/-- The form of a table memory, CORE's only memory besides its registers (20_memory.md R50(b)): no more entries than
TBLDEPTH, every coordinate a field element (10_state.md R36). The key of an entry is its place in the list, so equal
memories are equal lists. -/
def Memory.wf (table : List Affine) : Bool :=
  table.length ≤ Config.tblDepth && table.all (fun a => a.x.toNat < P && a.y.toNat < P)

/-! ### A command from acceptance to its end (10_state.md R28) -/

/-- A host write of `w` to CMD: accepted when idle, else dropped with OVR (R28, 60_exceptions.md R224). -/
def State.issue (s : State) (w : Cmd) : State :=
  if s.idle then { s with cmdLatch := w, status := { s.status with busy := true } }
  else { s with status := { s.status with ovr := true } }

/-- Completion: BUSY <- 0, DONE <- 1, with all the command's writes (R28). -/
def State.complete (s : State) : State :=
  { s with status := { s.status with busy := false, done := true }, draw := s.draw + 1 }

/-- TAKING A FAULT (60_exceptions.md R221): BUSY <- 0, FAULT <- 1, CAUSE <- code, FCMD <- CMDLATCH, FINFO <- info, and
nothing else; DONE and OVR keep their values. Control goes nowhere. -/
def State.faultEntry (s : State) (r : Raise) : State :=
  { s with
    status := { s.status with busy := false, fault := true }
    cause := BitVec.ofNat 32 r.cause.code
    fcmd := s.cmdLatch
    finfo := BitVec.ofNat 32 r.info
    draw := s.draw + 1 }

/-- LEAVING THE FAULTED STATE (60_exceptions.md R223), and every other host write to STATUS: write-1-to-clear
(10_state.md R26). Nothing is restored because nothing was changed. -/
def State.writeStatus (s : State) (v : HostWord) : State := { s with status := s.status.clear v }

/-- A host write to CTRL (10_state.md R27). -/
def State.writeCtrl (s : State) (v : HostWord) : State := { s with ctrl := ctrlOf v }

/-- The first check that raises, in the order listed (60_exceptions.md R222). -/
def firstRaise : List (Option Raise) → Option Raise
  | [] => none
  | some r :: _ => some r
  | none :: rest => firstRaise rest

/-- The ending step of a command in state `s`: the checks in their order; the first that raises is taken and undoes the
command (R221), else the command's writes `t` (of `s`) take effect together (R28). Always a next state. -/
def State.endCommand (s : State) (checks : List (Option Raise)) (t : State) : Out :=
  .next (match firstRaise checks with
    | some r => s.faultEntry r
    | none => t.complete)

/-! ### Reset (70_reset_and_hazards.md R250) -/

/-- Every piece of CORE's state back to R251, NSLOT as it is; what the model keeps beside CORE (the turns to come, the
count of draws) goes on. A command in flight is abandoned, none of its writes takes effect (R250). -/
def State.resetCore (s : State) (level : Bool) : State :=
  { State.resetWith s.free.length with rst := level, turns := s.turns, draw := s.draw + 1 }

end Sys2Proof.Machine
end

