-- ==== Sys2Proof/Machine/Operands.lean ====
section
/-! DEFINITION. Operand forms (10_state.md R22, 30_encoding.md R83, R84): registers, pairs, triples, batches and slots as
the commands read them, each with the check its rule lists. A check answers the fault it raises, if it raises one; a
command lists its checks in the order of 60_exceptions.md R222. -/

namespace Sys2Proof.Machine

/-! ### Checks -/

/-- ILLEGAL_CMD where the command is not legal (30_encoding.md R88 (c), (d), (e)). -/
def chkLegal (i : Instr) : Option Raise :=
  if i.wf then none else some { cause := .illegalCmd, info := 0 }

/-- `chkP(i)`: OPERAND_RANGE(i) where x[i] ≥ P (00_scope.md R15). -/
def chkP (s : State) (i : Nat) : Option Raise :=
  if s.xn i ≥ P then some { cause := .operandRange, info := i } else none

/-- `chkN(i)`: OPERAND_RANGE(i) where x[i] ≥ n (00_scope.md R15). -/
def chkN (s : State) (i : Nat) : Option Raise :=
  if s.xn i ≥ N then some { cause := .operandRange, info := i } else none

/-- `chkP` over a span of `len` registers, ascending (60_exceptions.md R222). -/
def chkSpanP (s : State) (i len : Nat) : List (Option Raise) :=
  (List.range len).map (fun j => chkP s (i + j))

/-- SCALAR_RANGE(i) where x[i] is 0 or ≥ n (43_scalar_mult.md R172, R175, R180). -/
def chkScalar (s : State) (i : Nat) : Option Raise :=
  if s.xn i = 0 ∨ s.xn i ≥ N then some { cause := .scalarRange, info := i } else none

/-- NOT_INVERTIBLE(i) where x[i] is 0, or `invert` fails on it (41_inverse_sqrt.md R130 to R132; log entry 16). -/
def chkInvertible (s : State) (i m : Nat) : Option Raise :=
  if s.xn i = 0 ∨ invertFails (s.xn i) m then some { cause := .notInvertible, info := i } else none

/-- GLV_OVERFLOW where a half of the split of x[i] exceeds 2^128 (43_scalar_mult.md R171). -/
def chkGlv (s : State) (i : Nat) : Option Raise :=
  if (glvSplit (s.xn i)).overflows then some { cause := .glvOverflow, info := 0 } else none

/-- SLOT_INVALID(slot) where slot ≥ NSLOT (43_scalar_mult.md R177, R178). -/
def chkSlot (s : State) (slot : Nat) : Option Raise :=
  if slot ≥ s.nslot then some { cause := .slotInvalid, info := slot } else none

/-- SLOT_INVALID(slot) where slot ≥ NSLOT or AVALID = 0 (43_scalar_mult.md R175). -/
def chkAnchored (s : State) (slot : Nat) : Option Raise :=
  if slot ≥ s.nslot ∨ (s.slot slot).avalid = false then some { cause := .slotInvalid, info := slot } else none

/-- SLOT_INVALID(slot) where slot ≥ NSLOT or TVALID = 0 (43_scalar_mult.md R179). -/
def chkTable (s : State) (slot : Nat) : Option Raise :=
  if slot ≥ s.nslot ∨ (s.slot slot).win.tvalid = false then some { cause := .slotInvalid, info := slot } else none

/-- OPERAND_RANGE(i) where x[i] is no entry number of the slot's table (43_scalar_mult.md R179). -/
def chkEntry (s : State) (i slot : Nat) : Option Raise :=
  if s.xn i ≥ entriesOf (s.slot slot).win.w then some { cause := .operandRange, info := i } else none

/-- NOT_ON_CURVE(i) where the pair at i fails y² ≡ x³ + 7 (mod P) (43_scalar_mult.md R177). -/
def chkOnCurve (s : State) (i : Nat) : Option Raise :=
  if onCurve (s.xn i) (s.xn (i + 1)) then none else some { cause := .notOnCurve, info := i }

/-! ### Operands -/

/-- The affine pair at `i` (10_state.md R22). -/
def State.pair (s : State) (i : Nat) : Affine := { x := s.x i, y := s.x (i + 1) }

/-- The Jacobian triple at `i` (10_state.md R22). -/
def State.triple (s : State) (i : Nat) : Jac := { X := s.xn i, Y := s.xn (i + 1), Z := s.xn (i + 2) }

/-- The batch of `len` values at `i` (10_state.md R22). -/
def State.batch (s : State) (i len : Nat) : List Nat := (List.range len).map (fun j => s.xn (i + j))

/-- The batch of `len` triples at `i` (42_jacobian_point.md R154). -/
def State.triples (s : State) (i len : Nat) : List Jac := (List.range len).map (fun j => s.triple (i + 3 * j))

/-! ### Results -/

/-- One value into register `i`. -/
def State.putNat (s : State) (i v : Nat) : State := s.setX i (BitVec.ofNat 256 v)

/-- An affine pair into registers `i`, `i+1`. -/
def State.putPair (s : State) (i : Nat) (a : Affine) : State := s.setSpan i [a.x, a.y]

/-- A Jacobian triple into registers `i`, `i+1`, `i+2`. -/
def State.putTriple (s : State) (i : Nat) (t : Jac) : State :=
  s.setSpan i [BitVec.ofNat 256 t.X, BitVec.ofNat 256 t.Y, BitVec.ofNat 256 t.Z]

/-- A batch of values from register `i` on. -/
def State.putBatch (s : State) (i : Nat) (vs : List Nat) : State := s.setSpan i (vs.map (BitVec.ofNat 256))

/-- A batch of affine pairs from register `i` on (42_jacobian_point.md R154). -/
def State.putPairs (s : State) (i : Nat) (as : List Affine) : State :=
  s.setSpan i (as.flatMap (fun a => [a.x, a.y]))

end Sys2Proof.Machine
end

