-- ==== Sys2Proof/Machine/Field.lean ====
section
/-! DEFINITION. Field and scalar arithmetic (40_field_scalar_arith.md): ADDP, SUBP, MULP, SQRP, POW2P, REDP modulo P;
ADDN, SUBN, MULN, REDN modulo n. -/

namespace Sys2Proof.Machine

/-- ADDP (R102). -/
def execAddp (rd ra rb : Reg) (s : State) : Out :=
  s.endCommand [chkLegal (.addp rd ra rb), chkP s ra, chkP s rb] (s.putNat rd (fadd (s.xn ra) (s.xn rb)))

/-- SUBP (R103). -/
def execSubp (rd ra rb : Reg) (s : State) : Out :=
  s.endCommand [chkLegal (.subp rd ra rb), chkP s ra, chkP s rb] (s.putNat rd (fsub (s.xn ra) (s.xn rb)))

/-- MULP: plain residues (R104). -/
def execMulp (rd ra rb : Reg) (s : State) : Out :=
  s.endCommand [chkLegal (.mulp rd ra rb), chkP s ra, chkP s rb] (s.putNat rd (fmul (s.xn ra) (s.xn rb)))

/-- SQRP (R105). -/
def execSqrp (rd ra : Reg) (s : State) : Out :=
  s.endCommand [chkLegal (.sqrp rd ra), chkP s ra] (s.putNat rd (fsqr (s.xn ra)))

/-- POW2P: x^(2^k) by k squarings (R106). -/
def execPow2p (rd ra : Reg) (k : Imm) (s : State) : Out :=
  s.endCommand [chkLegal (.pow2p rd ra k), chkP s ra] (s.putNat rd (pow2 (s.xn ra) k))

/-- REDP: no range check (R107). -/
def execRedp (rd ra : Reg) (s : State) : Out :=
  s.endCommand [chkLegal (.redp rd ra)] (s.putNat rd (s.xn ra % P))

/-- ADDN (R108). -/
def execAddn (rd ra rb : Reg) (s : State) : Out :=
  s.endCommand [chkLegal (.addn rd ra rb), chkN s ra, chkN s rb] (s.putNat rd (nadd (s.xn ra) (s.xn rb)))

/-- SUBN (R109). -/
def execSubn (rd ra rb : Reg) (s : State) : Out :=
  s.endCommand [chkLegal (.subn rd ra rb), chkN s ra, chkN s rb] (s.putNat rd (nsub (s.xn ra) (s.xn rb)))

/-- MULN: plain residues (R110). -/
def execMuln (rd ra rb : Reg) (s : State) : Out :=
  s.endCommand [chkLegal (.muln rd ra rb), chkN s ra, chkN s rb] (s.putNat rd (nmul (s.xn ra) (s.xn rb)))

/-- REDN: no range check (R111). -/
def execRedn (rd ra : Reg) (s : State) : Out :=
  s.endCommand [chkLegal (.redn rd ra)] (s.putNat rd (s.xn ra % N))

end Sys2Proof.Machine
end

