-- ==== Sys2Proof/Machine/Inverse.lean ====
section
/-! DEFINITION. Inverse, batched inverse and square root (41_inverse_sqrt.md): INVP, INVN, BINVP, SQRTP. -/

namespace Sys2Proof.Machine

/-- INVP (R130). -/
def execInvp (rd ra : Reg) (s : State) : Out :=
  s.endCommand [chkLegal (.invp rd ra), chkP s ra, chkInvertible s ra P] (s.putNat rd (finv (s.xn ra)))

/-- INVN (R131). -/
def execInvn (rd ra : Reg) (s : State) : Out :=
  s.endCommand [chkLegal (.invn rd ra), chkN s ra, chkInvertible s ra N] (s.putNat rd (ninv (s.xn ra)))

/-- BINVP: zeros pass through, NOT_INVERTIBLE is never raised (R133). -/
def execBinvp (rd ra : Reg) (n : Imm) (s : State) : Out :=
  s.endCommand (chkLegal (.binvp rd ra n) :: chkSpanP s ra n) (s.putBatch rd (invertBatch (s.batch ra n)))

/-- SQRTP: x^((P+1)/4) by the chain, no test that the operand is a square (R134, R135). -/
def execSqrtp (rd ra : Reg) (s : State) : Out :=
  s.endCommand [chkLegal (.sqrtp rd ra), chkP s ra] (s.putNat rd (sqrtChain (s.xn ra)))

end Sys2Proof.Machine
end

