-- ==== Sys2Proof/Machine/Move.lean ====
section
/-! DEFINITION. Data movement and constants (44_move_system.md): NOP, MOV, LDC. -/

namespace Sys2Proof.Machine

/-- NOP: completes and writes nothing (R210). -/
def execNop (s : State) : Out := s.endCommand [chkLegal .nop] s

/-- MOV: any 256-bit value, no range check (R211). -/
def execMov (rd ra : Reg) (s : State) : Out := s.endCommand [chkLegal (.mov rd ra)] (s.setX rd (s.x ra))

/-- LDC: a constant of the table (R212, R213). -/
def execLdc (rd : Reg) (c : Const) (s : State) : Out :=
  s.endCommand [chkLegal (.ldc rd c)] (s.putNat rd (constValue c))

end Sys2Proof.Machine
end

