-- ==== Sys2Proof/Machine/Point.lean ====
section
/-! DEFINITION. Jacobian point arithmetic (42_jacobian_point.md): PDBL, PADD, PNEG, PNORM. No command tests that a triple
is on the curve (10_state.md R38). -/

namespace Sys2Proof.Machine

/-- PDBL (R151). -/
def execPdbl (rd ra : Reg) (s : State) : Out :=
  s.endCommand (chkLegal (.pdbl rd ra) :: chkSpanP s ra 3) (s.putTriple rd (jdbl (s.triple ra)))

/-- PADD: the triple at ra first, then the one at rb (R152). -/
def execPadd (rd ra rb : Reg) (s : State) : Out :=
  s.endCommand (chkLegal (.padd rd ra rb) :: (chkSpanP s ra 3 ++ chkSpanP s rb 3))
    (s.putTriple rd (jadd (s.triple ra) (s.triple rb)))

/-- PNEG (R153). -/
def execPneg (rd ra : Reg) (s : State) : Out :=
  s.endCommand (chkLegal (.pneg rd ra) :: chkSpanP s ra 3) (s.putTriple rd (jneg (s.triple ra)))

/-- PNORM: n triples to n affine pairs, NOT_INVERTIBLE is never raised (R154). -/
def execPnorm (rd ra : Reg) (n : Imm) (s : State) : Out :=
  s.endCommand (chkLegal (.pnorm rd ra n) :: chkSpanP s ra (3 * n.val)) (s.putPairs rd (jnorm (s.triples ra n)))

end Sys2Proof.Machine
end

