-- ==== Sys2Proof/Machine/Scalar.lean ====
section
/-! DEFINITION. Scalar multiplication and the precomputation cache (43_scalar_mult.md): GLVSPLIT, SMUL, SMULU, SETANCH,
SETW, TBLRD. -/

namespace Sys2Proof.Machine

/-- GLVSPLIT: the two halves and the sign word (R172). -/
def execGlvsplit (rd ra : Reg) (s : State) : Out :=
  s.endCommand [chkLegal (.glvsplit rd ra), chkScalar s ra, chkGlv s ra]
    (s.putBatch rd [(glvSplit (s.xn ra)).k1, (glvSplit (s.xn ra)).k2, (glvSplit (s.xn ra)).signs])

/-- The slot's table is there to be looked up: W ≠ 1 and TVALID = 1 (R175, R176). -/
def State.tableHit (s : State) (slot : Nat) : Bool :=
  (s.slot slot).win.w ≠ .w1 && (s.slot slot).win.tvalid

/-- The table an SMUL on the slot uses: the stored one, else one computed from anchor and W (R175). -/
def State.smulTable (s : State) (slot : Nat) : List Affine :=
  if s.tableHit slot then (s.slot slot).win.table
  else storedTable (s.slot slot).anchor (s.slot slot).win.w

/-- The pair an SMUL with scalar `k` on the slot writes (R175); R182 says what equalities it obeys (`MultiplicationLaws` in
Sys2Proof/Safety.lean). -/
def State.smulResult (s : State) (slot k : Nat) : Affine := multiply k (s.smulTable slot) (s.slot slot).win.w

/-- The slot after an SMUL on it: a table computed for W ≠ 1 is installed (R176). -/
def State.smulInstall (s : State) (slot : Nat) : State :=
  if (s.slot slot).win.w ≠ .w1 ∧ (s.slot slot).win.tvalid = false then
    s.installTable slot (storedTable (s.slot slot).anchor (s.slot slot).win.w)
  else s

/-- SMUL: k·A for the anchor A of the slot (R175). -/
def execSmul (rd ra : Reg) (slot : SlotIx) (s : State) : Out :=
  s.endCommand [chkLegal (.smul rd ra slot), chkAnchored s slot, chkScalar s ra, chkGlv s ra]
    ((s.smulInstall slot).putPair rd (s.smulResult slot (s.xn ra)))

/-- SMULU: k·Q by double-and-add, a Jacobian triple (R180); it agrees with SMUL (R182). -/
def execSmulu (rd ra rb : Reg) (s : State) : Out :=
  s.endCommand (chkLegal (.smulu rd ra rb) :: (chkSpanP s rb 3 ++ [chkScalar s ra]))
    (s.putTriple rd (multiplyUnsafe (s.xn ra) (s.triple rb)))

/-- SETANCH: bind a slot other than 0 to a point of the curve (R177). -/
def execSetanch (ra : Reg) (slot : SlotIx) (s : State) : Out :=
  s.endCommand [chkLegal (.setanch ra slot), chkSlot s slot, chkP s ra, chkP s (ra.val + 1), chkOnCurve s ra]
    (s.bindSlot slot (s.pair ra))

/-- SETW: the window size, and the table invalid even where the size stays (R178). -/
def execSetw (slot : SlotIx) (w : WSize) (s : State) : Out :=
  s.endCommand [chkLegal (.setw slot w), chkSlot s slot] (s.resizeSlot slot w)

/-- TBLRD: one entry of a populated table (R179). -/
def execTblrd (rd ra : Reg) (slot : SlotIx) (s : State) : Out :=
  s.endCommand [chkLegal (.tblrd rd ra slot), chkTable s slot, chkEntry s ra slot]
    (s.putPair rd (tableEntry (s.slot slot).win.table (s.xn ra)))

end Sys2Proof.Machine
end

