-- ==== Sys2Proof/Machine/Dispatch.lean ====
section
/-! DEFINITION. The meaning of each command (30_encoding.md R85), one arm per constructor of Instr. -/

namespace Sys2Proof.Machine

def exec (i : Instr) (s : State) : Host.Outcome State Fault Refusal :=
  match i with
  | .nop => Sys2Proof.Machine.execNop s
  | .mov rd ra => Sys2Proof.Machine.execMov rd ra s
  | .ldc rd c => Sys2Proof.Machine.execLdc rd c s
  | .addp rd ra rb => Sys2Proof.Machine.execAddp rd ra rb s
  | .subp rd ra rb => Sys2Proof.Machine.execSubp rd ra rb s
  | .mulp rd ra rb => Sys2Proof.Machine.execMulp rd ra rb s
  | .sqrp rd ra => Sys2Proof.Machine.execSqrp rd ra s
  | .pow2p rd ra k => Sys2Proof.Machine.execPow2p rd ra k s
  | .redp rd ra => Sys2Proof.Machine.execRedp rd ra s
  | .invp rd ra => Sys2Proof.Machine.execInvp rd ra s
  | .sqrtp rd ra => Sys2Proof.Machine.execSqrtp rd ra s
  | .binvp rd ra n => Sys2Proof.Machine.execBinvp rd ra n s
  | .addn rd ra rb => Sys2Proof.Machine.execAddn rd ra rb s
  | .subn rd ra rb => Sys2Proof.Machine.execSubn rd ra rb s
  | .muln rd ra rb => Sys2Proof.Machine.execMuln rd ra rb s
  | .redn rd ra => Sys2Proof.Machine.execRedn rd ra s
  | .invn rd ra => Sys2Proof.Machine.execInvn rd ra s
  | .pdbl rd ra => Sys2Proof.Machine.execPdbl rd ra s
  | .padd rd ra rb => Sys2Proof.Machine.execPadd rd ra rb s
  | .pneg rd ra => Sys2Proof.Machine.execPneg rd ra s
  | .pnorm rd ra n => Sys2Proof.Machine.execPnorm rd ra n s
  | .glvsplit rd ra => Sys2Proof.Machine.execGlvsplit rd ra s
  | .smul rd ra slot => Sys2Proof.Machine.execSmul rd ra slot s
  | .smulu rd ra rb => Sys2Proof.Machine.execSmulu rd ra rb s
  | .setanch ra slot => Sys2Proof.Machine.execSetanch ra slot s
  | .setw slot w => Sys2Proof.Machine.execSetw slot w s
  | .tblrd rd ra slot => Sys2Proof.Machine.execTblrd rd ra slot s

end Sys2Proof.Machine
end

