-- ==== Sys2Proof/Machine/HostPort.lean ====
section
/-! DEFINITION. The host window and the host's moves (20_memory.md R50 to R57, 70_reset_and_hazards.md R250, R258). -/

namespace Sys2Proof.Machine

/-! ### What the window shows (20_memory.md R51) -/

/-- CFG: NSLOT in bits 7:0, MAXW in bits 11:8, USE_ENDO = 1 in bit 12 (10_state.md R31). -/
def State.cfgWord (s : State) : HostWord :=
  BitVec.ofNat 32 (s.nslot % 2 ^ 8 + Config.maxW * 2 ^ 8 + 2 ^ 12)

/-- SLOTST[s]: AVALID in bit 0, TVALID in bit 1, W in bits 7:4 (10_state.md R35). -/
def Slot.stWord (sl : Slot) : HostWord :=
  bitAt sl.avalid 0 ||| bitAt sl.win.tvalid 1 ||| BitVec.ofNat 32 (sl.win.w.val * 2 ^ 4)

/-- The anchor of slot `i` as the host reads it: unspecified while AVALID = 0 (20_memory.md R51; log entry 6). -/
def State.hostAnchor (s : State) (i : Nat) : Affine :=
  if (s.slot i).avalid then (s.slot i).anchor
  else { x := Config.freeAnchor s.draw i 0, y := Config.freeAnchor s.draw i 1 }

/-- The word at byte `o` of the 128 bytes of slot `i`; what is past SLOTST, or past the last slot, is reserved (R51). -/
def State.slotWord (s : State) (i o : Nat) : HostWord :=
  if i ≥ s.nslot then 0
  else if o < 0x20 then wordOf (s.hostAnchor i).x (o / 4)
  else if o < 0x40 then wordOf (s.hostAnchor i).y ((o - 0x20) / 4)
  else if o = 0x40 then (s.slot i).stWord
  else 0

/-- The word at byte offset `off` of the window; CMD and reserved offsets read 0 (R51). -/
def State.windowWord (s : State) (off : Nat) : HostWord :=
  if off < 0x400 then s.regWord (off / 0x20) (off % 0x20 / 4)
  else if off = 0x404 then s.status.word
  else if off = 0x408 then s.ctrl.word
  else if off = 0x40C then s.cause
  else if off = 0x410 then s.fcmd
  else if off = 0x414 then s.finfo
  else if off = 0x418 then idValue
  else if off = 0x41C then s.cfgWord
  else if off < 0x800 then 0
  else s.slotWord ((off - 0x800) / 0x80) ((off - 0x800) % 0x80)

/-- The byte at offset `a` of the window: words are big-endian (20_memory.md R52). -/
def State.windowByte (s : State) (a : Nat) : BitVec 8 := byteOfWord (s.windowWord (a / 4 * 4)) (a % 4)

/-- A location the host must leave alone while BUSY = 1: a general register or a slot location (20_memory.md R57). -/
def State.guarded (s : State) (off : Nat) : Bool :=
  off < 0x400 || (0x800 ≤ off && (off - 0x800) / 0x80 < s.nslot && (off - 0x800) % 0x80 ≤ 0x40)

/-! ### The moves (70_reset_and_hazards.md R258) -/

/-- The refusals of a host access: another size than one word, misaligned, outside the window, or a guarded location
while BUSY = 1 (20_memory.md R54, R57). While `rst` is asserted nothing is busy. -/
def State.accessRefusal (s : State) (off size : Nat) : Option Refusal :=
  if size ≠ 4 then some .hostAccessSize
  else if off % 4 ≠ 0 then some .hostAccessUnaligned
  else if off ≥ 0x1000 then some .hostAccessOutsideWindow
  else if s.status.busy && s.guarded off then some .hostTouchesBusyCore
  else none

/-- `MemRead(off, 4)`: no state of CORE changes (R55); while `rst` is asserted the value is unspecified (R250). -/
def State.hostRead (s : State) (off size : Nat) : Out :=
  match s.accessRefusal off size with
  | some r => .refused r
  | none =>
    .next { s with
      reply := .word (if s.rst then Config.freeRead s.draw else s.windowWord off)
      draw := s.draw + 1 }

/-- The effect of a write on CORE: a register word, CMD, STATUS or CTRL; every other write is ignored (R51, R55). -/
def State.windowWrite (s : State) (off : Nat) (v : HostWord) : State :=
  if off < 0x400 then s.setRegWord (off / 0x20) (off % 0x20 / 4) v
  else if off = 0x400 then s.issue v
  else if off = 0x404 then s.writeStatus v
  else if off = 0x408 then s.writeCtrl v
  else s

/-- `MemWrite(off, 4, v)`; while `rst` is asserted CORE accepts nothing (R250). -/
def State.hostWrite (s : State) (off size : Nat) (v : HostWord) : Out :=
  match s.accessRefusal off size with
  | some r => .refused r
  | none => .next { (if s.rst then s else s.windowWrite off v) with reply := .nothing }

/-- One move of the host (R258). -/
def State.hostMove (s : State) : HostMove → Out
  | .read off size => s.hostRead off size
  | .write off size v => s.hostWrite off size v
  | .assertRst => .next (s.resetCore true)
  | .releaseRst => .next { (if s.rst then s.resetCore false else s) with reply := .nothing }
  | .sampleIrq => .next { s with reply := .level s.irq }

end Sys2Proof.Machine
end

