-- ==== Sys2Proof/Machine/Sequencer.lean ====
section
/-! DEFINITION. The sequencer's move: the ending step of the command in flight (10_state.md R28, 70_reset_and_hazards.md
R256). -/

namespace Sys2Proof.Machine

/-- A latched word that is no command raises ILLEGAL_CMD with FINFO 0 (30_encoding.md R86, R88, 60_exceptions.md R220). -/
def State.illegalWord (s : State) : Out := .next (s.faultEntry { cause := .illegalCmd, info := 0 })

/-- The command in flight is decoded from CMDLATCH and ended. -/
def State.endInFlight (s : State) : Out :=
  match decode s.cmdLatch with
  | .ok i => exec i s
  | .error _ => s.illegalWord

/-- The sequencer's move: it ends the command in flight; with none in flight nothing happens (R28). -/
def State.coreMove (s : State) : Out :=
  if s.status.busy then s.endInFlight else .next s

/-- One turn: the host's move, the sequencer's, or a STATUS write in the same instant as an ending, where a bit that the
ending sets stays set (10_state.md R26). While `rst` is asserted CORE accepts nothing, a STATUS write included (R250). -/
def State.takeTurn (s : State) : Turn → Out
  | .host m => s.hostMove m
  | .core => s.coreMove
  | .statusAtEnd v => ({ (if s.rst then s else s.writeStatus v) with reply := .nothing } : State).coreMove

end Sys2Proof.Machine
end

