-- ==== Sys2Proof/Machine/Step.lean ====
section
/-! DEFINITION. One step of the whole machine: the next turn of the list the state carries; when the list is empty the host
has made its last move and the sequencer ends what is in flight (70_reset_and_hazards.md R256, R259). -/

namespace Sys2Proof.Machine

/-- One step. -/
def step (s : State) : Host.Outcome State Fault Refusal :=
  match s.turns with
  | [] => s.coreMove
  | t :: ts => ({ s with turns := ts } : State).takeTurn t

/-- `s` with the command word `w` (of `nbits` bits) in flight and the sequencer to move: accepted, BUSY = 1, FAULT = 0,
CMDLATCH = w, `rst` not asserted (10_state.md R28; log entry 13). -/
def State.withFetchWord (s : State) (nbits w : Nat) : State :=
  { s with
    cmdLatch := BitVec.ofNat 32 (w % 2 ^ nbits)
    status := { s.status with busy := true, fault := false }
    rst := false
    turns := .core :: s.turns }

end Sys2Proof.Machine
end

