-- ==== Sys2Proof/Safety.lean ====
section
/-! DEFINITION. The terms claims use: what an ending step leaves, the invariant of the machine, the launch premises,
the end and the observation of a run (70_reset_and_hazards.md R259), and the laws of the two multiplications
(43_scalar_mult.md R182). -/

namespace Sys2Proof.Machine

/-! ### Frames -/

/-- Register `i` was written whole and holds `v`. -/
def Holds (t : State) (i : Nat) (v : Word) : Prop := t.regs[i]? = some { val := v, known := 0xFF#8 }

/-- Every slot register and every table is as before. -/
def SlotsSame (s t : State) : Prop := t.base = s.base ∧ t.free = s.free

/-- What no command touches, however it ends: CTRL, OVR, CMDLATCH, the `rst` level, the turns to come, the host's reply. -/
def Untouched (s t : State) : Prop :=
  t.ctrl = s.ctrl ∧ t.status.ovr = s.status.ovr ∧ t.cmdLatch = s.cmdLatch ∧ t.rst = s.rst ∧ t.turns = s.turns ∧
    t.reply = s.reply

/-- STATUS and the fault record after a completion (10_state.md R28): BUSY 0, DONE 1, FAULT, CAUSE, FCMD, FINFO as before. -/
def Completed (s t : State) : Prop :=
  t.status.busy = false ∧ t.status.done = true ∧ t.status.fault = s.status.fault ∧ t.cause = s.cause ∧ t.fcmd = s.fcmd ∧
    t.finfo = s.finfo ∧ Untouched s t

/-- The registers from `i` on hold the values `vs`, and every other register is as before. -/
def WritesOnly (s t : State) (i : Nat) (vs : List Word) : Prop :=
  (∀ (k : Nat) (v : Word), vs[k]? = some v → Holds t (i + k) v) ∧
    ∀ j : Nat, (j < i ∨ i + vs.length ≤ j) → t.regs[j]? = s.regs[j]?

/-- A completion that writes the values `vs` to the registers from `i` on and nothing else. -/
def RegEffect (s t : State) (i : Nat) (vs : List Word) : Prop :=
  Completed s t ∧ SlotsSame s t ∧ WritesOnly s t i vs

/-- The ending by a fault of code `code` with index `info`: the record and nothing else (60_exceptions.md R221). -/
def FaultEffect (s t : State) (code info : Nat) : Prop :=
  t.status.busy = false ∧ t.status.fault = true ∧ t.status.done = s.status.done ∧ t.cause = BitVec.ofNat 32 code ∧
    t.fcmd = s.cmdLatch ∧ t.finfo = BitVec.ofNat 32 info ∧ t.regs = s.regs ∧ SlotsSame s t ∧ Untouched s t

/-! ### Points of the curve -/

/-- The curve y² = x³ + 7 over the integers modulo P (00_scope.md R1), as a Weierstrass curve of Mathlib, whose group of
points is the group the engines compute in (42_jacobian_point.md R155). -/
def curve : WeierstrassCurve.Affine (ZMod P) := { a₁ := 0, a₂ := 0, a₃ := 0, a₄ := 0, a₆ := 7 }

/-- The triple stands for the point (42_jacobian_point.md R150): for the identity where Z = 0, whatever X and Y are, else for
the point with x = X/Z² and y = Y/Z³. -/
def Stands (t : Jac) : curve.Point → Prop
  | .zero => t.Z % P = 0
  | .some x y _ => t.Z % P ≠ 0 ∧ x * (t.Z : ZMod P) ^ 2 = t.X ∧ y * (t.Z : ZMod P) ^ 3 = t.Y

/-- If the triple stands for the identity, the addition's test on X and Y sees it (42_jacobian_point.md R152,
90_conflicts.md C4). -/
def Recognised (t : Jac) : Prop := t.Z % P = 0 → t.X % P = 0 ∨ t.Y % P = 0

/-- If the triple stands for the identity, its X is 0, as in every identity the commands produce from points of the curve
(42_jacobian_point.md R152 corner case (b)). -/
def IdentityX (t : Jac) : Prop := t.Z % P = 0 → t.X % P = 0

/-- The integer a sign bit and an absolute value stand for (43_scalar_mult.md R171). -/
def signed (neg : Bool) (k : Nat) : Int := if neg then -(k : Int) else (k : Int)

/-! ### The invariant -/

/-- What holds of a slot: a bound anchor is a point of the curve (10_state.md R38), and a valid table is the stored table
of the slot's anchor and window size, which is not 1 (10_state.md R36, 43_scalar_mult.md R176, R179). -/
def Slot.Ok (sl : Slot) : Prop :=
  (sl.avalid = true →
    sl.anchor.x.toNat < P ∧ sl.anchor.y.toNat < P ∧ onCurve sl.anchor.x.toNat sl.anchor.y.toNat = true) ∧
  (sl.win.tvalid = true →
    sl.avalid = true ∧ sl.win.w ≠ .w1 ∧ sl.win.table = storedTable sl.anchor sl.win.w) ∧
  Memory.wf sl.win.table = true

/-- The invariant every step keeps. -/
structure State.Inv (s : State) : Prop where
  /-- BUSY and FAULT are never both 1 (10_state.md R26) -/
  exclusive : ¬(s.status.busy = true ∧ s.status.fault = true)
  /-- CAUSE holds a code of 60_exceptions.md R220, or 0 where no fault has happened -/
  causeCode : s.cause.toNat ≤ 7
  /-- a faulted core has a cause (R220, R221) -/
  causeSet : s.status.fault = true → s.cause.toNat ≠ 0
  /-- bits 31:5 of FINFO are zero (R221) -/
  infoIndex : s.finfo.toNat < 32
  /-- 1 ≤ NSLOT ≤ 16 (00_scope.md R9); at least 1 by the shape of State -/
  slotCount : s.nslot ≤ Config.nslotMax
  /-- every slot is as 10_state.md R36, R38 say -/
  slotsOk : ∀ i, i < s.nslot → (s.slot i).Ok
  /-- nothing is in flight while `rst` is asserted (70_reset_and_hazards.md R250) -/
  rstQuiet : s.rst = true → s.status.busy = false

/-! ### Runs (70_reset_and_hazards.md R259) -/

/-- `n` steps, or the first outcome that is no next state. -/
def State.steps : Nat → State → Out
  | 0, s => .next s
  | n + 1, s =>
    match step s with
    | .next t => State.steps n t
    | o => o

/-- The state once the turns `ts` have been taken from `s`, and no more. -/
def State.after (s : State) (ts : List Turn) : Out := State.steps ts.length { s with turns := ts }

/-- A run: the host's moves, in their order, with the sequencer's ending steps among them, and one step more, in which a
command still in flight ends, because a run whose last move was an accepted command ends after that command's ending. -/
def State.run (s : State) (ts : List Turn) : Out := State.steps (ts.length + 1) { s with turns := ts }

/-- The run has ended: the host has made its last move and BUSY = 0. DESIGN CHOICE (log entry 23): a run whose last move left
`rst` asserted counts as ended too; R259 says nothing of such runs. -/
def RunEnded (s : State) : Prop := s.turns = [] ∧ s.status.busy = false

/-- A run ended clean. -/
def EndedClean (s : State) : Prop := RunEnded s ∧ s.status.fault = false

/-- A run ended faulted. -/
def EndedFaulted (s : State) : Prop := RunEnded s ∧ s.status.fault = true

/-- A launch state: the state after reset, for any NSLOT, or a state that a run from a launch state ended in.
DESIGN CHOICE (log entry 23): `rst` may still be asserted in the latter, and a CMD write is then ignored until its release,
so a claim that needs the write accepted takes `s.rst = false` as a premise beside R259's. -/
inductive Launch : State → Prop where
  | reset (k : Nat) : k < Config.nslotMax → Launch (State.resetWith k)
  | ended {s t : State} (ts : List Turn) : Launch s → s.run ts = .next t → RunEnded t → Launch t

/-! ### Launch premises (R259) -/

/-- (P-IDLE). -/
def PIdle (s : State) : Prop := s.status.busy = false

/-- (P-NOFAULT). -/
def PNoFault (s : State) : Prop := s.status.fault = false

/-- (P-NOOVR). -/
def PNoOvr (s : State) : Prop := s.status.ovr = false

/-- (P-NODONE). -/
def PNoDone (s : State) : Prop := s.status.done = false

/-- Register `i` has been written since reset, all its words. -/
def Written (s : State) (i : Nat) : Prop := ∃ r, s.regs[i]? = some r ∧ r.known = 0xFF#8

/-- The registers from `i` on, `len` of them. -/
def regSpan (i len : Nat) : List Nat := (List.range len).map (fun j => i + j)

/-- The registers a command reads (each command's rule). -/
def readsOf : Instr → List Nat
  | .nop => []
  | .mov _ ra => [ra]
  | .ldc _ _ => []
  | .addp _ ra rb => [ra, rb]
  | .subp _ ra rb => [ra, rb]
  | .mulp _ ra rb => [ra, rb]
  | .sqrp _ ra => [ra]
  | .pow2p _ ra _ => [ra]
  | .redp _ ra => [ra]
  | .invp _ ra => [ra]
  | .sqrtp _ ra => [ra]
  | .binvp _ ra n => regSpan ra n
  | .addn _ ra rb => [ra, rb]
  | .subn _ ra rb => [ra, rb]
  | .muln _ ra rb => [ra, rb]
  | .redn _ ra => [ra]
  | .invn _ ra => [ra]
  | .pdbl _ ra => regSpan ra 3
  | .padd _ ra rb => regSpan ra 3 ++ regSpan rb 3
  | .pneg _ ra => regSpan ra 3
  | .pnorm _ ra n => regSpan ra (3 * n.val)
  | .glvsplit _ ra => [ra]
  | .smul _ ra _ => [ra]
  | .smulu _ ra rb => ra.val :: regSpan rb 3
  | .setanch ra _ => regSpan ra 2
  | .setw _ _ => []
  | .tblrd _ ra _ => [ra]

/-- The registers `rs` have been written. -/
def AllWritten (s : State) (rs : List Nat) : Prop := ∀ i ∈ rs, Written s i

/-- (P-WRITTEN) for the run of `ts` from `s`: wherever a command is in flight, every register it reads has been written. No
register changes while a command is in flight (20_memory.md R57), so it was written before the acceptance. -/
def PWritten (s : State) (ts : List Turn) : Prop :=
  ∀ (before rest : List Turn) (u : State) (i : Instr), ts = before ++ rest → s.after before = .next u →
    u.status.busy = true → decode u.cmdLatch = .ok i → AllWritten u (readsOf i)

/-- Slot `i` is bound, and a valid table is that of its anchor and window size: the first alternative of (P-SLOT). -/
def PSlot (s : State) (i : Nat) : Prop := i < s.nslot ∧ (s.slot i).avalid = true ∧ (s.slot i).Ok

/-- The command uses slot `i` as (P-SLOT) means it: it is an SMUL or a TBLRD on it. -/
def usesSlot (i : Nat) : Instr → Bool
  | .smul _ _ slot => slot.val = i
  | .tblrd _ _ slot => slot.val = i
  | _ => false

/-- The run of `ts` from `s` binds slot `i` first, the other alternative of (P-SLOT): a SETANCH on the slot in flight ends
without a fault, at the turn `e`, and no SMUL or TBLRD on the slot was written to CMD before. -/
def BindsFirst (s : State) (ts : List Turn) (i : Nat) : Prop :=
  ∃ (before rest : List Turn) (e : Turn) (u t : State) (ra : Reg) (slot : SlotIx),
    ts = before ++ e :: rest ∧
    (∀ (w : Cmd) (c : Instr), Turn.host (.write 0x400 4 w) ∈ before → decode w = .ok c → usesSlot i c = false) ∧
    s.after before = .next u ∧ u.status.busy = true ∧ decode u.cmdLatch = .ok (.setanch ra slot) ∧ slot.val = i ∧
    (∀ m, e ≠ .host m) ∧ u.takeTurn e = .next t ∧ t.status.fault = false

/-- (P-SLOT) for slot `i` and the run of `ts` from `s`. -/
def PSlotRun (s : State) (ts : List Turn) (i : Nat) : Prop := PSlot s i ∨ BindsFirst s ts i

/-! ### The two multiplications (43_scalar_mult.md R182) -/

/-- A scalar the multiplications take (R175, R180). -/
def ScalarInRange (k : Nat) : Prop := 1 ≤ k ∧ k < N

/-- The properties of R182, for a slot with anchor A; SMUL(k) is `s.smulResult slot k`, what an SMUL with scalar k on the slot
writes. -/
structure MultiplicationLaws (s : State) (slot : Nat) : Prop where
  /-- k·A is on the curve -/
  onCurve : ∀ k, ScalarInRange k →
    Machine.onCurve (s.smulResult slot k).x.toNat (s.smulResult slot k).y.toNat = true
  /-- (a + b)·A = a·A + b·A: PNORM of PADD(lift(SMUL(a)), lift(SMUL(b))) is SMUL((a + b) mod n) where that is not 0 -/
  sum : ∀ a b, ScalarInRange a → ScalarInRange b → (a + b) % N ≠ 0 →
    ∀ (p : State) (rd ra rb : Reg), (Instr.padd rd ra rb).wf = true → p.triple ra = lift (s.smulResult slot a) →
      p.triple rb = lift (s.smulResult slot b) →
      ∃ q t, exec (.padd rd ra rb) p = .next q ∧ exec (.pnorm rd rd 1) q = .next t ∧
        RegEffect q t rd [(s.smulResult slot ((a + b) % N)).x, (s.smulResult slot ((a + b) % N)).y]
  /-- a·(b·A) = (ab mod n)·A: SMUL(a) on a slot whose anchor is SMUL(b) of this one is SMUL((a·b) mod n) of this one -/
  product : ∀ a b, ScalarInRange a → ScalarInRange b → ∀ (u : State) (other : Nat), PSlot u other →
    (u.slot other).anchor = s.smulResult slot b → u.smulResult other a = s.smulResult slot (a * b % N)
  /-- PNORM of SMULU(k, (Ax, Ay, 1)) is SMUL(k) -/
  smulu : ∀ k, ScalarInRange k → ∀ (p : State) (rd ra rb : Reg), (Instr.smulu rd ra rb).wf = true → p.xn ra = k →
    p.triple rb = lift (s.slot slot).anchor →
    ∃ q t, exec (.smulu rd ra rb) p = .next q ∧ exec (.pnorm rd rd 1) q = .next t ∧
      RegEffect q t rd [(s.smulResult slot k).x, (s.smulResult slot k).y]
  /-- n·A is the identity: PADD of (n − 1)·A and A gives ZERO (90_conflicts.md C2) -/
  order : ∀ (p : State) (rd ra rb : Reg), (Instr.padd rd ra rb).wf = true →
    p.triple ra = lift (s.smulResult slot (N - 1)) → p.triple rb = lift (s.slot slot).anchor →
    ∃ q, exec (.padd rd ra rb) p = .next q ∧ Completed p q ∧ q.triple rd = jzero

/-! ### Observation (R259) -/

/-- What the end of a run shows of one slot: the anchor of a bound slot, SLOTST, the entries TBLRD can return. -/
structure SlotView where
  anchor : Option Affine
  st : HostWord
  entries : List Affine
deriving DecidableEq, Repr

/-- What the end of a run shows: register by register the eight words, those that were written since reset, the control
registers, and slot by slot. -/
structure Observation where
  regs : List (List (Option HostWord))
  status : HostWord
  ctrl : HostWord
  cause : HostWord
  fcmd : HostWord
  finfo : HostWord
  slots : List SlotView
deriving DecidableEq, Repr

/-- The words of a register the host can read, word 0 first: a word nothing has written is not shown (10_state.md R21). -/
def GReg.words (r : GReg) : List (Option HostWord) :=
  (List.range 8).map (fun j => if r.known.getLsbD j then some (wordOf r.val j) else none)

/-- The view of a slot. -/
def Slot.view (sl : Slot) : SlotView :=
  { anchor := if sl.avalid then some sl.anchor else none
    st := sl.stWord
    entries := if sl.win.tvalid then sl.win.table.take (entriesOf sl.win.w) else [] }

/-- The observation of a run at its end. -/
def State.observe (s : State) : Observation :=
  { regs := s.regs.toList.map GReg.words
    status := s.status.word
    ctrl := s.ctrl.word
    cause := s.cause
    fcmd := s.fcmd
    finfo := s.finfo
    slots := (List.range s.nslot).map (fun i => (s.slot i).view) }

end Sys2Proof.Machine
end

