-- ==== Sys2Proof/Certificates/Slice0/Obligations.lean ====
section
/-! DEFINITION. The statements for the provers. Each docstring names the rules it formalises; what RegEffect, FaultEffect,
WritesOnly, Completed, SlotsSame and Untouched say is in Sys2Proof/Safety.lean. -/

namespace Sys2Proof.Statement

open Sys2Proof.Machine

/-- The opcode map of 30_encoding.md R85: opcode and format. -/
def opcodeMap : List (Nat × Format) :=
  [(0x00, .Z), (0x01, .R2), (0x02, .DI), (0x10, .R3), (0x11, .R3), (0x12, .R3), (0x13, .R2), (0x14, .RI), (0x15, .R2),
   (0x16, .R2), (0x17, .R2), (0x18, .RI), (0x20, .R3), (0x21, .R3), (0x22, .R3), (0x25, .R2), (0x26, .R2), (0x30, .R2),
   (0x31, .R3), (0x32, .R2), (0x33, .RI), (0x40, .R2), (0x41, .RS), (0x42, .R3), (0x48, .AS), (0x49, .SW), (0x4A, .RS)]

/-- The masks of 30_encoding.md R82. -/
def maskOf : Format → Cmd
  | .Z => 0xFFFFFFFF#32
  | .R2 => 0xFF003FFF#32
  | .R3 => 0xFF0001FF#32
  | .RI => 0xFF003E00#32
  | .RS => 0xFF003FE0#32
  | .DI => 0xFF07FE00#32
  | .AS => 0xFFF83FE0#32
  | .SW => 0xFFFFFE00#32

/-- The constant table of 44_move_system.md R213. -/
def constTable : Const → Nat
  | .zero => 0x0
  | .one => 0x1
  | .p => 0xFFFFFFFFFFFFFFFFFFFFFFFFFFFFFFFFFFFFFFFFFFFFFFFFFFFFFFFEFFFFFC2F
  | .n => 0xFFFFFFFFFFFFFFFFFFFFFFFFFFFFFFFEBAAEDCE6AF48A03BBFD25E8CD0364141
  | .gx => 0x79BE667EF9DCBBAC55A06295CE870B07029BFCDB2DCE28D959F2815B16F81798
  | .gy => 0x483ADA7726A3C4655DA4FBFC0E1108A8FD17B448A68554199C47D08FFB10D4B8
  | .beta => 0x7AE96A2B657C07106E64479EAC3434E99CF0497512F58995C1396C28719501EE
  | .b7 => 0x7
  | .lambda => 0x5363AD4CC05C30E0A5261C028812645A122E22EA20816678DF02967C1B23BD72
  | .a1 => 0x3086D221A7D46BCDE86C90E49284EB15
  | .nb1 => 0xE4437ED6010E88286F547FA90ABFE4C3
  | .a2 => 0x114CA50F7A8E2F3F657C1108D9D44CFD8
  | .b2 => 0x3086D221A7D46BCDE86C90E49284EB15
  | .pow128 => 0x100000000000000000000000000000000

/-- The command ends by the fault of this code and index, and by nothing else. -/
def Faults (i : Instr) (s : State) (code info : Nat) : Prop :=
  ∃ t, exec i s = .next t ∧ FaultEffect s t code info

/-- The command completes, writes the values `vs` to the registers from `at` on, and nothing else. -/
def Writes (i : Instr) (s : State) (dst : Nat) (vs : List Word) : Prop :=
  ∃ t, exec i s = .next t ∧ RegEffect s t dst vs

/-- A number as the 256-bit register content. -/
def word (v : Nat) : Word := BitVec.ofNat 256 v

/-- The least nonnegative residue of an integer modulo `m`, as a register content. -/
def wordMod (v : Int) (m : Nat) : Word := BitVec.ofNat 256 (v % (m : Int)).toNat

/-- The `len` registers from `i` on all hold field elements. -/
def FieldSpan (s : State) (i len : Nat) : Prop := ∀ j, j < len → s.xn (i + j) < P

/-- The host makes the move `m` in state `s`, whatever turns stand after it. -/
def hostDoes (s : State) (m : HostMove) : Out := step { s with turns := .host m :: s.turns }

/-- Everything of CORE but STATUS and CMDLATCH is as before. -/
def SameButStatus (s t : State) : Prop :=
  t.regs = s.regs ∧ SlotsSame s t ∧ t.ctrl = s.ctrl ∧ t.cause = s.cause ∧ t.fcmd = s.fcmd ∧ t.finfo = s.finfo ∧
    t.rst = s.rst ∧ t.turns = s.turns

/-- The offset is one the map of 20_memory.md R51 calls reserved. -/
def Reserved (s : State) (off : Nat) : Prop :=
  (0x420 ≤ off ∧ off < 0x800) ∨ 0x800 + 0x80 * s.nslot ≤ off ∨ (0x800 ≤ off ∧ 0x44 ≤ (off - 0x800) % 0x80)

/-- The digits of a scalar, low window first (43_scalar_mult.md R174), and what is left after them. -/
def digits (w : WSize) : (count m : Nat) → List Int × Nat
  | 0, m => ([], m)
  | count + 1, m =>
    let r := digits w count (wnafDigit w m).2
    ((wnafDigit w m).1 :: r.1, r.2)

/-- The number a list of digits stands for, low window first. -/
def digitSum (w : WSize) : List Int → Int
  | [] => 0
  | d :: ds => d + (2 : Int) ^ w.val * digitSum w ds

/-- Slot `j` of `t` is slot `j` of `s`, for every slot but `i`, and there are as many. -/
def OtherSlotsSame (s t : State) (i : Nat) : Prop :=
  t.nslot = s.nslot ∧ ∀ j, j ≠ i → t.slot j = s.slot j

end Sys2Proof.Statement

open Sys2Proof Sys2Proof.Machine Sys2Proof.Statement

/-! ### Encoding (30_encoding.md) -/

/-- The words written out in 30_encoding.md R87, and further ones of 95_test_vectors.md section 9 for the families R87 leaves
out. -/
def Obligations.SampleWordsDecode : Prop :=
  decode 0x12184400#32 = .ok (.mulp 3 1 2) ∧ decode 0x13080000#32 = .ok (.sqrp 1 0) ∧
  decode 0x14104058#32 = .ok (.pow2p 2 1 88) ∧ decode 0x02280004#32 = .ok (.ldc 5 .gx) ∧
  decode 0x18410003#32 = .ok (.binvp 8 4 3) ∧ decode 0x31480600#32 = .ok (.padd 9 0 3) ∧
  decode 0x33624001#32 = .ok (.pnorm 12 9 1) ∧ decode 0x41200000#32 = .ok (.smul 4 0 0) ∧
  decode 0x41200001#32 = .ok (.smul 4 0 1) ∧ decode 0x48018001#32 = .ok (.setanch 6 1) ∧
  decode 0x49000081#32 = .ok (.setw 1 .w4) ∧ decode 0x49000100#32 = .ok (.setw 0 .w8) ∧
  decode 0x4A508000#32 = .ok (.tblrd 10 2 0) ∧ decode 0x00000000#32 = .ok .nop ∧
  decode 0x01384000#32 = .ok (.mov 7 1) ∧ decode 0x204A5000#32 = .ok (.addn 9 9 8) ∧
  decode 0x17184000#32 = .ok (.sqrtp 3 1) ∧ decode 0x42380800#32 = .ok (.smulu 7 0 4)

/-- Decoding the word of a legal command gives the command back, every operand at every value (R81, R85, R86). -/
def Obligations.DecodeOfEncode : Prop := ∀ i : Instr, i.wf = true → decode (encode i) = .ok i

/-- Each word has one meaning: a word that decodes is the word of the command it decodes to, which is legal (R86). -/
def Obligations.EncodeOfDecode : Prop :=
  ∀ (w : Cmd) (i : Instr), decode w = .ok i → i.wf = true ∧ encode i = w

/-- R88(a): an opcode that is not in the map is rejected. -/
def Obligations.UnknownOpcodeRejected : Prop :=
  ∀ w : Cmd, w.toNat / 2 ^ 24 ∉ opcodeMap.map Prod.fst → decode w = .error .unknownOp

/-- R82, R86: with a known opcode, a word is rejected for its must-be-zero bits exactly when `w & mask` differs from the
match value of its format. -/
def Obligations.MaskDecidesUnusedBits : Prop :=
  ∀ (w : Cmd) (f : Format), (w.toNat / 2 ^ 24, f) ∈ opcodeMap →
    (decode w = .error .mustBeZero ↔ w &&& maskOf f ≠ BitVec.ofNat 32 (w.toNat / 2 ^ 24 * 2 ^ 24))

/-! ### Steps and endings (10_state.md R28, 60_exceptions.md) -/

/-- With a command in flight whose word decodes, a step in which the sequencer moves is `exec` of it, on the state with that
turn taken; also where a host write to STATUS falls in the same instant. -/
def Obligations.StepRunsDecodedCommand : Prop :=
  ∀ (s : State) (i : Instr), s.status.busy = true → decode s.cmdLatch = .ok i →
    (s.turns = [] → step s = exec i s) ∧
    (∀ ts, s.turns = .core :: ts → step s = exec i { s with turns := ts }) ∧
    (∀ v ts, s.turns = .statusAtEnd v :: ts → s.rst = false →
      step s = exec i { s with turns := ts, status := s.status.clear v, reply := .nothing })

/-- R88, R221: a latched word that is no command raises ILLEGAL_CMD, code 1, FINFO 0, and nothing else changes; whether no
turn is left, the sequencer moves, or a host write to STATUS falls in the same instant. -/
def Obligations.IllegalWordTakesFault : Prop :=
  ∀ (s : State) (r : Reject), s.status.busy = true → decode s.cmdLatch = .error r →
    (s.turns = [] → ∃ t, step s = .next t ∧ FaultEffect s t 1 0) ∧
    (∀ ts, s.turns = .core :: ts → ∃ t, step s = .next t ∧ FaultEffect { s with turns := ts } t 1 0) ∧
    (∀ v ts, s.turns = .statusAtEnd v :: ts → s.rst = false →
      ∃ t, step s = .next t ∧
        FaultEffect { s with turns := ts, status := s.status.clear v, reply := .nothing } t 1 0)

/-- A command outside its legal set, asked of `exec` directly, raises ILLEGAL_CMD before anything else (log entry 18). -/
def Obligations.IllFormedCommandTraps : Prop :=
  ∀ (i : Instr) (s : State), i.wf = false → Faults i s 1 0

/-- R28, R221: a command always ends, by a completion or by one of the seven faults, and touches neither CTRL nor OVR;
a fault leaves registers, slots and tables as they were. R259: so no run hangs: whatever its turns, it ends with BUSY = 0,
unless the host makes an access that the model refuses. That a run may end with `rst` still asserted is the model's choice
(log entry 23). -/
def Obligations.EveryCommandEnds : Prop :=
  (∀ (i : Instr) (s : State), ∃ t, exec i s = .next t ∧
    (Completed s t ∨ ∃ code info, 1 ≤ code ∧ code ≤ 7 ∧ FaultEffect s t code info)) ∧
  ∀ (s : State) (ts : List Turn), (∃ r, s.run ts = .refused r) ∨ ∃ t, s.run ts = .next t ∧ RunEnded t

/-- R60, R176 to R178: no command but SMUL, SETANCH and SETW changes a slot register or a table. -/
def Obligations.OnlyCacheCommandsChangeSlots : Prop :=
  ∀ (i : Instr) (s t : State), exec i s = .next t → (∀ rd ra slot, i ≠ .smul rd ra slot) →
    (∀ ra slot, i ≠ .setanch ra slot) → (∀ slot w, i ≠ .setw slot w) → SlotsSame s t

/-- Every step keeps the invariant, in every state that meets it: BUSY and FAULT exclusive, CAUSE a code, FINFO an index,
every bound anchor on the curve, every valid table the stored table of its slot's anchor and window size. -/
def Obligations.StepKeepsInvariant : Prop :=
  ∀ s t : State, s.Inv → step s = .next t → t.Inv

/-- The state after reset meets the invariant, for every NSLOT from 1 to 16. -/
def Obligations.ResetMeetsInvariant : Prop :=
  State.reset.Inv ∧ ∀ k, k < 16 → (State.resetWith k).Inv

/-! ### Constants -/

/-- R100 and R170: the moduli and the relations of the split constants. -/
def Obligations.CurveConstantRelations : Prop :=
  P = 2 ^ 256 - 2 ^ 32 - 977 ∧ P % 4 = 3 ∧ N < P ∧ 2 ^ 256 - P = 0x1000003D1 ∧
  Beta ^ 3 % P = 1 ∧ Lambda ^ 3 % N = 1 ∧ ((A1 : Int) - NB1 * Lambda) % N = 0 ∧ (A2 + B2 * Lambda) % N = 0 ∧
  A1 * B2 + A2 * NB1 = N ∧ onCurve Gx Gy = true

/-! ### Data movement (44_move_system.md) -/

/-- R210, R211: NOP completes and writes nothing; MOV copies any value, a register over itself included. -/
def Obligations.NopAndMovComplete : Prop :=
  ∀ (s : State) (rd ra : Reg), Writes .nop s 0 [] ∧ Writes (.mov rd ra) s rd [s.x ra]

/-- R212, R213: LDC loads the constant its selector names. -/
def Obligations.LdcLoadsConstant : Prop :=
  ∀ (s : State) (rd : Reg) (c : Const), Writes (.ldc rd c) s rd [word (constTable c)]

/-! ### Arithmetic (40_field_scalar_arith.md) -/

/-- R102 to R104: ADDP, SUBP, MULP on field elements write the least nonnegative residue modulo P. -/
def Obligations.FieldAddSubMul : Prop :=
  ∀ (s : State) (rd ra rb : Reg), s.xn ra < P → s.xn rb < P →
    Writes (.addp rd ra rb) s rd [wordMod ((s.xn ra : Int) + s.xn rb) P] ∧
    Writes (.subp rd ra rb) s rd [wordMod ((s.xn ra : Int) - s.xn rb) P] ∧
    Writes (.mulp rd ra rb) s rd [wordMod ((s.xn ra : Int) * s.xn rb) P]

/-- R108 to R110: ADDN, SUBN, MULN on scalars write the least nonnegative residue modulo n. -/
def Obligations.ScalarAddSubMul : Prop :=
  ∀ (s : State) (rd ra rb : Reg), s.xn ra < N → s.xn rb < N →
    Writes (.addn rd ra rb) s rd [wordMod ((s.xn ra : Int) + s.xn rb) N] ∧
    Writes (.subn rd ra rb) s rd [wordMod ((s.xn ra : Int) - s.xn rb) N] ∧
    Writes (.muln rd ra rb) s rd [wordMod ((s.xn ra : Int) * s.xn rb) N]

/-- R107, R111: REDP and REDN take any value and subtract the modulus at most once. -/
def Obligations.ReductionOfAnyValue : Prop :=
  ∀ (s : State) (rd ra : Reg),
    Writes (.redp rd ra) s rd [word (if s.xn ra < P then s.xn ra else s.xn ra - P)] ∧
    Writes (.redn rd ra) s rd [word (if s.xn ra < N then s.xn ra else s.xn ra - N)]

/-- R105, R106: SQRP squares and POW2P computes x^(2^k) modulo P, k = 0 copying the operand. -/
def Obligations.RepeatedSquaringIsPower : Prop :=
  ∀ (s : State) (rd ra : Reg) (k : Imm), s.xn ra < P →
    Writes (.sqrp rd ra) s rd [word (s.xn ra ^ 2 % P)] ∧
    Writes (.pow2p rd ra k) s rd [word (s.xn ra ^ 2 ^ k.val % P)]

/-! ### Inverse and square root (41_inverse_sqrt.md) -/

/-- R130, R131: INVP and INVN write the one value whose product with the operand is 1; an operand out of range faults, then
one that is 0. -/
def Obligations.InverseIsUnique : Prop :=
  ∀ (s : State) (rd ra : Reg),
    (s.xn ra ≠ 0 → s.xn ra < P → ∃ r, Writes (.invp rd ra) s rd [word r] ∧ 1 ≤ r ∧ r < P ∧ s.xn ra * r % P = 1 ∧
      ∀ q, 1 ≤ q → q < P → s.xn ra * q % P = 1 → q = r) ∧
    (P ≤ s.xn ra → Faults (.invp rd ra) s 2 ra) ∧ (s.xn ra = 0 → Faults (.invp rd ra) s 3 ra) ∧
    (s.xn ra ≠ 0 → s.xn ra < N → ∃ r, Writes (.invn rd ra) s rd [word r] ∧ 1 ≤ r ∧ r < N ∧ s.xn ra * r % N = 1 ∧
      ∀ q, 1 ≤ q → q < N → s.xn ra * q % N = 1 → q = r) ∧
    (N ≤ s.xn ra → Faults (.invn rd ra) s 2 ra) ∧ (s.xn ra = 0 → Faults (.invn rd ra) s 3 ra)

/-- R133: BINVP writes the inverse of every nonzero value and 0 for every zero, whatever the batch, the empty one included. -/
def Obligations.BatchInverseElementwise : Prop :=
  ∀ (s : State) (rd ra : Reg) (n : Imm), (Instr.binvp rd ra n).wf = true → FieldSpan s ra n →
    ∃ out : List Nat, out.length = n.val ∧ Writes (.binvp rd ra n) s rd (out.map word) ∧
      ∀ k v, out[k]? = some v → v < P ∧ (s.xn (ra.val + k) = 0 → v = 0) ∧
        (s.xn (ra.val + k) ≠ 0 → s.xn (ra.val + k) * v % P = 1)

/-- R134, R135: SQRTP writes x^((P+1)/4) modulo P. -/
def Obligations.SqrtChainIsPower : Prop :=
  ∀ (s : State) (rd ra : Reg), s.xn ra < P →
    Writes (.sqrtp rd ra) s rd [word (s.xn ra ^ ((P + 1) / 4) % P)]

/-- R134: SQRTP of a square is a root of it; of a non-square, a value whose square is the negated operand. -/
def Obligations.SqrtOfSquareAndNonSquare : Prop :=
  ∀ (s : State) (rd ra : Reg), s.xn ra < P → ∃ r, r < P ∧ Writes (.sqrtp rd ra) s rd [word r] ∧
    ((∃ y, y * y % P = s.xn ra) → r * r % P = s.xn ra) ∧
    ((¬∃ y, y * y % P = s.xn ra) → (r * r + s.xn ra) % P = 0)

/-! ### Jacobian points (42_jacobian_point.md) -/

/-- R151: PDBL writes the doubling formula, evaluated over the integers and reduced once, on any three field elements. -/
def Obligations.DoublingFormula : Prop :=
  ∀ (s : State) (rd ra : Reg), (Instr.pdbl rd ra).wf = true → FieldSpan s ra 3 →
    ∀ X Y Z D E X' : Int, X = s.xn ra → Y = s.xn (ra.val + 1) → Z = s.xn (ra.val + 2) →
      D = 2 * ((X + Y ^ 2) ^ 2 - X ^ 2 - Y ^ 4) → E = 3 * X ^ 2 → X' = E ^ 2 - 2 * D →
      Writes (.pdbl rd ra) s rd [wordMod X' P, wordMod (E * (D - X') - 8 * Y ^ 4) P, wordMod (2 * Y * Z) P]

/-- R152: PADD copies the other operand unchanged when one has X = 0 or Y = 0, the second operand tested first. -/
def Obligations.AdditionIdentityCopies : Prop :=
  ∀ (s : State) (rd ra rb : Reg), (Instr.padd rd ra rb).wf = true → FieldSpan s ra 3 → FieldSpan s rb 3 →
    (s.xn rb = 0 ∨ s.xn (rb.val + 1) = 0 → Writes (.padd rd ra rb) s rd [s.x ra, s.x (ra.val + 1), s.x (ra.val + 2)]) ∧
    (s.xn rb ≠ 0 → s.xn (rb.val + 1) ≠ 0 → (s.xn ra = 0 ∨ s.xn (ra.val + 1) = 0) →
      Writes (.padd rd ra rb) s rd [s.x rb, s.x (rb.val + 1), s.x (rb.val + 2)])

/-- R152: with no identity operand PADD writes the addition formula where H ≠ 0, the double of the first operand where
H = 0 and r = 0, and (0, 1, 0) where H = 0 and r ≠ 0. -/
def Obligations.AdditionFormula : Prop :=
  ∀ (s : State) (rd ra rb : Reg), (Instr.padd rd ra rb).wf = true → FieldSpan s ra 3 → FieldSpan s rb 3 →
    s.xn ra ≠ 0 → s.xn (ra.val + 1) ≠ 0 → s.xn rb ≠ 0 → s.xn (rb.val + 1) ≠ 0 →
    ∀ X1 Y1 Z1 X2 Y2 Z2 U1 S1 H r X3 : Int, X1 = s.xn ra → Y1 = s.xn (ra.val + 1) → Z1 = s.xn (ra.val + 2) →
      X2 = s.xn rb → Y2 = s.xn (rb.val + 1) → Z2 = s.xn (rb.val + 2) →
      U1 = X1 * Z2 ^ 2 → S1 = Y1 * Z2 ^ 3 → H = X2 * Z1 ^ 2 - U1 → r = Y2 * Z1 ^ 3 - S1 →
      X3 = r ^ 2 - H ^ 3 - 2 * (U1 * H ^ 2) →
      (H % P ≠ 0 → Writes (.padd rd ra rb) s rd
        [wordMod X3 P, wordMod (r * (U1 * H ^ 2 - X3) - S1 * H ^ 3) P, wordMod (Z1 * Z2 * H) P]) ∧
      (H % P = 0 → r % P ≠ 0 → Writes (.padd rd ra rb) s rd [word 0, word 1, word 0]) ∧
      (H % P = 0 → r % P = 0 → ∃ T, T = jdbl (s.triple ra) ∧
        Writes (.padd rd ra rb) s rd [word T.X, word T.Y, word T.Z])

/-- R153: PNEG negates Y and copies X and Z; Y = 0 stays 0; the lowest register of the triple that is out of range is
reported. -/
def Obligations.NegationFormula : Prop :=
  ∀ (s : State) (rd ra : Reg), (Instr.pneg rd ra).wf = true →
    (FieldSpan s ra 3 → Writes (.pneg rd ra) s rd
      [s.x ra, word (if s.xn (ra.val + 1) = 0 then 0 else P - s.xn (ra.val + 1)), s.x (ra.val + 2)]) ∧
    ∀ j, j < 3 → FieldSpan s ra j → P ≤ s.xn (ra.val + j) → Faults (.pneg rd ra) s 2 (ra.val + j)

/-- R154: PNORM writes X·Z⁻², Y·Z⁻³ for every triple with Z ≠ 0 and (0, 0) for every triple with Z = 0. -/
def Obligations.NormalisationElementwise : Prop :=
  ∀ (s : State) (rd ra : Reg) (n : Imm), (Instr.pnorm rd ra n).wf = true → FieldSpan s ra (3 * n.val) →
    ∃ out : List Affine, out.length = n.val ∧
      Writes (.pnorm rd ra n) s rd (out.flatMap (fun a => [a.x, a.y])) ∧
      ∀ k a, out[k]? = some a →
        (s.xn (ra.val + 3 * k + 2) = 0 → a.x = 0 ∧ a.y = 0) ∧
        (s.xn (ra.val + 3 * k + 2) ≠ 0 → ∃ z, z < P ∧ s.xn (ra.val + 3 * k + 2) * z % P = 1 ∧
          a.x = word (s.xn (ra.val + 3 * k) * z ^ 2 % P) ∧ a.y = word (s.xn (ra.val + 3 * k + 1) * z ^ 3 % P))

/-- R150, R152, R155: on triples that stand for points of the curve PADD, PDBL and PNEG compute the sum, the double and the
negative in the group of the curve. PADD does so where its test on X and Y sees every identity among its operands; an
identity that it does not see takes the other operand with it, and the result is an identity (R152 corner case (b)).
Identities with X = 0 stay such. -/
def Obligations.PointCommandsAreGroupLaw : Prop :=
  ∀ [Fact (Nat.Prime P)] (s : State) (rd ra rb : Reg), (Instr.padd rd ra rb).wf = true → FieldSpan s ra 3 →
    FieldSpan s rb 3 → ∀ A B : curve.Point, Stands (s.triple ra) A → Stands (s.triple rb) B →
    (∃ t, exec (.padd rd ra rb) s = .next t ∧ Completed s t ∧
      (Recognised (s.triple ra) → Recognised (s.triple rb) → Stands (t.triple rd) (A + B)) ∧
      (¬(Recognised (s.triple ra) ∧ Recognised (s.triple rb)) → Stands (t.triple rd) 0) ∧
      (IdentityX (s.triple ra) → IdentityX (s.triple rb) → IdentityX (t.triple rd))) ∧
    (∃ t, exec (.pdbl rd ra) s = .next t ∧ Completed s t ∧ Stands (t.triple rd) (A + A) ∧
      (IdentityX (s.triple ra) → IdentityX (t.triple rd))) ∧
    (∃ t, exec (.pneg rd ra) s = .next t ∧ Completed s t ∧ Stands (t.triple rd) (-A) ∧
      (IdentityX (s.triple ra) → IdentityX (t.triple rd)))

/-- R154: PNORM of one triple gives the affine form of the point it stands for, (0, 0) for the identity, and two triples get
the same pair exactly when they stand for the same point. -/
def Obligations.NormalFormIsCanonical : Prop :=
  ∀ [Fact (Nat.Prime P)] (s : State) (rd ra rb : Reg), (Instr.pnorm rd ra 1).wf = true →
    (Instr.pnorm rd rb 1).wf = true → FieldSpan s ra 3 → FieldSpan s rb 3 →
    ∀ A B : curve.Point, Stands (s.triple ra) A → Stands (s.triple rb) B →
    ∃ a b : Affine, Writes (.pnorm rd ra 1) s rd [a.x, a.y] ∧ Writes (.pnorm rd rb 1) s rd [b.x, b.y] ∧
      (A ≠ 0 → Stands (lift a) A) ∧ (A = 0 → a = ⟨0, 0⟩) ∧ (a = b ↔ A = B)

/-! ### Scalar multiplication and the cache (43_scalar_mult.md) -/

/-- R171, R172: for every k in [1, n) GLVSPLIT completes, so GLV_OVERFLOW is never raised, and writes the halves and signs of
the rounding formula; both halves are at most 2^128 and k ≡ s1·k1 + s2·k2·λ (mod n). -/
def Obligations.GlvSplitIsExact : Prop :=
  ∀ (s : State) (rd ra : Reg), (Instr.glvsplit rd ra).wf = true → s.xn ra ≠ 0 → s.xn ra < N →
    ∀ (c1 c2 r1 r2 k1 k2 : Nat) (e1 e2 : Bool),
      c1 = (B2 * s.xn ra + N / 2) / N → c2 = (NB1 * s.xn ra + N / 2) / N →
      (r1 : Int) = ((s.xn ra : Int) - c1 * A1 - c2 * A2) % (N : Int) →
      (r2 : Int) = ((c1 : Int) * NB1 - c2 * B2) % (N : Int) →
      e1 = decide (r1 > 2 ^ 128) → k1 = (if e1 then N - r1 else r1) →
      e2 = decide (r2 > 2 ^ 128) → k2 = (if e2 then N - r2 else r2) →
      Writes (.glvsplit rd ra) s rd [word k1, word k2, word (e1.toNat + 2 * e2.toNat)] ∧
      k1 ≤ 2 ^ 128 ∧ k2 ≤ 2 ^ 128 ∧
      ((s.xn ra : Int) - (signed e1 k1 + signed e2 k2 * (Lambda : Int))) % (N : Int) = 0

/-- R174: the digits of a scalar m ≤ 2^128 lie in (−2^(W−1), 2^(W−1)], nothing is left after the last window, and they
sum to m. -/
def Obligations.WnafDigitsRecode : Prop :=
  ∀ (w : WSize) (m : Nat), m ≤ 2 ^ 128 →
    (digits w (windowsOf w) m).2 = 0 ∧ digitSum w (digits w (windowsOf w) m).1 = (m : Int) ∧
    ∀ d ∈ (digits w (windowsOf w) m).1, -(halfOf w : Int) < d ∧ d ≤ (halfOf w : Int)

/-- R175, R176: SMUL on a bound slot with 1 ≤ k < n completes: its result is R175's, computed from the table the slot
holds or else from a new one; the new one is installed exactly where W ≠ 1, and no other slot state changes. -/
def Obligations.SmulCompletes : Prop :=
  ∀ (s : State) (rd ra : Reg) (slot : SlotIx), (Instr.smul rd ra slot).wf = true → slot.val < s.nslot →
    (s.slot slot).avalid = true → s.xn ra ≠ 0 → s.xn ra < N →
    ∃ t table r, exec (.smul rd ra slot) s = .next t ∧ Completed s t ∧
      table = (if (s.slot slot).win.w ≠ .w1 ∧ (s.slot slot).win.tvalid = true then (s.slot slot).win.table
        else storedTable (s.slot slot).anchor (s.slot slot).win.w) ∧
      r = multiply (s.xn ra) table (s.slot slot).win.w ∧ WritesOnly s t rd [r.x, r.y] ∧
      OtherSlotsSame s t slot ∧
      t.slot slot = (if (s.slot slot).win.w ≠ .w1 ∧ (s.slot slot).win.tvalid = false then
        { s.slot slot with win := { w := (s.slot slot).win.w, tvalid := true, table := table } }
        else s.slot slot)

/-- R176: where the slot's table is the stored table of its anchor and window size, a hit and a miss write the same
registers. -/
def Obligations.CacheHitEqualsMiss : Prop :=
  ∀ (s : State) (rd ra : Reg) (slot : SlotIx), slot.val < s.nslot → (s.slot slot).Ok →
    (s.slot slot).win.tvalid = true →
    ∃ t u, exec (.smul rd ra slot) s = .next t ∧
      exec (.smul rd ra slot) (s.setWindow slot { (s.slot slot).win with tvalid := false }) = .next u ∧
      t.regs = u.regs ∧ t.status = u.status ∧ t.cause = u.cause ∧ t.finfo = u.finfo

/-- R175, R182: on a slot that is as the invariant says, whose anchor is the point A, SMUL writes the affine form of k·A in the
group of the curve, for every window size and with or without a table; so the result is never (0, 0), it is the anchor
for k = 1 and the negated anchor for k = n − 1. R182: the equalities between SMUL, SMULU, PADD and PNORM on such a slot. -/
def Obligations.SmulIsScalarMultiple : Prop :=
  (∀ [Fact (Nat.Prime P)] (s : State) (rd ra : Reg) (slot : SlotIx), (Instr.smul rd ra slot).wf = true → PSlot s slot →
    s.xn ra ≠ 0 → s.xn ra < N → ∀ A : curve.Point, Stands (lift (s.slot slot).anchor) A →
    ∃ (t : State) (r : Affine), exec (.smul rd ra slot) s = .next t ∧ Completed s t ∧
      r = s.smulResult slot (s.xn ra) ∧ WritesOnly s t rd [r.x, r.y] ∧ r.x.toNat < P ∧ r.y.toNat < P ∧
      Stands (lift r) (s.xn ra • A) ∧
      (s.xn ra = 1 → r = (s.slot slot).anchor) ∧
      (s.xn ra = N - 1 → r = ⟨(s.slot slot).anchor.x, word (P - (s.slot slot).anchor.y.toNat)⟩)) ∧
  ∀ (s : State) (slot : Nat), PSlot s slot → MultiplicationLaws s slot

/-- R180: SMULU with 1 ≤ k < n completes with the triple of the left-to-right loop; it is Q, jdbl(Q) and jadd(jdbl(Q), Q)
for k = 1, 2, 3 where Q has no zero X or Y. -/
def Obligations.SmuluCompletes : Prop :=
  ∀ (s : State) (rd ra rb : Reg), (Instr.smulu rd ra rb).wf = true → FieldSpan s rb 3 → s.xn ra ≠ 0 → s.xn ra < N →
    ∃ T : Jac, T = multiplyUnsafe (s.xn ra) (s.triple rb) ∧
      Writes (.smulu rd ra rb) s rd [word T.X, word T.Y, word T.Z] ∧
      ((s.triple rb).X ≠ 0 → (s.triple rb).Y ≠ 0 →
        (s.xn ra = 1 → T = s.triple rb) ∧ (s.xn ra = 2 → T = jdbl (s.triple rb)) ∧
        (s.xn ra = 3 → T = jadd (jdbl (s.triple rb)) (s.triple rb)))

/-- R180, R182: on a triple that stands for a point Q of the curve, any triple with Z = 0 included, SMULU's result stands for
k·Q. -/
def Obligations.SmuluIsScalarMultiple : Prop :=
  ∀ [Fact (Nat.Prime P)] (s : State) (rd ra rb : Reg), (Instr.smulu rd ra rb).wf = true → FieldSpan s rb 3 →
    s.xn ra ≠ 0 → s.xn ra < N → ∀ Q : curve.Point, Stands (s.triple rb) Q →
    ∃ t, exec (.smulu rd ra rb) s = .next t ∧ Completed s t ∧ Stands (t.triple rd) (s.xn ra • Q)

/-- R177: SETANCH on a slot from 1 to NSLOT − 1 with a pair on the curve binds it: W back to 1, no valid table, nothing
else changed. -/
def Obligations.SetanchBindsSlot : Prop :=
  ∀ (s : State) (ra : Reg) (slot : SlotIx), (Instr.setanch ra slot).wf = true → slot.val < s.nslot →
    s.xn ra < P → s.xn (ra.val + 1) < P → s.xn (ra.val + 1) ^ 2 % P = (s.xn ra ^ 3 + 7) % P →
    ∃ t, exec (.setanch ra slot) s = .next t ∧ Completed s t ∧ t.regs = s.regs ∧ OtherSlotsSame s t slot ∧
      (t.slot slot).anchor = { x := s.x ra, y := s.x (ra.val + 1) } ∧ (t.slot slot).avalid = true ∧
      (t.slot slot).win.w = .w1 ∧ (t.slot slot).win.tvalid = false

/-- R178: SETW sets the window size of any slot and invalidates its table, also where the size stays. -/
def Obligations.SetwResizesSlot : Prop :=
  ∀ (s : State) (slot : SlotIx) (w : WSize), slot.val < s.nslot →
    ∃ t, exec (.setw slot w) s = .next t ∧ Completed s t ∧ t.regs = s.regs ∧ OtherSlotsSame s t slot ∧
      (t.slot slot).anchor = (s.slot slot).anchor ∧ (t.slot slot).avalid = (s.slot slot).avalid ∧
      (t.slot slot).win.w = w ∧ (t.slot slot).win.tvalid = false

/-- R179: TBLRD writes entry x[ra] of a valid table; the whole 256-bit index is compared with the entry count. R173: on a slot
that is as the invariant says, with anchor A, entry i·2^(W−1) + j is there and is the affine form of (j + 1)·2^(W·i)·A in
the group of the curve. -/
def Obligations.TblrdReadsEntry : Prop :=
  ∀ (s : State) (rd ra : Reg) (slot : SlotIx), (Instr.tblrd rd ra slot).wf = true → slot.val < s.nslot →
    (s.slot slot).win.tvalid = true →
    s.xn ra < (128 / (s.slot slot).win.w.val + 1) * 2 ^ ((s.slot slot).win.w.val - 1) →
    ∃ a : Affine, Writes (.tblrd rd ra slot) s rd [a.x, a.y] ∧
      (∀ b, (s.slot slot).win.table[s.xn ra]? = some b → a = b) ∧
      ((s.slot slot).Ok → (s.slot slot).win.table[s.xn ra]? = some a ∧ a.x.toNat < P ∧ a.y.toNat < P ∧
        ∀ [Fact (Nat.Prime P)] (A : curve.Point), Stands (lift (s.slot slot).anchor) A → ∀ i j : Nat,
          s.xn ra = i * 2 ^ ((s.slot slot).win.w.val - 1) + j → j < 2 ^ ((s.slot slot).win.w.val - 1) →
          Stands (lift a) (((j + 1) * 2 ^ ((s.slot slot).win.w.val * i)) • A))

/-! ### Faults (60_exceptions.md R220 to R222) -/

/-- R15, R101: a field command with an operand ≥ P raises OPERAND_RANGE with the first offender's index. -/
def Obligations.FieldOperandRange : Prop :=
  ∀ (s : State) (rd ra rb : Reg) (k : Imm),
    (P ≤ s.xn ra → ∀ i ∈ [Instr.addp rd ra rb, .subp rd ra rb, .mulp rd ra rb, .sqrp rd ra, .pow2p rd ra k,
      .invp rd ra, .sqrtp rd ra], Faults i s 2 ra) ∧
    (s.xn ra < P → P ≤ s.xn rb → ∀ i ∈ [Instr.addp rd ra rb, .subp rd ra rb, .mulp rd ra rb], Faults i s 2 rb)

/-- R15, R101: a scalar command with an operand ≥ n raises OPERAND_RANGE with the first offender's index, a field element
between n and P included. -/
def Obligations.ScalarOperandRange : Prop :=
  ∀ (s : State) (rd ra rb : Reg),
    (N ≤ s.xn ra → ∀ i ∈ [Instr.addn rd ra rb, .subn rd ra rb, .muln rd ra rb, .invn rd ra], Faults i s 2 ra) ∧
    (s.xn ra < N → N ≤ s.xn rb → ∀ i ∈ [Instr.addn rd ra rb, .subn rd ra rb, .muln rd ra rb], Faults i s 2 rb)

/-- R222(3): over a span the lowest register that holds a value ≥ P is reported; PADD looks at the span of ra first. -/
def Obligations.SpanOperandRange : Prop :=
  ∀ (s : State) (rd ra rb : Reg) (n : Imm) (j : Nat),
    (P ≤ s.xn (ra.val + j) → FieldSpan s ra j →
      (j < 3 → ∀ i ∈ [Instr.pdbl rd ra, .pneg rd ra, .padd rd ra rb], i.wf = true → Faults i s 2 (ra.val + j)) ∧
      (j < n.val → (Instr.binvp rd ra n).wf = true → Faults (.binvp rd ra n) s 2 (ra.val + j)) ∧
      (j < 3 * n.val → (Instr.pnorm rd ra n).wf = true → Faults (.pnorm rd ra n) s 2 (ra.val + j))) ∧
    (P ≤ s.xn (rb.val + j) → FieldSpan s rb j → j < 3 →
      ((Instr.padd rd ra rb).wf = true → FieldSpan s ra 3 → Faults (.padd rd ra rb) s 2 (rb.val + j)) ∧
      ((Instr.smulu rd ra rb).wf = true → Faults (.smulu rd ra rb) s 2 (rb.val + j)))

/-- R172, R175, R180: a scalar that is 0 or ≥ n raises SCALAR_RANGE, for SMUL after the slot check and for SMULU after the
point's range checks. -/
def Obligations.ScalarOutOfRange : Prop :=
  ∀ (s : State) (rd ra rb : Reg) (slot : SlotIx), (s.xn ra = 0 ∨ N ≤ s.xn ra) →
    ((Instr.glvsplit rd ra).wf = true → Faults (.glvsplit rd ra) s 4 ra) ∧
    ((Instr.smul rd ra slot).wf = true → slot.val < s.nslot → (s.slot slot).avalid = true →
      Faults (.smul rd ra slot) s 4 ra) ∧
    ((Instr.smulu rd ra rb).wf = true → FieldSpan s rb 3 → Faults (.smulu rd ra rb) s 4 ra)

/-- R175, R177 to R179: SLOT_INVALID with the slot's index, before any operand is looked at. -/
def Obligations.SlotNotUsable : Prop :=
  ∀ (s : State) (rd ra : Reg) (slot : SlotIx) (w : WSize),
    (s.nslot ≤ slot.val →
      ((Instr.smul rd ra slot).wf = true → Faults (.smul rd ra slot) s 7 slot) ∧
      ((Instr.setanch ra slot).wf = true → Faults (.setanch ra slot) s 7 slot) ∧
      Faults (.setw slot w) s 7 slot ∧
      ((Instr.tblrd rd ra slot).wf = true → Faults (.tblrd rd ra slot) s 7 slot)) ∧
    (slot.val < s.nslot →
      ((Instr.smul rd ra slot).wf = true → (s.slot slot).avalid = false → Faults (.smul rd ra slot) s 7 slot) ∧
      ((Instr.tblrd rd ra slot).wf = true → (s.slot slot).win.tvalid = false → Faults (.tblrd rd ra slot) s 7 slot))

/-- R177, R179: SETANCH of a pair out of range or off the curve, and TBLRD past the last entry. -/
def Obligations.CacheOperandFaults : Prop :=
  ∀ (s : State) (rd ra : Reg) (slot : SlotIx), slot.val < s.nslot →
    ((Instr.setanch ra slot).wf = true →
      (P ≤ s.xn ra → Faults (.setanch ra slot) s 2 ra) ∧
      (s.xn ra < P → P ≤ s.xn (ra.val + 1) → Faults (.setanch ra slot) s 2 (ra.val + 1)) ∧
      (s.xn ra < P → s.xn (ra.val + 1) < P → s.xn (ra.val + 1) ^ 2 % P ≠ (s.xn ra ^ 3 + 7) % P →
        Faults (.setanch ra slot) s 5 ra)) ∧
    ((Instr.tblrd rd ra slot).wf = true → (s.slot slot).win.tvalid = true →
      (128 / (s.slot slot).win.w.val + 1) * 2 ^ ((s.slot slot).win.w.val - 1) ≤ s.xn ra →
      Faults (.tblrd rd ra slot) s 2 ra)

/-! ### The host (20_memory.md, 70_reset_and_hazards.md R258) -/

/-- R51, R54: while not busy, a register word the host writes is the word it then reads; the other words of the register,
what is known of them, every other register, and the rest of CORE stay as they were. -/
def Obligations.RegisterWordWrite : Prop :=
  ∀ (s : State) (i j : Nat) (v : HostWord), i < 32 → j < 8 → s.status.busy = false → s.rst = false →
    ∃ t u, hostDoes s (.write (0x20 * i + 4 * j) 4 v) = .next t ∧
      hostDoes t (.read (0x20 * i + 4 * j) 4) = .next u ∧ u.reply = .word v ∧
      (∀ k, k ≠ i → t.regs[k]? = s.regs[k]?) ∧
      (∀ r q, s.regs[i]? = some r → t.regs[i]? = some q → ∀ k, k < 8 → k ≠ j →
        wordOf q.val k = wordOf r.val k ∧ q.known.getLsbD k = r.known.getLsbD k) ∧
      SlotsSame s t ∧ t.status = s.status ∧ t.ctrl = s.ctrl ∧ t.cause = s.cause ∧ t.fcmd = s.fcmd ∧ t.finfo = s.finfo

/-- R52: the words and the bytes of a written register as the window shows them, most significant first. -/
def Obligations.RegisterBytesBigEndian : Prop :=
  ∀ (s : State) (i : Nat) (r : GReg), s.regs[i]? = some r → r.known = 0xFF#8 → s.status.busy = false → s.rst = false →
    (∀ j, j < 8 → ∃ t, hostDoes s (.read (0x20 * i + 4 * j) 4) = .next t ∧
      t.reply = .word (r.val.extractLsb' (224 - 32 * j) 32)) ∧
    ∀ b, b < 32 → s.windowByte (0x20 * i + b) = r.val.extractLsb' (248 - 8 * b) 8

/-- R28, R224: a write to CMD is accepted when idle and dropped with OVR when busy or faulted. -/
def Obligations.CommandIssue : Prop :=
  ∀ (s : State) (w : HostWord), s.rst = false →
    ∃ t, hostDoes s (.write 0x400 4 w) = .next t ∧ SameButStatus s t ∧
      (s.status.busy = false → s.status.fault = false →
        t.cmdLatch = w ∧ t.status = { s.status with busy := true }) ∧
      ((s.status.busy = true ∨ s.status.fault = true) →
        t.cmdLatch = s.cmdLatch ∧ t.status = { s.status with ovr := true })

/-- R26, R223: a host write to STATUS clears DONE, FAULT, OVR where its bits 1, 2, 3 are 1 and changes nothing else; CAUSE,
FCMD and FINFO stay, and a faulted core whose FAULT is cleared accepts the next command. -/
def Obligations.StatusWriteOneToClear : Prop :=
  ∀ (s : State) (v : HostWord), s.rst = false →
    ∃ t, hostDoes s (.write 0x404 4 v) = .next t ∧ SameButStatus s t ∧ t.cmdLatch = s.cmdLatch ∧
      t.status.busy = s.status.busy ∧
      (v.getLsbD 1 = true → t.status.done = false) ∧ (v.getLsbD 1 = false → t.status.done = s.status.done) ∧
      (v.getLsbD 2 = true → t.status.fault = false) ∧ (v.getLsbD 2 = false → t.status.fault = s.status.fault) ∧
      (v.getLsbD 3 = true → t.status.ovr = false) ∧ (v.getLsbD 3 = false → t.status.ovr = s.status.ovr) ∧
      (s.status.busy = false → v.getLsbD 2 = true → ∀ w, ∃ u, hostDoes t (.write 0x400 4 w) = .next u ∧
        u.cmdLatch = w ∧ u.status.busy = true)

/-- R26: where a host write to STATUS falls in the same instant as an ending, the write clears first and the ending then sets
its bit, so DONE is 1 after a completion and FAULT after a fault, whatever was written. -/
def Obligations.SetWinsOverClear : Prop :=
  ∀ (s : State) (v : HostWord) (ts : List Turn), s.turns = .statusAtEnd v :: ts → s.status.busy = true → s.rst = false →
    ∃ t s0, s0 = { s with turns := ts, status := s.status.clear v, reply := .nothing } ∧ step s = .next t ∧
      ((t.status.done = true ∧ Completed s0 t) ∨
        (t.status.fault = true ∧ ∃ code info, 1 ≤ code ∧ code ≤ 7 ∧ FaultEffect s0 t code info))

/-- R57: while BUSY = 1 an access to a general register or a slot location is refused; the control registers answer. -/
def Obligations.BusyCoreAccess : Prop :=
  ∀ (s : State) (off : Nat) (v : HostWord), s.status.busy = true → off % 4 = 0 →
    ((off < 0x400 ∨ ∃ i o, i < s.nslot ∧ s.nslot ≤ 16 ∧ o ≤ 0x40 ∧ off = 0x800 + 0x80 * i + o) →
      hostDoes s (.read off 4) = .refused .hostTouchesBusyCore ∧
      hostDoes s (.write off 4 v) = .refused .hostTouchesBusyCore) ∧
    (0x400 ≤ off → off < 0x800 →
      (∃ t, hostDoes s (.read off 4) = .next t ∧ SameButStatus s t ∧ t.status = s.status) ∧
      ∃ t, hostDoes s (.write off 4 v) = .next t)

/-- R54: an access of another size, at a misaligned offset or outside the 4096 bytes is refused. -/
def Obligations.HostAccessForm : Prop :=
  ∀ (s : State) (off size : Nat) (v : HostWord), (size ≠ 4 ∨ off % 4 ≠ 0 ∨ 0x1000 ≤ off) →
    ∃ r, hostDoes s (.read off size) = .refused r ∧ hostDoes s (.write off size v) = .refused r ∧
      r ∈ [Refusal.hostAccessSize, .hostAccessUnaligned, .hostAccessOutsideWindow]

/-- R51, R258: at any time, also while busy, reserved offsets read 0, a read of one changes no state of CORE, and a write to
CAUSE, FCMD, FINFO, ID, CFG or a reserved offset changes nothing of CORE; while not busy the same holds of a write to a
slot location. -/
def Obligations.ReadOnlyAndReserved : Prop :=
  ∀ (s : State) (off : Nat) (v : HostWord), s.rst = false → off % 4 = 0 → off < 0x1000 → 0x40C ≤ off →
    ((off < 0x800 ∨ Reserved s off ∨ s.status.busy = false) →
      ∃ t, hostDoes s (.write off 4 v) = .next t ∧ SameButStatus s t ∧ t.status = s.status ∧
        t.cmdLatch = s.cmdLatch) ∧
    (Reserved s off → ∃ t, hostDoes s (.read off 4) = .next t ∧ t.reply = .word 0 ∧ SameButStatus s t ∧
      t.status = s.status ∧ t.cmdLatch = s.cmdLatch)

/-- R26, R27, R30, R31: what the control registers read as, at any time, and that a read of one changes no state of CORE. -/
def Obligations.ControlRegisterReads : Prop :=
  ∀ (s : State), s.rst = false →
    ∀ p ∈ [((0x400 : Nat), (0 : Nat)),
        (0x404, s.status.busy.toNat + 2 * s.status.done.toNat + 4 * s.status.fault.toNat + 8 * s.status.ovr.toNat),
        (0x408, s.ctrl.ieDone.toNat + 2 * s.ctrl.ieFault.toNat), (0x40C, s.cause.toNat), (0x410, s.fcmd.toNat),
        (0x414, s.finfo.toNat), (0x418, 0x4B323536), (0x41C, s.nslot % 256 + 8 * 2 ^ 8 + 2 ^ 12)],
      ∃ t, hostDoes s (.read p.1 4) = .next t ∧ t.reply = .word (BitVec.ofNat 32 p.2) ∧ SameButStatus s t ∧
        t.status = s.status ∧ t.cmdLatch = s.cmdLatch

/-- R33: in every state slot 0 is bound to the base point. R35: SLOTST of a slot, and the anchor words of a bound one, as the
host reads them while not busy. -/
def Obligations.SlotReads : Prop :=
  (∀ s : State, (s.slot 0).anchor = { x := word Gx, y := word Gy } ∧ (s.slot 0).avalid = true) ∧
  ∀ (s : State) (i : Nat), i < s.nslot → s.nslot ≤ 16 → s.status.busy = false → s.rst = false →
    (∃ t, hostDoes s (.read (0x840 + 0x80 * i) 4) = .next t ∧ t.reply = .word (BitVec.ofNat 32
      ((s.slot i).avalid.toNat + 2 * (s.slot i).win.tvalid.toNat + 16 * (s.slot i).win.w.val))) ∧
    ((s.slot i).avalid = true → ∀ j, j < 8 →
      (∃ t, hostDoes s (.read (0x800 + 0x80 * i + 4 * j) 4) = .next t ∧
        t.reply = .word ((s.slot i).anchor.x.extractLsb' (224 - 32 * j) 32)) ∧
      (∃ t, hostDoes s (.read (0x820 + 0x80 * i + 4 * j) 4) = .next t ∧
        t.reply = .word ((s.slot i).anchor.y.extractLsb' (224 - 32 * j) 32)))

/-- R225: the level the host samples; 0 after reset. -/
def Obligations.InterruptLevel : Prop :=
  State.reset.irq = false ∧ ∀ s : State, s.rst = false → ∃ t b, hostDoes s .sampleIrq = .next t ∧ t.reply = .level b ∧
    (b = true ↔ (s.status.done = true ∧ s.ctrl.ieDone = true) ∨ (s.status.fault = true ∧ s.ctrl.ieFault = true)) ∧
    SameButStatus s t ∧ t.status = s.status

/-- R27: a host write to CTRL, also while busy: bits 1:0 are taken and read back, bits 31:2 read 0, nothing else changes;
CTRL is 0 after reset. -/
def Obligations.ControlWrite : Prop :=
  State.reset.ctrl.word = 0 ∧ ∀ (s : State) (v : HostWord), s.rst = false →
    ∃ t u, hostDoes s (.write 0x408 4 v) = .next t ∧ t.ctrl = { ieDone := v.getLsbD 0, ieFault := v.getLsbD 1 } ∧
      t.regs = s.regs ∧ SlotsSame s t ∧ t.status = s.status ∧ t.cause = s.cause ∧ t.fcmd = s.fcmd ∧
      t.finfo = s.finfo ∧ t.cmdLatch = s.cmdLatch ∧
      hostDoes t (.read 0x408 4) = .next u ∧ u.reply = .word (v &&& 3#32)

/-- R251: the values the spec states for reset, at NSLOT = 2; no register has been written. -/
def Obligations.ResetValues : Prop :=
  State.reset.windowWord 0x404 = 0 ∧ State.reset.windowWord 0x408 = 0 ∧ State.reset.windowWord 0x40C = 0 ∧
  State.reset.windowWord 0x410 = 0 ∧ State.reset.windowWord 0x414 = 0 ∧ State.reset.windowWord 0x418 = 0x4B323536#32 ∧
  State.reset.windowWord 0x41C = 0x1802#32 ∧ State.reset.windowWord 0x840 = 0x81#32 ∧
  State.reset.windowWord 0x8C0 = 0x10#32 ∧ State.reset.irq = false ∧
  (State.reset.slot 0).win.w = .w8 ∧ (State.reset.slot 0).win.tvalid = false ∧
  (State.reset.slot 1).avalid = false ∧ (State.reset.slot 1).win.w = .w1 ∧ (State.reset.slot 1).win.tvalid = false ∧
  ∀ i : Nat, ¬Written State.reset i

/-- R250: asserting `rst` in any state, busy or not, abandons the command and holds `irq` at 0; released, every piece of
state that R251 gives a value has that value. THE MODEL'S CHOICE, not the spec's, is what the equality says of the rest:
registers hold 0, none written (log entry 2), unbound anchors (0, 0) (entry 6), tables with no entry (entry 7) and
CMDLATCH 0 (entry 8), and what the state is while `rst` is asserted (entry 10). -/
def Obligations.RstRestoresReset : Prop :=
  ∀ s : State, ∃ t u, hostDoes s .assertRst = .next t ∧ t.rst = true ∧ t.irq = false ∧ t.status.busy = false ∧
    hostDoes t .releaseRst = .next u ∧ u.rst = false ∧ u.nslot = s.nslot ∧
    u = { State.resetWith s.free.length with turns := u.turns, draw := u.draw }
end

