-- ==== Sys2Proof/Laws/Prime.lean ====
section
/-! SUPPORT. The moduli P and n are prime (40_field_scalar_arith.md R100), by Lucas certificates: a generator of the
multiplicative group and the prime factors of p − 1, each certified in turn. -/

namespace Sys2Proof.Laws.Prime

/-- `a ^ e % m` by binary powering over the low `bits` bits of `e`. -/
def powMod (a m : Nat) : (bits e : Nat) → Nat
  | 0, _ => 1 % m
  | bits + 1, e =>
    let r := powMod (a * a % m) m bits (e / 2)
    if e % 2 = 1 then r * a % m else r

theorem powMod_eq (m bits : Nat) : ∀ a e : Nat, e < 2 ^ bits → powMod a m bits e = a ^ e % m := by
  induction bits with
  | zero =>
    intro a e he
    have : e = 0 := by simpa using he
    simp [powMod, this]
  | succ bits ih =>
    intro a e he
    have he2 : e / 2 < 2 ^ bits := by rw [pow_succ] at he; omega
    have hr : powMod (a * a % m) m bits (e / 2) = (a * a) ^ (e / 2) % m := by
      rw [ih _ _ he2, Nat.pow_mod]
      simp [Nat.pow_mod]
    simp only [powMod, hr]
    split
    · next h =>
      have : e = 2 * (e / 2) + 1 := by omega
      conv_rhs => rw [this, pow_succ, pow_mul, pow_two]
      simp [Nat.mul_mod]
    · next h =>
      have : e = 2 * (e / 2) := by omega
      conv_rhs => rw [this, pow_mul, pow_two]

/-- A Lucas certificate: `a` has order p − 1 because no (p − 1)/q-th power of it is 1, q over the prime factors. -/
theorem prime_of_certificate (p a : Nat) (fs : List Nat) (hprime : ∀ q ∈ fs, q.Prime) (hp : 1 < p ∧ p < 2 ^ 256)
    (hprod : p - 1 = fs.prod) (h1 : powMod a p 256 (p - 1) = 1)
    (h2 : fs.all (fun q => decide (powMod a p 256 ((p - 1) / q) ≠ 1)) = true) : p.Prime := by
  have hone : 1 % p = 1 := Nat.mod_eq_of_lt hp.1
  have cast : ∀ e : Nat, ((a : ZMod p) ^ e = 1 ↔ a ^ e % p = 1) := by
    intro e
    have := ZMod.natCast_eq_natCast_iff' (a ^ e) 1 p
    rw [hone] at this
    simpa using this
  have bound : p - 1 < 2 ^ 256 := by omega
  refine lucas_primality p (a : ZMod p) ?_ ?_
  · rw [cast, ← powMod_eq p 256 a (p - 1) bound]
    exact h1
  · intro q hq hdvd
    rw [hprod] at hdvd
    obtain ⟨r, hr, hqr⟩ := (Prime.dvd_prod_iff hq.prime).mp hdvd
    have hq_eq : q = r := (Nat.prime_dvd_prime_iff_eq hq (hprime r hr)).mp hqr
    subst hq_eq
    rw [ne_eq, cast, ← powMod_eq p 256 a _ (lt_of_le_of_lt (Nat.div_le_self _ _) bound)]
    exact of_decide_eq_true (List.all_eq_true.mp h2 q hr)

theorem prime_13331831 : Nat.Prime 13331831 :=
  prime_of_certificate 13331831 13
    [2, 5, 971, 1373]
    (by intro q hq; simp only [List.mem_cons, List.not_mem_nil, or_false] at hq
        rcases hq with rfl | rfl | rfl | rfl <;> first | norm_num)
    (by decide +kernel) (by decide +kernel) (by decide +kernel) (by decide +kernel)

theorem prime_173378833005251801 : Nat.Prime 173378833005251801 :=
  prime_of_certificate 173378833005251801 6
    [2, 2, 2, 5, 5, 2621, 24809, 13331831]
    (by intro q hq; simp only [List.mem_cons, List.not_mem_nil, or_false] at hq
        rcases hq with rfl | rfl | rfl | rfl | rfl | rfl | rfl | rfl <;> first | exact prime_13331831 | norm_num)
    (by decide +kernel) (by decide +kernel) (by decide +kernel) (by decide +kernel)

theorem prime_22149492674086928081353 : Nat.Prime 22149492674086928081353 :=
  prime_of_certificate 22149492674086928081353 5
    [2, 2, 2, 3, 5323, 173378833005251801]
    (by intro q hq; simp only [List.mem_cons, List.not_mem_nil, or_false] at hq
        rcases hq with rfl | rfl | rfl | rfl | rfl | rfl <;> first | exact prime_173378833005251801 | norm_num)
    (by decide +kernel) (by decide +kernel) (by decide +kernel) (by decide +kernel)

theorem prime_132896956044521568488119 : Nat.Prime 132896956044521568488119 :=
  prime_of_certificate 132896956044521568488119 6
    [2, 3, 22149492674086928081353]
    (by intro q hq; simp only [List.mem_cons, List.not_mem_nil, or_false] at hq
        rcases hq with rfl | rfl | rfl <;> first | exact prime_22149492674086928081353 | norm_num)
    (by decide +kernel) (by decide +kernel) (by decide +kernel) (by decide +kernel)

theorem prime_1206781 : Nat.Prime 1206781 :=
  prime_of_certificate 1206781 10
    [2, 2, 3, 5, 20113]
    (by intro q hq; simp only [List.mem_cons, List.not_mem_nil, or_false] at hq
        rcases hq with rfl | rfl | rfl | rfl | rfl <;> first | norm_num)
    (by decide +kernel) (by decide +kernel) (by decide +kernel) (by decide +kernel)

theorem prime_7240687 : Nat.Prime 7240687 :=
  prime_of_certificate 7240687 3
    [2, 3, 1206781]
    (by intro q hq; simp only [List.mem_cons, List.not_mem_nil, or_false] at hq
        rcases hq with rfl | rfl | rfl <;> first | exact prime_1206781 | norm_num)
    (by decide +kernel) (by decide +kernel) (by decide +kernel) (by decide +kernel)

theorem prime_107590001 : Nat.Prime 107590001 :=
  prime_of_certificate 107590001 3
    [2, 2, 2, 2, 5, 5, 5, 5, 7, 29, 53]
    (by intro q hq; simp only [List.mem_cons, List.not_mem_nil, or_false] at hq
        rcases hq with rfl | rfl | rfl | rfl | rfl | rfl | rfl | rfl | rfl | rfl | rfl <;> first | norm_num)
    (by decide +kernel) (by decide +kernel) (by decide +kernel) (by decide +kernel)

theorem prime_255515944373312847190720520512484175977 : Nat.Prime 255515944373312847190720520512484175977 :=
  prime_of_certificate 255515944373312847190720520512484175977 3
    [2, 2, 2, 7, 7, 11, 1627, 2657, 4423, 41201, 96557, 7240687, 107590001]
    (by intro q hq; simp only [List.mem_cons, List.not_mem_nil, or_false] at hq
        rcases hq with rfl | rfl | rfl | rfl | rfl | rfl | rfl | rfl | rfl | rfl | rfl | rfl | rfl <;> first | exact prime_7240687 | exact prime_107590001 | norm_num)
    (by decide +kernel) (by decide +kernel) (by decide +kernel) (by decide +kernel)

theorem prime_205115282021455665897114700593932402728804164701536103180137503955397371 : Nat.Prime 205115282021455665897114700593932402728804164701536103180137503955397371 :=
  prime_of_certificate 205115282021455665897114700593932402728804164701536103180137503955397371 10
    [2, 3, 5, 29, 29, 31, 7723, 132896956044521568488119, 255515944373312847190720520512484175977]
    (by intro q hq; simp only [List.mem_cons, List.not_mem_nil, or_false] at hq
        rcases hq with rfl | rfl | rfl | rfl | rfl | rfl | rfl | rfl | rfl <;> first | exact prime_132896956044521568488119 | exact prime_255515944373312847190720520512484175977 | norm_num)
    (by decide +kernel) (by decide +kernel) (by decide +kernel) (by decide +kernel)

theorem P_prime : Sys2Proof.Machine.P.Prime :=
  prime_of_certificate Sys2Proof.Machine.P 3
    [2, 3, 7, 13441, 205115282021455665897114700593932402728804164701536103180137503955397371]
    (by intro q hq; simp only [List.mem_cons, List.not_mem_nil, or_false] at hq
        rcases hq with rfl | rfl | rfl | rfl | rfl <;> first | exact prime_205115282021455665897114700593932402728804164701536103180137503955397371 | norm_num)
    (by decide +kernel) (by decide +kernel) (by decide +kernel) (by decide +kernel)

theorem prime_4681609 : Nat.Prime 4681609 :=
  prime_of_certificate 4681609 23
    [2, 2, 2, 3, 97, 2011]
    (by intro q hq; simp only [List.mem_cons, List.not_mem_nil, or_false] at hq
        rcases hq with rfl | rfl | rfl | rfl | rfl | rfl <;> first | norm_num)
    (by decide +kernel) (by decide +kernel) (by decide +kernel) (by decide +kernel)

theorem prime_107361793816595537 : Nat.Prime 107361793816595537 :=
  prime_of_certificate 107361793816595537 3
    [2, 2, 2, 2, 16699, 85831, 4681609]
    (by intro q hq; simp only [List.mem_cons, List.not_mem_nil, or_false] at hq
        rcases hq with rfl | rfl | rfl | rfl | rfl | rfl | rfl <;> first | exact prime_4681609 | norm_num)
    (by decide +kernel) (by decide +kernel) (by decide +kernel) (by decide +kernel)

theorem prime_120233 : Nat.Prime 120233 :=
  prime_of_certificate 120233 3
    [2, 2, 2, 7, 19, 113]
    (by intro q hq; simp only [List.mem_cons, List.not_mem_nil, or_false] at hq
        rcases hq with rfl | rfl | rfl | rfl | rfl | rfl <;> first | norm_num)
    (by decide +kernel) (by decide +kernel) (by decide +kernel) (by decide +kernel)

theorem prime_44706919 : Nat.Prime 44706919 :=
  prime_of_certificate 44706919 6
    [2, 3, 797, 9349]
    (by intro q hq; simp only [List.mem_cons, List.not_mem_nil, or_false] at hq
        rcases hq with rfl | rfl | rfl | rfl <;> first | norm_num)
    (by decide +kernel) (by decide +kernel) (by decide +kernel) (by decide +kernel)

theorem prime_174723607534414371449 : Nat.Prime 174723607534414371449 :=
  prime_of_certificate 174723607534414371449 3
    [2, 2, 2, 17, 59, 4051, 120233, 44706919]
    (by intro q hq; simp only [List.mem_cons, List.not_mem_nil, or_false] at hq
        rcases hq with rfl | rfl | rfl | rfl | rfl | rfl | rfl | rfl <;> first | exact prime_120233 | exact prime_44706919 | norm_num)
    (by decide +kernel) (by decide +kernel) (by decide +kernel) (by decide +kernel)

theorem prime_305873 : Nat.Prime 305873 :=
  prime_of_certificate 305873 3
    [2, 2, 2, 2, 7, 2731]
    (by intro q hq; simp only [List.mem_cons, List.not_mem_nil, or_false] at hq
        rcases hq with rfl | rfl | rfl | rfl | rfl | rfl <;> first | norm_num)
    (by decide +kernel) (by decide +kernel) (by decide +kernel) (by decide +kernel)

theorem prime_545358713 : Nat.Prime 545358713 :=
  prime_of_certificate 545358713 5
    [2, 2, 2, 41, 59, 28181]
    (by intro q hq; simp only [List.mem_cons, List.not_mem_nil, or_false] at hq
        rcases hq with rfl | rfl | rfl | rfl | rfl | rfl <;> first | norm_num)
    (by decide +kernel) (by decide +kernel) (by decide +kernel) (by decide +kernel)

theorem prime_1627771 : Nat.Prime 1627771 :=
  prime_of_certificate 1627771 3
    [2, 3, 5, 29, 1871]
    (by intro q hq; simp only [List.mem_cons, List.not_mem_nil, or_false] at hq
        rcases hq with rfl | rfl | rfl | rfl | rfl <;> first | norm_num)
    (by decide +kernel) (by decide +kernel) (by decide +kernel) (by decide +kernel)

theorem prime_297159362677 : Nat.Prime 297159362677 :=
  prime_of_certificate 297159362677 2
    [2, 2, 3, 3, 11, 461, 1627771]
    (by intro q hq; simp only [List.mem_cons, List.not_mem_nil, or_false] at hq
        rcases hq with rfl | rfl | rfl | rfl | rfl | rfl | rfl <;> first | exact prime_1627771 | norm_num)
    (by decide +kernel) (by decide +kernel) (by decide +kernel) (by decide +kernel)

theorem prime_29047611873442575647497758179 : Nat.Prime 29047611873442575647497758179 :=
  prime_of_certificate 29047611873442575647497758179 2
    [2, 293, 305873, 545358713, 297159362677]
    (by intro q hq; simp only [List.mem_cons, List.not_mem_nil, or_false] at hq
        rcases hq with rfl | rfl | rfl | rfl | rfl <;> first | exact prime_305873 | exact prime_545358713 | exact prime_297159362677 | norm_num)
    (by decide +kernel) (by decide +kernel) (by decide +kernel) (by decide +kernel)

theorem prime_341948486974166000522343609283189 : Nat.Prime 341948486974166000522343609283189 :=
  prime_of_certificate 341948486974166000522343609283189 2
    [2, 2, 3, 3, 3, 109, 29047611873442575647497758179]
    (by intro q hq; simp only [List.mem_cons, List.not_mem_nil, or_false] at hq
        rcases hq with rfl | rfl | rfl | rfl | rfl | rfl | rfl <;> first | exact prime_29047611873442575647497758179 | norm_num)
    (by decide +kernel) (by decide +kernel) (by decide +kernel) (by decide +kernel)

theorem N_prime : Sys2Proof.Machine.N.Prime :=
  prime_of_certificate Sys2Proof.Machine.N 7
    [2, 2, 2, 2, 2, 2, 3, 149, 631, 107361793816595537, 174723607534414371449,
      341948486974166000522343609283189]
    (by intro q hq; simp only [List.mem_cons, List.not_mem_nil, or_false] at hq
        rcases hq with rfl | rfl | rfl | rfl | rfl | rfl | rfl | rfl | rfl | rfl | rfl | rfl <;> first | exact prime_107361793816595537 | exact prime_174723607534414371449 | exact prime_341948486974166000522343609283189 | norm_num)
    (by decide +kernel) (by decide +kernel) (by decide +kernel) (by decide +kernel)

end Sys2Proof.Laws.Prime
end

