-- ==== Sys2Proof/Laws/Arith.lean ====
section
/-! SUPPORT. One spec lemma per arithmetic function: residues and their casts to the fields ZMod P and ZMod N, repeated
squaring, the extended Euclidean algorithm, the lengths and ranges of batches and tables. -/

namespace Sys2Proof.Machine

open Sys2Proof.Laws.Prime

/-! ### Residues (00_scope.md R11, R14) -/

theorem P_pos : 0 < P := by decide

theorem N_pos : 0 < N := by decide

theorem P_lt : P < 2 ^ 256 := by decide

theorem N_lt_P : N < P := by decide

theorem residue_lt (a : Int) {m : Nat} (hm : 0 < m) : residue a m < m := by
  have h1 : 0 ≤ a % (m : Int) := Int.emod_nonneg _ (by omega)
  have h2 : a % (m : Int) < m := Int.emod_lt_of_pos _ (by omega)
  unfold residue
  omega

theorem residue_cast_int (a : Int) {m : Nat} (hm : 0 < m) : ((residue a m : Nat) : Int) = a % m := by
  have h1 : 0 ≤ a % (m : Int) := Int.emod_nonneg _ (by omega)
  unfold residue
  omega

theorem residue_cast (a : Int) {m : Nat} (hm : 0 < m) : ((residue a m : Nat) : ZMod m) = (a : ZMod m) := by
  have h := residue_cast_int a hm
  have : (((residue a m : Nat) : Int) : ZMod m) = ((a % m : Int) : ZMod m) := by rw [h]
  simpa [ZMod.intCast_mod] using this

theorem residue_natCast (a m : Nat) : residue (a : Int) m = a % m := by
  unfold residue
  omega

theorem fadd_lt (a b : Nat) : fadd a b < P := Nat.mod_lt _ P_pos
theorem fsub_lt (a b : Nat) : fsub a b < P := residue_lt _ P_pos
theorem fmul_lt (a b : Nat) : fmul a b < P := Nat.mod_lt _ P_pos
theorem fsqr_lt (a : Nat) : fsqr a < P := Nat.mod_lt _ P_pos
theorem fneg_lt (a : Nat) : fneg a < P := residue_lt _ P_pos

@[simp] theorem fadd_cast (a b : Nat) : ((fadd a b : Nat) : ZMod P) = a + b := by simp [fadd]
@[simp] theorem fsub_cast (a b : Nat) : ((fsub a b : Nat) : ZMod P) = a - b := by simp [fsub, residue_cast _ P_pos]
@[simp] theorem fmul_cast (a b : Nat) : ((fmul a b : Nat) : ZMod P) = a * b := by simp [fmul]
@[simp] theorem fsqr_cast (a : Nat) : ((fsqr a : Nat) : ZMod P) = a ^ 2 := by simp [fsqr, pow_two]
@[simp] theorem fneg_cast (a : Nat) : ((fneg a : Nat) : ZMod P) = -a := by simp [fneg, residue_cast _ P_pos]

/-- Two numbers below P are equal when they are equal modulo P. -/
theorem eq_of_cast_eq {a b : Nat} (ha : a < P) (hb : b < P) (h : (a : ZMod P) = (b : ZMod P)) : a = b := by
  rw [ZMod.natCast_eq_natCast_iff'] at h
  rwa [Nat.mod_eq_of_lt ha, Nat.mod_eq_of_lt hb] at h

/-- A number is 0 modulo P exactly when its cast is 0. -/
theorem cast_eq_zero_iff (a : Nat) : ((a : ZMod P) = 0) ↔ a % P = 0 := by
  rw [ZMod.natCast_eq_zero_iff, Nat.dvd_iff_mod_eq_zero]

theorem cast_ne_zero_of_lt {a : Nat} (h0 : a ≠ 0) (h : a < P) : (a : ZMod P) ≠ 0 := by
  rw [ne_eq, cast_eq_zero_iff, Nat.mod_eq_of_lt h]
  exact h0

/-- The least nonnegative residue as a register content. -/
theorem ofNat_residue_toNat (a : Int) {m : Nat} (hm : 0 < m) (hm2 : m < 2 ^ 256) :
    (BitVec.ofNat 256 (residue a m)).toNat = residue a m := by
  have := residue_lt a hm
  simp only [BitVec.toNat_ofNat]
  exact Nat.mod_eq_of_lt (by omega)

/-! ### Repeated squaring (40_field_scalar_arith.md R106) -/

theorem pow2_lt {t : Nat} (h : t < P) (k : Nat) : pow2 t k < P := by
  induction k generalizing t with
  | zero => exact h
  | succ k ih => exact ih (fsqr_lt t)

@[simp] theorem pow2_cast (t k : Nat) : ((pow2 t k : Nat) : ZMod P) = (t : ZMod P) ^ 2 ^ k := by
  induction k generalizing t with
  | zero => simp [pow2]
  | succ k ih => rw [pow2, ih, fsqr_cast, ← pow_mul, ← pow_succ']

/-! ### The extended Euclidean algorithm (41_inverse_sqrt.md R132) -/

/-- What the loop keeps: a ≡ u·x and b ≡ v·x (mod m), and gcd(a, b). With fuel beyond `a` it ends at the gcd. -/
theorem euclid_spec (m : Nat) (x : ZMod m) (fuel : Nat) :
    ∀ (a b : Nat) (u v : Int), a < fuel → (a : ZMod m) = u * x → (b : ZMod m) = v * x →
      (euclid fuel a b u v).1 = Nat.gcd a b ∧
        (((euclid fuel a b u v).1 : Nat) : ZMod m) = ((euclid fuel a b u v).2 : ZMod m) * x := by
  induction fuel with
  | zero => intro a b u v h; omega
  | succ fuel ih =>
    intro a b u v hlt ha hb
    by_cases h0 : a = 0
    · subst h0
      simp [euclid, hb]
    · have hr : b % a < fuel := by have := Nat.mod_lt b (Nat.pos_of_ne_zero h0); omega
      have hmod : ((b % a : Nat) : ZMod m) = (v - ((b / a : Nat) : Int) * u : Int) * x := by
        have hdiv : b = b % a + b / a * a := by rw [Nat.mul_comm]; exact (Nat.mod_add_div b a).symm
        have : (b : ZMod m) = ((b % a : Nat) : ZMod m) + ((b / a : Nat) : ZMod m) * (a : ZMod m) := by
          conv_lhs => rw [hdiv]
          push_cast; ring
        rw [Int.cast_sub, Int.cast_mul, Int.cast_natCast]
        linear_combination (-1 : ZMod m) * this + hb - ((b / a : Nat) : ZMod m) * ha
      have := ih (b % a) a (v - ((b / a : Nat) : Int) * u) u hr hmod ha
      rw [Nat.gcd_rec a b]
      simpa [euclid, h0] using this

/-- `invert` fails exactly where the gcd is not 1 (R132). -/
theorem invertFails_iff (x m : Nat) : invertFails x m = true ↔ Nat.gcd x m ≠ 1 := by
  have h := (euclid_spec m (x : ZMod m) (x + 1) x m 1 0 (by omega) (by simp) (by simp)).1
  simp [invertFails, h]

/-- Where it does not fail, `invert` gives the inverse modulo m (R132). -/
theorem invert_cast_mul {x m : Nat} (hm : 0 < m) (hg : Nat.gcd x m = 1) :
    ((invert x m : Nat) : ZMod m) * x = 1 := by
  obtain ⟨h1, h2⟩ := euclid_spec m (x : ZMod m) (x + 1) x m 1 0 (by omega) (by simp) (by simp)
  rw [h1, hg] at h2
  rw [invert, residue_cast _ hm]
  simpa using h2.symm

theorem invert_lt (x : Nat) {m : Nat} (hm : 0 < m) : invert x m < m := residue_lt _ hm

theorem gcd_P_eq_one {x : Nat} (h0 : x ≠ 0) (h : x < P) : Nat.gcd x P = 1 :=
  (Nat.coprime_comm.mp ((Nat.Prime.coprime_iff_not_dvd P_prime).mpr
    (fun hd => absurd (Nat.le_of_dvd (Nat.pos_of_ne_zero h0) hd) (by omega))))

theorem gcd_N_eq_one {x : Nat} (h0 : x ≠ 0) (h : x < N) : Nat.gcd x N = 1 :=
  (Nat.coprime_comm.mp ((Nat.Prime.coprime_iff_not_dvd N_prime).mpr
    (fun hd => absurd (Nat.le_of_dvd (Nat.pos_of_ne_zero h0) hd) (by omega))))

/-- A nonzero field element is invertible, so the commands modulo P never meet the failure (log entry 16). -/
theorem not_invertFails_P {x : Nat} (h0 : x ≠ 0) (h : x < P) : invertFails x P = false := by
  by_contra hc
  exact (invertFails_iff x P).mp (by simpa using hc) (gcd_P_eq_one h0 h)

theorem not_invertFails_N {x : Nat} (h0 : x ≠ 0) (h : x < N) : invertFails x N = false := by
  by_contra hc
  exact (invertFails_iff x N).mp (by simpa using hc) (gcd_N_eq_one h0 h)

theorem finv_lt (a : Nat) : finv a < P := invert_lt a P_pos

/-! ### Batches (41_inverse_sqrt.md R133, 42_jacobian_point.md R154) -/

@[simp] theorem batchUnwind_length (xs : List Nat) (acc : Nat) : (batchUnwind xs acc).2.length = xs.length := by
  induction xs generalizing acc with
  | nil => rfl
  | cons x xs ih => by_cases h : x = 0 <;> simp [batchUnwind, h, ih]

@[simp] theorem invertBatch_length (xs : List Nat) : (invertBatch xs).length = xs.length := batchUnwind_length xs 1

@[simp] theorem jnorm_length (ts : List Jac) : (jnorm ts).length = ts.length := by simp [jnorm]

/-- The coordinates of a scaled triple are field elements. -/
theorem jscale_lt (t : Jac) (z : Nat) : (jscale t z).x.toNat < P ∧ (jscale t z).y.toNat < P := by
  have hx := fmul_lt t.X (fsqr z)
  have hy := fmul_lt t.Y (fmul (fsqr z) z)
  have hP := P_lt
  refine ⟨?_, ?_⟩
  · rw [jscale, BitVec.toNat_ofNat, Nat.mod_eq_of_lt (by omega)]
    exact hx
  · rw [jscale, BitVec.toNat_ofNat, Nat.mod_eq_of_lt (by omega)]
    exact hy

theorem jnorm_lt {ts : List Jac} {a : Affine} (h : a ∈ jnorm ts) : a.x.toNat < P ∧ a.y.toNat < P := by
  rw [jnorm, ← List.map_uncurry_zip_eq_zipWith] at h
  obtain ⟨p, _, rfl⟩ := List.mem_map.mp h
  exact jscale_lt p.1 p.2

/-! ### Tables (43_scalar_mult.md R173) -/

@[simp] theorem windowRow_length (q : Jac) (n : Nat) (base : Jac) : (windowRow q n base).length = n := by
  induction n generalizing base with
  | zero => rfl
  | succ n ih => simp [windowRow, ih]

@[simp] theorem windowRows_length (half n : Nat) (q : Jac) : (windowRows half n q).length = n * half := by
  induction n generalizing q with
  | zero => simp [windowRows]
  | succ n ih => simp [windowRows, ih]; ring

@[simp] theorem storedTable_length (a : Affine) (w : WSize) : (storedTable a w).length = entriesOf w := by
  simp [storedTable, wtable, entriesOf]

/-- The stored table has the form of a table memory (10_state.md R36). -/
theorem storedTable_wf (a : Affine) (w : WSize) : Memory.wf (storedTable a w) = true := by
  have hlen : entriesOf w ≤ Config.tblDepth := by cases w <;> decide
  have hall : ∀ e ∈ storedTable a w, e.x.toNat < P ∧ e.y.toNat < P := fun e he => jnorm_lt he
  simp only [Memory.wf, storedTable_length, hlen, decide_true, Bool.true_and, List.all_eq_true, Bool.and_eq_true,
    decide_eq_true_eq]
  exact hall

/-! ### The field of P elements: inverse, batched inverse, square root -/

/-- The primality of P in the form Mathlib's field structure asks for. -/
theorem P_fact : Fact (Nat.Prime P) := ⟨P_prime⟩

/-- SQRTP's chain gives a field element. -/
theorem sqrtChain_lt (x : Nat) : sqrtChain x < P := pow2_lt (fmul_lt _ _) _

/-- The addition chain computes x^((P+1)/4) (R135). -/
theorem sqrtChain_cast (x : Nat) : ((sqrtChain x : Nat) : ZMod P) = (x : ZMod P) ^ ((P + 1) / 4) := by
  simp only [sqrtChain, pow2_cast, fmul_cast, ← pow_mul, ← pow_succ, ← pow_add, ← pow_two]
  rw [show (P + 1) / 4 = 0x3FFFFFFFFFFFFFFFFFFFFFFFFFFFFFFFFFFFFFFFFFFFFFFFFFFFFFFFBFFFFF0C by decide]
  ring_nf

theorem fsub_eq_zero {a b : Nat} : fsub a b = 0 ↔ (a : ZMod P) - b = 0 := by
  rw [← fsub_cast, cast_eq_zero_iff, Nat.mod_eq_of_lt (fsub_lt _ _)]

section Field

variable [Fact (Nat.Prime P)]

/-- `Finv` of a nonzero field element is its inverse (R132). -/
theorem finv_cast {a : Nat} (h0 : a ≠ 0) (h : a < P) : ((finv a : Nat) : ZMod P) = (a : ZMod P)⁻¹ :=
  eq_inv_of_mul_eq_one_left (invert_cast_mul P_pos (gcd_P_eq_one h0 h))

theorem fmul_ne_zero {a b : Nat} (ha : (a : ZMod P) ≠ 0) (hb : (b : ZMod P) ≠ 0) : fmul a b ≠ 0 := by
  intro h
  have := fmul_cast a b
  rw [h, Nat.cast_zero] at this
  exact mul_ne_zero ha hb this.symm

/-- Montgomery's trick: from a nonzero prefix product, the running inverse and the elementwise inverses, zeros passing
through (R133). -/
theorem batchUnwind_spec (xs : List Nat) (hx : ∀ x ∈ xs, x < P) : ∀ acc, acc < P → acc ≠ 0 →
    (((batchUnwind xs acc).1 : Nat) : ZMod P) = (acc : ZMod P)⁻¹ ∧
    (batchUnwind xs acc).2.map (Nat.cast : Nat → ZMod P) = xs.map (fun x : Nat => (x : ZMod P)⁻¹) ∧
    ∀ v ∈ (batchUnwind xs acc).2, v < P := by
  induction xs with
  | nil => intro acc h h0; simp [batchUnwind, finv_cast h0 h]
  | cons x xs ih =>
    intro acc h h0
    have hxs : ∀ y ∈ xs, y < P := fun y hy => hx y (by simp [hy])
    by_cases hz : x = 0
    · obtain ⟨a, b, c⟩ := ih hxs acc h h0
      simp [batchUnwind, hz, a, b]
      exact ⟨P_pos, c⟩
    · have hxP : x < P := hx x (by simp)
      have hxc := cast_ne_zero_of_lt hz hxP
      have hac := cast_ne_zero_of_lt h0 h
      obtain ⟨a, b, c⟩ := ih hxs (fmul acc x) (fmul_lt _ _) (fmul_ne_zero hac hxc)
      simp only [batchUnwind, ne_eq, hz, not_false_eq_true, if_true, List.map_cons, fmul_cast, a, b, List.mem_cons]
      refine ⟨by rw [mul_inv]; field_simp, by rw [mul_inv]; congr 1; field_simp, ?_⟩
      rintro v (rfl | hv)
      · exact fmul_lt _ _
      · exact c v hv

/-- `invertBatch` inverts elementwise, zeros passing through (R133). -/
theorem invertBatch_cast {xs : List Nat} (hx : ∀ x ∈ xs, x < P) :
    (invertBatch xs).map (Nat.cast : Nat → ZMod P) = xs.map (fun x : Nat => (x : ZMod P)⁻¹) ∧ ∀ v ∈ invertBatch xs, v < P :=
  (batchUnwind_spec xs hx 1 (by decide) (by decide)).2

end Field

/-! ### Coordinates stay field elements (42_jacobian_point.md, 43_scalar_mult.md R180) -/

theorem jadd_lt {p q : Jac} (px : p.X < P) (py : p.Y < P) (pz : p.Z < P) (qx : q.X < P)
    (qy : q.Y < P) (qz : q.Z < P) :
    (jadd p q).X < P ∧ (jadd p q).Y < P ∧ (jadd p q).Z < P := by
  unfold jadd
  split
  · exact ⟨px, py, pz⟩
  split
  · exact ⟨qx, qy, qz⟩
  simp only
  split
  · split
    · exact ⟨fsub_lt _ _, fsub_lt _ _, fmul_lt _ _⟩
    · exact ⟨by decide, by decide, by decide⟩
  · exact ⟨fsub_lt _ _, fsub_lt _ _, fmul_lt _ _⟩

theorem doubleAndAdd_lt {q : Jac} (qx : q.X < P) (qy : q.Y < P) (qz : q.Z < P) (k : Nat) : ∀ (i : Nat) (acc : Jac),
    acc.X < P ∧ acc.Y < P ∧ acc.Z < P →
    (doubleAndAdd k q i acc).X < P ∧ (doubleAndAdd k q i acc).Y < P ∧ (doubleAndAdd k q i acc).Z < P := by
  intro i
  induction i with
  | zero => exact fun _ h => h
  | succ i ih =>
    intro acc h
    simp only [doubleAndAdd]
    split
    · exact ih _ (jadd_lt (fsub_lt _ _) (fsub_lt _ _) (fmul_lt _ _) qx qy qz)
    · exact ih _ ⟨fsub_lt _ _, fsub_lt _ _, fmul_lt _ _⟩

end Sys2Proof.Machine
end

