-- ==== Sys2Proof/Laws/Curve.lean ====
section
/-! SUPPORT. The point arithmetic computes in the group of the curve (42_jacobian_point.md R155): what a triple stands for
under doubling, addition, negation and normalisation, in Mathlib's group of the Weierstrass curve y² = x³ + 7. -/

namespace Sys2Proof.Machine

open Sys2Proof.Laws.Prime
open WeierstrassCurve.Affine

theorem cast_ne {a : Nat} (h : a % P ≠ 0) : (a : ZMod P) ≠ 0 := by rwa [ne_eq, cast_eq_zero_iff]

theorem eq_zero_of {a : Nat} (h : a % P = 0) (hl : a < P) : a = 0 := by rwa [Nat.mod_eq_of_lt hl] at h

theorem point_cases (A : curve.Point) : A = 0 ∨ ∃ x y h, A = .some x y h := by
  cases A with
  | zero => exact .inl rfl
  | some x y h => exact .inr ⟨x, y, h, rfl⟩

/-- A triple of field elements that stands for the point, with X = 0 where that is the identity: the form the commands keep
(42_jacobian_point.md R152 corner case (b)). -/
structure Rep (t : Jac) (A : curve.Point) : Prop where
  x : t.X < P
  y : t.Y < P
  z : t.Z < P
  stands : Stands t A
  identityX : IdentityX t

theorem rep_zero {t : Jac} : Rep t 0 ↔ t.X = 0 ∧ t.Y < P ∧ t.Z = 0 := by
  constructor
  · rintro ⟨hx, hy, hz, h, hi⟩
    exact ⟨eq_zero_of (hi h) hx, hy, eq_zero_of h hz⟩
  · rintro ⟨hx, hy, hz⟩
    exact ⟨by rw [hx]; decide, hy, by rw [hz]; decide, (by rw [hz]; rfl : t.Z % P = 0), fun _ => by rw [hx]; rfl⟩

theorem rep_jzero : Rep jzero 0 := rep_zero.mpr ⟨rfl, by decide, rfl⟩

variable [hP : Fact (Nat.Prime P)]

theorem two_ne : (2 : ZMod P) ≠ 0 := by simpa using cast_ne (a := 2) (by decide)
theorem three_ne : (3 : ZMod P) ≠ 0 := by simpa using cast_ne (a := 3) (by decide)
theorem seven_ne : (7 : ZMod P) ≠ 0 := by simpa using cast_ne (a := 7) (by decide)

/-- A power that is not 1 shows a residue class is no k-th power. -/
theorem not_power {k a : Nat} (hk : (P - 1) % k = 0) (h1 : powMod a P 256 ((P - 1) / k) ≠ 1) (h0 : (a : ZMod P) ≠ 0)
    (y : ZMod P) : y ^ k ≠ a := by
  intro h
  apply h1
  have hy : y ≠ 0 := by
    rintro rfl
    by_cases k0 : k = 0
    · subst k0; simp at hk; revert hk; decide
    · rw [zero_pow k0] at h; exact h0 h.symm
  have e : (a : ZMod P) ^ ((P - 1) / k) = 1 := by
    rw [← h, ← pow_mul, Nat.mul_div_cancel' (Nat.dvd_of_mod_eq_zero hk), ZMod.pow_card_sub_one_eq_one hy]
  rw [powMod_eq P 256 a _ (lt_of_le_of_lt (Nat.div_le_self _ _) (by decide))]
  have : ((a ^ ((P - 1) / k) : Nat) : ZMod P) = ((1 : Nat) : ZMod P) := by simpa using e
  rw [ZMod.natCast_eq_natCast_iff'] at this
  rw [this]; decide

theorem sq_ne_seven (y : ZMod P) : y ^ 2 ≠ 7 := by
  have := not_power (k := 2) (a := 7) (by decide) (by decide +kernel) (by simpa using seven_ne) y
  simpa using this

theorem cube_ne_neg_seven (x : ZMod P) : x ^ 3 + 7 ≠ 0 := by
  have := not_power (k := 3) (a := P - 7) (by decide) (by decide +kernel) (cast_ne (by decide)) x
  intro h
  apply this
  have e : ((P - 7 : Nat) : ZMod P) = -7 := by
    rw [Nat.cast_sub (by decide)]; simp
  rw [e]; linear_combination h

/-! the curve -/
theorem equation_iff (x y : ZMod P) : curve.Equation x y ↔ y ^ 2 = x ^ 3 + 7 := by
  rw [WeierstrassCurve.Affine.equation_iff]; simp [curve]

theorem x_ne {x y : ZMod P} (h : y ^ 2 = x ^ 3 + 7) : x ≠ 0 := by
  rintro rfl; exact sq_ne_seven y (by simpa using h)
theorem y_ne {x y : ZMod P} (h : y ^ 2 = x ^ 3 + 7) : y ≠ 0 := by
  rintro rfl; exact cube_ne_neg_seven x (by simpa using h.symm)

theorem nonsingular_iff (x y : ZMod P) : curve.Nonsingular x y ↔ y ^ 2 = x ^ 3 + 7 := by
  rw [WeierstrassCurve.Affine.nonsingular_iff, equation_iff]
  refine ⟨fun h => h.1, fun h => ⟨h, Or.inr ?_⟩⟩
  simp [curve]
  intro e
  have := y_ne h
  have e2 : 2 * y = 0 := by linear_combination e
  rcases mul_eq_zero.mp e2 with h2 | h2
  · exact two_ne h2
  · exact this h2

@[simp] theorem curve_negY (x y : ZMod P) : curve.negY x y = -y := by simp [WeierstrassCurve.Affine.negY, curve]
@[simp] theorem curve_addX (x₁ x₂ l : ZMod P) : curve.addX x₁ x₂ l = l ^ 2 - x₁ - x₂ := by simp [WeierstrassCurve.Affine.addX, curve]
@[simp] theorem curve_addY (x₁ x₂ y₁ l : ZMod P) : curve.addY x₁ x₂ y₁ l = l * (x₁ - (l ^ 2 - x₁ - x₂)) - y₁ := by
  simp [WeierstrassCurve.Affine.addY, WeierstrassCurve.Affine.negAddY, WeierstrassCurve.Affine.addX, WeierstrassCurve.Affine.negY, curve]; ring

theorem slope_self {x y : ZMod P} (hy : y ≠ 0) : curve.slope x x y y = 3 * x ^ 2 / (2 * y) := by
  have : y ≠ curve.negY x y := by
    rw [curve_negY]; intro e
    rcases mul_eq_zero.mp (show 2 * y = 0 by linear_combination e) with h | h
    · exact two_ne h
    · exact hy h
  rw [WeierstrassCurve.Affine.slope_of_Y_ne rfl this, curve_negY]
  simp [curve]; ring

theorem slope_ne {x₁ x₂ : ZMod P} (h : x₁ ≠ x₂) (y₁ y₂ : ZMod P) : curve.slope x₁ x₂ y₁ y₂ = (y₁ - y₂) / (x₁ - x₂) :=
  WeierstrassCurve.Affine.slope_of_X_ne h

/-- The coordinates of a triple that stands for a point other than the identity. -/
theorem Rep.coords {t : Jac} {x y : ZMod P} {h : curve.Nonsingular x y} (r : Rep t (.some x y h)) :
    (t.Z : ZMod P) ≠ 0 ∧ (t.X : ZMod P) = x * (t.Z : ZMod P) ^ 2 ∧ (t.Y : ZMod P) = y * (t.Z : ZMod P) ^ 3 ∧
      y ^ 2 = x ^ 3 + 7 ∧ x ≠ 0 ∧ y ≠ 0 :=
  have hc := (nonsingular_iff x y).mp h
  ⟨cast_ne r.stands.1, r.stands.2.1.symm, r.stands.2.2.symm, hc, x_ne hc, y_ne hc⟩

theorem Rep.x_ne_zero {t : Jac} {x y : ZMod P} {h : curve.Nonsingular x y} (r : Rep t (.some x y h)) : t.X ≠ 0 := by
  obtain ⟨hz, hx, hy, -, x0, y0⟩ := r.coords
  intro e; rw [e, Nat.cast_zero] at hx
  exact mul_ne_zero x0 (pow_ne_zero _ hz) hx.symm

theorem Rep.y_ne_zero {t : Jac} {x y : ZMod P} {h : curve.Nonsingular x y} (r : Rep t (.some x y h)) : t.Y ≠ 0 := by
  obtain ⟨hz, hx, hy, -, x0, y0⟩ := r.coords
  intro e; rw [e, Nat.cast_zero] at hy
  exact mul_ne_zero y0 (pow_ne_zero _ hz) hy.symm

theorem rep_some {t : Jac} {x y : ZMod P} {h : curve.Nonsingular x y} (hx : t.X < P) (hy : t.Y < P) (hz : t.Z < P)
    (h0 : (t.Z : ZMod P) ≠ 0) (ex : (t.X : ZMod P) = x * (t.Z : ZMod P) ^ 2) (ey : (t.Y : ZMod P) = y * (t.Z : ZMod P) ^ 3) :
    Rep t (.some x y h) :=
  have hz0 : ¬t.Z % P = 0 := by rwa [ne_eq, cast_eq_zero_iff] at h0
  ⟨hx, hy, hz, ⟨hz0, ex.symm, ey.symm⟩, fun h => absurd h hz0⟩

theorem jdbl_rep {t : Jac} {A : curve.Point} (r : Rep t A) : Rep (jdbl t) (A + A) := by
  rcases point_cases A with rfl | ⟨x, y, h, rfl⟩
  · obtain ⟨hx, hy, hz⟩ := rep_zero.mp r
    rw [add_zero, rep_zero]
    refine ⟨?_, fsub_lt _ _, ?_⟩
    · rw [jdbl]; refine eq_zero_of ?_ (fsub_lt _ _)
      rw [← cast_eq_zero_iff]; simp [hx]
    · simp [jdbl, hz, fmul]
  · obtain ⟨z0, ex, ey, hc, x0, y0⟩ := r.coords
    have hne : y ≠ curve.negY x y := by
      rw [curve_negY]; intro e
      rcases mul_eq_zero.mp (show 2 * y = 0 by linear_combination e) with h | h
      · exact two_ne h
      · exact y0 h
    rw [Point.add_self_of_Y_ne hne]
    refine rep_some (fsub_lt _ _) (fsub_lt _ _) (fmul_lt _ _) ?_ ?_ ?_
    · simp [jdbl, ey]; exact ⟨⟨two_ne, y0, z0⟩, z0⟩
    · rw [curve_addX, slope_self y0]; simp [jdbl, ex, ey]
      have := two_ne
      field_simp; ring
    · rw [curve_addY, slope_self y0]; simp [jdbl, ex, ey]
      have := two_ne
      field_simp; ring

theorem jneg_rep {t : Jac} {A : curve.Point} (r : Rep t A) : Rep (jneg t) (-A) := by
  rcases point_cases A with rfl | ⟨x, y, h, rfl⟩
  · obtain ⟨hx, hy, hz⟩ := rep_zero.mp r
    rw [neg_zero, rep_zero]
    exact ⟨hx, fneg_lt _, hz⟩
  · obtain ⟨z0, ex, ey, hc, x0, y0⟩ := r.coords
    rw [Point.neg_some]
    refine rep_some r.x (fneg_lt _) r.z z0 ex ?_
    rw [curve_negY]; simp [jneg, ey]

theorem jadd_rep {p q : Jac} {A B : curve.Point} (rp : Rep p A) (rq : Rep q B) : Rep (jadd p q) (A + B) := by
  rcases point_cases B with rfl | ⟨x₂, y₂, h₂, rfl⟩
  · obtain ⟨hx, hy, hz⟩ := rep_zero.mp rq
    rw [add_zero, jadd, if_pos (.inl hx)]; exact rp
  rcases point_cases A with rfl | ⟨x₁, y₁, h₁, rfl⟩
  · obtain ⟨hx, hy, hz⟩ := rep_zero.mp rp
    rw [zero_add, jadd, if_neg (by simp [rq.x_ne_zero, rq.y_ne_zero]), if_pos (.inl hx)]; exact rq
  have hz1 := rp.coords; obtain ⟨z1, ex1, ey1, c1, -, y10⟩ := hz1
  have hz2 := rq.coords; obtain ⟨z2, ex2, ey2, c2, -, y20⟩ := hz2
  have eH : (fsub (fmul q.X (fsqr p.Z)) (fmul p.X (fsqr q.Z)) = 0) ↔ x₁ = x₂ := by
    rw [fsub_eq_zero]; simp [ex1, ex2]
    rw [show x₂ * (q.Z : ZMod P) ^ 2 * (p.Z : ZMod P) ^ 2 - x₁ * (p.Z : ZMod P) ^ 2 * (q.Z : ZMod P) ^ 2 =
      (x₂ - x₁) * ((p.Z : ZMod P) ^ 2 * (q.Z : ZMod P) ^ 2) by ring]
    rw [mul_eq_zero, or_iff_left (mul_ne_zero (pow_ne_zero _ z1) (pow_ne_zero _ z2)), sub_eq_zero, eq_comm]
  have er : (fsub (fmul (fmul q.Y p.Z) (fsqr p.Z)) (fmul (fmul p.Y q.Z) (fsqr q.Z)) = 0) ↔ y₁ = y₂ := by
    rw [fsub_eq_zero]; simp [ey1, ey2]
    rw [show y₂ * (q.Z : ZMod P) ^ 3 * (p.Z : ZMod P) * (p.Z : ZMod P) ^ 2 - y₁ * (p.Z : ZMod P) ^ 3 * (q.Z : ZMod P) * (q.Z : ZMod P) ^ 2 =
      (y₂ - y₁) * ((p.Z : ZMod P) ^ 3 * (q.Z : ZMod P) ^ 3) by ring]
    rw [mul_eq_zero, or_iff_left (mul_ne_zero (pow_ne_zero _ z1) (pow_ne_zero _ z2)), sub_eq_zero, eq_comm]
  rw [jadd, if_neg (by simp [rq.x_ne_zero, rq.y_ne_zero]), if_neg (by simp [rp.x_ne_zero, rp.y_ne_zero])]
  dsimp only
  by_cases hx : x₁ = x₂
  · rw [if_pos (eH.mpr hx)]
    by_cases hy : y₁ = y₂
    · rw [if_pos (er.mpr hy)]
      subst hx hy
      exact jdbl_rep rp
    · rw [if_neg (fun h => hy (er.mp h))]
      have : y₁ = curve.negY x₂ y₂ := by
        rw [curve_negY]
        subst hx
        have e : (y₁ - y₂) * (y₁ + y₂) = 0 := by linear_combination c1 - c2
        rcases mul_eq_zero.mp e with h | h
        · exact absurd (sub_eq_zero.mp h) hy
        · exact eq_neg_of_add_eq_zero_left h
      rw [Point.add_of_Y_eq hx this]
      exact rep_jzero
  · rw [if_neg (fun h => hx (eH.mp h)), Point.add_of_X_ne hx]
    have d : x₁ - x₂ ≠ 0 := sub_ne_zero.mpr hx
    have d2 : x₂ - x₁ ≠ 0 := sub_ne_zero.mpr (Ne.symm hx)
    refine rep_some (fsub_lt _ _) (fsub_lt _ _) (fmul_lt _ _) ?_ ?_ ?_
    · simp [ex1, ex2]
      refine ⟨⟨z1, z2⟩, ?_⟩
      rw [show x₂ * (q.Z : ZMod P) ^ 2 * (p.Z : ZMod P) ^ 2 - x₁ * (p.Z : ZMod P) ^ 2 * (q.Z : ZMod P) ^ 2 =
        (x₂ - x₁) * ((p.Z : ZMod P) ^ 2 * (q.Z : ZMod P) ^ 2) by ring]
      exact mul_ne_zero d2 (mul_ne_zero (pow_ne_zero _ z1) (pow_ne_zero _ z2))
    · rw [curve_addX, slope_ne hx]; simp [ex1, ex2, ey1, ey2]
      field_simp; ring
    · rw [curve_addY, slope_ne hx]; simp [ex1, ex2, ey1, ey2]
      field_simp; ring

/-! ### Triples that stand for the identity with any X and Y (42_jacobian_point.md R150, R152 corner case (b)) -/

omit hP in
/-- A triple of field elements that stands for a point other than the identity has the form the commands keep. -/
theorem rep_of_ne {t : Jac} {A : curve.Point} (hx : t.X < P) (hy : t.Y < P) (hz : t.Z < P) (h : Stands t A)
    (h0 : A ≠ 0) : Rep t A := by
  rcases point_cases A with rfl | ⟨x, y, hn, rfl⟩
  · exact absurd rfl h0
  · exact ⟨hx, hy, hz, h, fun hz0 => absurd hz0 h.1⟩

/-- A triple stands for at most one point. -/
theorem stands_unique {t : Jac} {A B : curve.Point} (hA : Stands t A) (hB : Stands t B) : A = B := by
  rcases point_cases A with rfl | ⟨x, y, h, rfl⟩ <;> rcases point_cases B with rfl | ⟨x', y', h', rfl⟩
  · rfl
  · exact absurd hA hB.1
  · exact absurd hB hA.1
  · have z0 := cast_ne hA.1
    have ex : x = x' := mul_right_cancel₀ (pow_ne_zero 2 z0) (hA.2.1.trans hB.2.1.symm)
    have ey : y = y' := mul_right_cancel₀ (pow_ne_zero 3 z0) (hA.2.2.trans hB.2.2.symm)
    subst ex ey
    rfl

/-- The representation is not canonical: (X·c², Y·c³, Z·c) stands for the same point (R150). -/
theorem stands_scale {t : Jac} {A : curve.Point} (h : Stands t A) {c : Nat} (hc : c % P ≠ 0) :
    Stands ⟨fmul t.X (fsqr c), fmul t.Y (fmul (fsqr c) c), fmul t.Z c⟩ A := by
  rcases point_cases A with rfl | ⟨x, y, hn, rfl⟩
  · have hz : (t.Z : ZMod P) = 0 := (cast_eq_zero_iff _).mpr h
    exact (cast_eq_zero_iff _).mp (by simp [hz])
  · have z0 := cast_ne h.1
    have c0 := cast_ne hc
    have ex := h.2.1
    have ey := h.2.2
    refine ⟨?_, ?_, ?_⟩
    · rw [ne_eq, ← cast_eq_zero_iff, fmul_cast]
      exact mul_ne_zero z0 c0
    · simp only [fmul_cast, fsqr_cast, ← ex]; ring
    · simp only [fmul_cast, fsqr_cast, ← ey]; ring

omit hP in
theorem jdbl_z {t : Jac} (h : t.Z = 0) : (jdbl t).Z = 0 := by simp [jdbl, h, fmul]

omit hP in
/-- The sum of two triples with Z = 0 has Z = 0. -/
theorem jadd_z {p q : Jac} (hp : p.Z = 0) (hq : q.Z = 0) : (jadd p q).Z = 0 := by
  unfold jadd
  split
  · exact hp
  · split
    · exact hq
    · simp only [hp, hq]
      split
      · split
        · exact jdbl_z hp
        · rfl
      · simp [fmul]

/-- Doubling doubles, whatever triple stands for the identity. -/
theorem jdbl_stands {t : Jac} {A : curve.Point} (hx : t.X < P) (hy : t.Y < P) (hz : t.Z < P) (h : Stands t A) :
    Stands (jdbl t) (A + A) := by
  by_cases h0 : A = 0
  · subst h0
    rw [add_zero]
    show (jdbl t).Z % P = 0
    rw [jdbl_z (eq_zero_of h hz), Nat.zero_mod]
  · exact (jdbl_rep (rep_of_ne hx hy hz h h0)).stands

/-- Negation negates, whatever triple stands for the identity. -/
theorem jneg_stands {t : Jac} {A : curve.Point} (hx : t.X < P) (hy : t.Y < P) (hz : t.Z < P) (h : Stands t A) :
    Stands (jneg t) (-A) := by
  by_cases h0 : A = 0
  · subst h0
    rw [neg_zero]
    exact h
  · exact (jneg_rep (rep_of_ne hx hy hz h h0)).stands

/-- What the addition's test on X and Y says of a triple of field elements that stands for a point. -/
theorem shortCircuit_iff {t : Jac} {A : curve.Point} (hx : t.X < P) (hy : t.Y < P) (hz : t.Z < P) (h : Stands t A) :
    (t.X = 0 ∨ t.Y = 0) ↔ A = 0 ∧ Recognised t := by
  by_cases h0 : A = 0
  · subst h0
    have hr : Recognised t ↔ (t.X = 0 ∨ t.Y = 0) := by
      have hz0 : t.Z % P = 0 := h
      simp only [Recognised, hz0, true_implies, Nat.mod_eq_of_lt hx, Nat.mod_eq_of_lt hy]
    simp [hr]
  · have r := rep_of_ne hx hy hz h h0
    obtain ⟨x, y, hn, rfl⟩ := (point_cases A).resolve_left h0
    simp [r.x_ne_zero, r.y_ne_zero, h0]

/-- Addition adds where its test sees every identity among the operands (R152). -/
theorem jadd_stands {p q : Jac} {A B : curve.Point} (px : p.X < P) (py : p.Y < P) (pz : p.Z < P) (qx : q.X < P)
    (qy : q.Y < P) (qz : q.Z < P) (hA : Stands p A) (hB : Stands q B) (rp : Recognised p) (rq : Recognised q) :
    Stands (jadd p q) (A + B) := by
  have sp := shortCircuit_iff px py pz hA
  have sq := shortCircuit_iff qx qy qz hB
  by_cases hB0 : B = 0
  · rw [jadd, if_pos (sq.mpr ⟨hB0, rq⟩), hB0, add_zero]
    exact hA
  · by_cases hA0 : A = 0
    · rw [jadd, if_neg (fun h => hB0 (sq.mp h).1), if_pos (sp.mpr ⟨hA0, rp⟩), hA0, zero_add]
      exact hB
    · exact (jadd_rep (rep_of_ne px py pz hA hA0) (rep_of_ne qx qy qz hB hB0)).stands

/-- An identity that the addition's test does not see takes the other operand with it (R152 corner case (b)). -/
theorem jadd_lost {p q : Jac} {A B : curve.Point} (px : p.X < P) (py : p.Y < P) (pz : p.Z < P) (qx : q.X < P)
    (qy : q.Y < P) (qz : q.Z < P) (hA : Stands p A) (hB : Stands q B) (h : ¬(Recognised p ∧ Recognised q)) :
    (jadd p q).Z = 0 := by
  have sp := shortCircuit_iff px py pz hA
  have sq := shortCircuit_iff qx qy qz hB
  have zero : ∀ {t : Jac}, t.Z < P → ¬Recognised t → t.Z = 0 := by
    intro t ht hr
    simp only [Recognised, not_forall] at hr
    exact eq_zero_of hr.1 ht
  unfold jadd
  split
  · next hq => exact zero pz (fun hp => h ⟨hp, (sq.mp hq).2⟩)
  · next hq =>
    split
    · next hp => exact zero qz (fun hr => h ⟨(sp.mp hp).2, hr⟩)
    · next hp =>
      have hz : p.Z = 0 ∨ q.Z = 0 := by
        by_cases hr : Recognised p
        · exact .inr (zero qz (fun hr2 => h ⟨hr, hr2⟩))
        · exact .inl (zero pz hr)
      simp only
      split
      · next hH =>
        split
        · rcases hz with hz | hz
          · exact jdbl_z hz
          · have hxq : (q.X : ZMod P) ≠ 0 := cast_ne_zero_of_lt (fun e => hq (.inl e)) qx
            rw [fsub_eq_zero] at hH
            simp [hz] at hH
            rcases hH with hH | hH
            · exact absurd hH hxq
            · exact jdbl_z (eq_zero_of ((cast_eq_zero_iff _).mp hH) pz)
        · rfl
      · rcases hz with hz | hz <;> simp [hz, fmul]

/-- Where every identity among the operands has X = 0, so has an identity that is their sum. -/
theorem jadd_identityX {p q : Jac} {A B : curve.Point} (px : p.X < P) (py : p.Y < P) (pz : p.Z < P) (qx : q.X < P)
    (qy : q.Y < P) (qz : q.Z < P) (hA : Stands p A) (hB : Stands q B) (ip : IdentityX p) (iq : IdentityX q) :
    IdentityX (jadd p q) := (jadd_rep ⟨px, py, pz, hA, ip⟩ ⟨qx, qy, qz, hB, iq⟩).identityX

/-! ### Affine pairs -/

/-- A pair that passes the admission test of SETANCH is a point of the curve (43_scalar_mult.md R177). -/
theorem exists_point {a : Affine} (h : onCurve a.x.toNat a.y.toNat = true) : ∃ A : curve.Point, Stands (lift a) A := by
  have e : (a.y.toNat : ZMod P) ^ 2 = (a.x.toNat : ZMod P) ^ 3 + 7 := by
    have h2 : a.y.toNat * a.y.toNat % P = (a.x.toNat * a.x.toNat * a.x.toNat + B7) % P := by simpa [onCurve] using h
    rw [← ZMod.natCast_eq_natCast_iff'] at h2
    have h3 : ((B7 : Nat) : ZMod P) = 7 := rfl
    push_cast [h3] at h2
    linear_combination h2
  exact ⟨.some _ _ ((nonsingular_iff _ _).mpr e), (show 1 % P ≠ 0 by decide), by simp [lift], by simp [lift]⟩

omit hP in
/-- A pair of field elements is determined by the point it stands for. -/
theorem stands_lift_inj {a b : Affine} (ha : a.x.toNat < P ∧ a.y.toNat < P) (hb : b.x.toNat < P ∧ b.y.toNat < P)
    {A : curve.Point} (h : Stands (lift a) A) (h' : Stands (lift b) A) : a = b := by
  rcases point_cases A with rfl | ⟨x, y, hh, rfl⟩
  · exact absurd h (show ¬1 % P = 0 by decide)
  · have e1 := h.2.1.symm.trans h'.2.1
    have e2 := h.2.2.symm.trans h'.2.2
    have hx := eq_of_cast_eq ha.1 hb.1 (by simpa [lift] using e1)
    have hy := eq_of_cast_eq ha.2 hb.2 (by simpa [lift] using e2)
    cases a; cases b
    simp only [Affine.mk.injEq]
    exact ⟨BitVec.eq_of_toNat_eq hx, BitVec.eq_of_toNat_eq hy⟩

/-- A pair that stands for a point passes the admission test of SETANCH. -/
theorem onCurve_of_rep {a : Affine} {A : curve.Point} (h : Rep (lift a) A) (h0 : A ≠ 0) :
    onCurve a.x.toNat a.y.toNat = true := by
  obtain ⟨x, y, hn, rfl⟩ := (point_cases A).resolve_left h0
  have e := (nonsingular_iff x y).mp hn
  have ex := h.stands.2.1
  have ey := h.stands.2.2
  simp [lift] at ex ey
  have h3 : ((B7 : Nat) : ZMod P) = 7 := rfl
  simp only [onCurve, decide_eq_true_eq]
  rw [← ZMod.natCast_eq_natCast_iff']
  push_cast [h3]
  rw [← ex, ← ey]
  linear_combination e

/-- The sum of a pair and of the pair that stands for the opposite point is ZERO (42_jacobian_point.md R152). -/
theorem jadd_opposite {a b : Affine} {A : curve.Point} (ha : Rep (lift a) (-A)) (hb : Rep (lift b) A)
    (h0 : A ≠ 0) : jadd (lift a) (lift b) = jzero := by
  obtain ⟨x, y, hn, rfl⟩ := (point_cases A).resolve_left h0
  have hneg : -(WeierstrassCurve.Affine.Point.some x y hn) = .some x (curve.negY x y) ((nonsingular_neg x y).mpr hn) := rfl
  rw [hneg] at ha
  have ax := ha.stands.2.1
  have ay := ha.stands.2.2
  have bx := hb.stands.2.1
  have by' := hb.stands.2.2
  simp [lift, WeierstrassCurve.Affine.negY, curve] at ax ay bx by'
  have y0 : y ≠ 0 := y_ne ((nonsingular_iff x y).mp hn)
  have hH : fsub (fmul (lift b).X (fsqr (lift a).Z)) (fmul (lift a).X (fsqr (lift b).Z)) = 0 := by
    rw [fsub_eq_zero]; simp [lift, ← ax, ← bx]
  have hr : fsub (fmul (fmul (lift b).Y (lift a).Z) (fsqr (lift a).Z))
      (fmul (fmul (lift a).Y (lift b).Z) (fsqr (lift b).Z)) ≠ 0 := by
    rw [ne_eq, fsub_eq_zero]
    simp only [fmul_cast, fsqr_cast, lift, Nat.cast_one, mul_one, one_pow, ← ay, ← by', sub_neg_eq_add, ← two_mul]
    exact mul_ne_zero two_ne y0
  unfold jadd
  rw [if_neg (by simp [hb.x_ne_zero, hb.y_ne_zero]), if_neg (by simp [ha.x_ne_zero, ha.y_ne_zero])]
  simp only
  rw [if_pos hH, if_neg hr]

/-! ### Normalisation -/

/-- Entry `k` of a normalisation: the triple scaled by the inverse of its Z (R154). -/
theorem jnorm_getElem? {ts : List Jac} (hz : ∀ t ∈ ts, t.Z < P) {k : Nat} {t : Jac} (ht : ts[k]? = some t) :
    ∃ z, z < P ∧ (z : ZMod P) = (t.Z : ZMod P)⁻¹ ∧ (jnorm ts)[k]? = some (jscale t z) := by
  obtain ⟨hc, hl⟩ := invertBatch_cast (xs := ts.map Jac.Z) (by simpa using hz)
  obtain ⟨hk, rfl⟩ := List.getElem?_eq_some_iff.mp ht
  have hk2 : k < (invertBatch (ts.map Jac.Z)).length := by simpa using hk
  refine ⟨(invertBatch (ts.map Jac.Z))[k], hl _ (List.getElem_mem hk2), ?_, ?_⟩
  · have := congrArg (fun l => l[k]?) hc
    simp only [List.getElem?_map, List.getElem?_eq_getElem hk2, List.getElem?_eq_getElem hk, Option.map_some] at this
    exact Option.some.inj this
  · rw [jnorm, List.getElem?_zipWith]
    simp [hk]

/-- A point of the curve is the pair its normalisation gives (R154). -/
theorem jscale_rep {t : Jac} {z : Nat} {A : curve.Point} (r : Rep t A) (h0 : A ≠ 0)
    (hz : (z : ZMod P) = (t.Z : ZMod P)⁻¹) : Rep (lift (jscale t z)) A := by
  rcases point_cases A with rfl | ⟨x, y, h, rfl⟩
  · exact absurd rfl h0
  obtain ⟨z0, ex, ey, hc, x0, y0⟩ := r.coords
  have e : ∀ v, v < P → (BitVec.ofNat 256 v).toNat = v := fun v hv => by
    rw [BitVec.toNat_ofNat, Nat.mod_eq_of_lt (lt_trans hv P_lt)]
  refine rep_some (jscale_lt t z).1 (jscale_lt t z).2 (show 1 < P by decide) (by simp [lift]) ?_ ?_
  · simp only [lift, jscale]; rw [e _ (fmul_lt _ _)]; simp [ex, hz]; field_simp
  · simp only [lift, jscale]; rw [e _ (fmul_lt _ _)]; simp [ey, hz]; field_simp

/-! ### The endomorphism (43_scalar_mult.md R170, R175) -/

theorem beta_cube : (Beta : ZMod P) ^ 3 = 1 := by
  have : ((Beta ^ 3 : Nat) : ZMod P) = ((1 : Nat) : ZMod P) := by rw [ZMod.natCast_eq_natCast_iff']; decide
  simpa using this

theorem beta_curve {x y : ZMod P} (h : curve.Nonsingular x y) : curve.Nonsingular (Beta * x) y := by
  rw [nonsingular_iff] at h ⊢
  rw [mul_pow, beta_cube, one_mul, h]

/-- The endomorphism (x, y) ↦ (β·x, y) on points. -/
def phi : curve.Point → curve.Point
  | .zero => 0
  | .some x y h => .some (Beta * x) y (beta_curve h)

theorem phi_zero : phi 0 = 0 := rfl

theorem beta_ne : (Beta : ZMod P) ≠ 0 := by
  intro h
  have := beta_cube
  rw [h] at this
  norm_num at this

theorem phi_add (A B : curve.Point) : phi (A + B) = phi A + phi B := by
  rcases point_cases A with rfl | ⟨x₁, y₁, h₁, rfl⟩
  · rw [phi_zero, zero_add, zero_add]
  rcases point_cases B with rfl | ⟨x₂, y₂, h₂, rfl⟩
  · rw [phi_zero, add_zero, add_zero]
  have hc₁ := (nonsingular_iff _ _).mp h₁
  have b3 := beta_cube
  have b0 := beta_ne
  by_cases hx : x₁ = x₂
  · by_cases hy : y₁ = -y₂
    · rw [Point.add_of_Y_eq hx (by rw [curve_negY]; exact hy)]
      simp only [phi]
      rw [Point.add_of_Y_eq (by rw [hx]) (by rw [curve_negY]; exact hy)]
    · have hne : y₁ ≠ curve.negY x₂ y₂ := by rw [curve_negY]; exact hy
      have hc₂ := (nonsingular_iff _ _).mp h₂
      have hyy : y₁ = y₂ := by
        subst hx
        have e : (y₁ - y₂) * (y₁ + y₂) = 0 := by linear_combination hc₁ - hc₂
        rcases mul_eq_zero.mp e with h | h
        · exact sub_eq_zero.mp h
        · exact absurd (eq_neg_of_add_eq_zero_left h) hy
      subst hx hyy
      have y0 := y_ne hc₁
      have hne2 : y₁ ≠ curve.negY (Beta * x₁) y₁ := by rw [curve_negY]; exact hy
      have t2 := two_ne
      rw [Point.add_self_of_Y_ne hne]
      simp only [phi]
      rw [Point.add_self_of_Y_ne hne2]
      congr 1
      · rw [curve_addX, curve_addX, slope_self y0, slope_self y0]
        field_simp
        linear_combination (-9 * x₁ ^ 4) * b3
      · rw [curve_addY, curve_addY, slope_self y0, slope_self y0]
        field_simp
        ring_nf
        rw [show (Beta : ZMod P) ^ 6 = (Beta ^ 3) ^ 2 by ring, b3]; ring
  · have hx2 : (Beta : ZMod P) * x₁ ≠ Beta * x₂ := fun h => hx (mul_left_cancel₀ b0 h)
    have d : x₁ - x₂ ≠ 0 := sub_ne_zero.mpr hx
    have d2 : (Beta : ZMod P) * x₁ - Beta * x₂ ≠ 0 := sub_ne_zero.mpr hx2
    rw [Point.add_of_X_ne hx]
    simp only [phi]
    rw [Point.add_of_X_ne hx2]
    have hl : (y₁ - y₂) / (Beta * x₁ - Beta * x₂) = (Beta : ZMod P) ^ 2 * ((y₁ - y₂) / (x₁ - x₂)) := by
      rw [div_eq_iff d2]; field_simp; linear_combination -(y₁ - y₂) * b3
    congr 1
    · rw [curve_addX, curve_addX, slope_ne hx, slope_ne hx2, hl]
      linear_combination (-(Beta : ZMod P) * ((y₁ - y₂) / (x₁ - x₂)) ^ 2) * b3
    · rw [curve_addY, curve_addY, slope_ne hx, slope_ne hx2, hl]
      generalize (y₁ - y₂) / (x₁ - x₂) = l
      have b6 : (Beta : ZMod P) ^ 6 = 1 := by rw [show (Beta : ZMod P) ^ 6 = (Beta ^ 3) ^ 2 by ring, b3]; ring
      ring_nf
      rw [b3, b6]; ring

theorem applyBeta_rep {t : Jac} {A : curve.Point} (r : Rep t A) : Rep (applyBeta t) (phi A) := by
  rcases point_cases A with rfl | ⟨x, y, h, rfl⟩
  · obtain ⟨hx, hy, hz⟩ := rep_zero.mp r
    exact rep_zero.mpr ⟨by simp [applyBeta, hx, fmul], hy, hz⟩
  · obtain ⟨z0, ex, ey, -⟩ := r.coords
    refine rep_some (fmul_lt _ _) r.y r.z z0 ?_ ey
    simp [applyBeta, ex]; ring

end Sys2Proof.Machine
end

