-- ==== Sys2Proof/Laws/Decode.lean ====
section
/-! SUPPORT. What the fields of an assembled command word are (30_encoding.md R81). -/

namespace Sys2Proof

/-- The number an assembled word is, when its fields are in range. -/
theorem assemble_toNat {op rd ra rb imm : Nat} (ho : op < 256) (hd : rd < 32) (ha : ra < 32) (hb : rb < 32)
    (hi : imm < 512) :
    (assemble op rd ra rb imm).toNat = 2 ^ 24 * op + 2 ^ 19 * rd + 2 ^ 14 * ra + 2 ^ 9 * rb + imm := by
  simp only [assemble, BitVec.toNat_ofNat]
  omega

/-- An opcode is an 8-bit field (R81). -/
theorem opcode_lt (i : Instr) : i.opcode < 256 := by cases i <;> simp [Instr.opcode]

variable {op rd ra rb imm : Nat}

theorem opOf_assemble (ho : op < 256) (hd : rd < 32) (ha : ra < 32) (hb : rb < 32) (hi : imm < 512) :
    opOf (assemble op rd ra rb imm) = op := by
  simp only [opOf, assemble_toNat ho hd ha hb hi]
  omega

theorem rdOf_assemble (ho : op < 256) (hd : rd < 32) (ha : ra < 32) (hb : rb < 32) (hi : imm < 512) :
    (rdOf (assemble op rd ra rb imm)).val = rd := by
  simp only [rdOf, assemble_toNat ho hd ha hb hi, Fin.ofNat]
  omega

theorem raOf_assemble (ho : op < 256) (hd : rd < 32) (ha : ra < 32) (hb : rb < 32) (hi : imm < 512) :
    (raOf (assemble op rd ra rb imm)).val = ra := by
  simp only [raOf, assemble_toNat ho hd ha hb hi, Fin.ofNat]
  omega

theorem rbOf_assemble (ho : op < 256) (hd : rd < 32) (ha : ra < 32) (hb : rb < 32) (hi : imm < 512) :
    (rbOf (assemble op rd ra rb imm)).val = rb := by
  simp only [rbOf, assemble_toNat ho hd ha hb hi, Fin.ofNat]
  omega

theorem immOf_assemble (ho : op < 256) (hd : rd < 32) (ha : ra < 32) (hb : rb < 32) (hi : imm < 512) :
    (immOf (assemble op rd ra rb imm)).val = imm := by
  simp only [immOf, assemble_toNat ho hd ha hb hi, Fin.ofNat]
  omega

theorem slotOf_assemble (ho : op < 256) (hd : rd < 32) (ha : ra < 32) (hb : rb < 32) (hi : imm < 512) :
    (slotOf (assemble op rd ra rb imm)).val = imm % 32 := by
  simp only [slotOf, assemble_toNat ho hd ha hb hi, Fin.ofNat]
  omega

theorem auxOf_assemble (ho : op < 256) (hd : rd < 32) (ha : ra < 32) (hb : rb < 32) (hi : imm < 512) :
    auxOf (assemble op rd ra rb imm) = imm / 32 := by
  simp only [auxOf, assemble_toNat ho hd ha hb hi]
  omega

/-- A word is the assembly of its own fields (R81). -/
theorem assemble_fields (w : Cmd) : assemble (opOf w) (rdOf w) (raOf w) (rbOf w) (immOf w) = w := by
  apply BitVec.eq_of_toNat_eq
  have hw : w.toNat < 2 ^ 32 := w.isLt
  simp only [assemble, BitVec.toNat_ofNat, opOf, rdOf, raOf, rbOf, immOf, Fin.ofNat]
  omega

/-- The immediate of a slot command is `slot` and `aux` together (R83(d)). -/
theorem immOf_eq_slot_aux (w : Cmd) : (immOf w).val = auxOf w * 32 + (slotOf w).val := by
  simp only [immOf, auxOf, slotOf, Fin.ofNat]
  omega

/-- The acceptance of a legal command of its format (R86). -/
theorem accept_some {f : Format} {w : Cmd} {i : Instr} (h : f.unusedZero w = true) (hi : i.wf = true) :
    accept f w (some i) = .ok i := by
  have : i.reject = none := by simpa [Instr.wf] using hi
  simp [accept, h, this]

/-- Everything an acceptance can be. -/
theorem accept_eq_ok {f : Format} {w : Cmd} {o : Option Instr} {i : Instr} (h : accept f w o = .ok i) :
    f.unusedZero w = true ∧ o = some i ∧ i.wf = true := by
  unfold accept at h
  split at h
  · next hz =>
    cases o with
    | none => simp at h
    | some j =>
      cases hr : j.reject with
      | some r => simp [hr] at h
      | none =>
        have hji : j = i := by simpa [hr] using h
        subst hji
        exact ⟨hz, rfl, by simp [Instr.wf, hr]⟩
  · simp at h

/-- Everything the fields of an assembled word are, under one name. -/
structure Fields (w : Cmd) (o d a b m : Nat) : Prop where
  op : opOf w = o
  rd : (rdOf w).val = d
  ra : (raOf w).val = a
  rb : (rbOf w).val = b
  imm : (immOf w).val = m
  slot : (slotOf w).val = m % 32
  aux : auxOf w = m / 32

theorem fields_assemble (ho : op < 256) (hd : rd < 32) (ha : ra < 32) (hb : rb < 32) (hi : imm < 512) :
    Fields (assemble op rd ra rb imm) op rd ra rb imm :=
  ⟨opOf_assemble ho hd ha hb hi, rdOf_assemble ho hd ha hb hi, raOf_assemble ho hd ha hb hi,
    rbOf_assemble ho hd ha hb hi, immOf_assemble ho hd ha hb hi, slotOf_assemble ho hd ha hb hi,
    auxOf_assemble ho hd ha hb hi⟩

theorem opOf_lt (w : Cmd) : opOf w < 256 := by
  have := w.isLt
  unfold opOf
  omega

/-- A legality check never answers the must-be-zero rejection, which is the format's. -/
theorem reject_ne_mustBeZero (i : Instr) : i.reject ≠ some .mustBeZero := by
  unfold Instr.reject
  split
  · simp
  · split
    · simp
    · split <;> simp

/-- A word of a known opcode is rejected for its must-be-zero bits exactly when its format says so (R82, R86). -/
theorem accept_eq_mustBeZero (f : Format) (w : Cmd) (o : Option Instr) :
    accept f w o = .error .mustBeZero ↔ f.unusedZero w = false := by
  unfold accept
  split
  · next h =>
    simp only [h, Bool.true_eq_false, iff_false]
    cases o with
    | none => simp
    | some i =>
      cases hr : i.reject with
      | none => simp [hr]
      | some r =>
        simp only [hr, Except.error.injEq]
        rintro rfl
        exact reject_ne_mustBeZero i hr
  · next h => simpa using h

/-- A field of a word is zero exactly when its bits are. -/
theorem field_eq_zero (w : Cmd) (k n : Nat) :
    (w.toNat / 2 ^ k) % 2 ^ n = 0 ↔ ∀ i, i < n → w.getLsbD (k + i) = false := by
  rw [← Nat.shiftRight_eq_div_pow]
  constructor
  · intro h i hi
    have := congrArg (fun x => x.testBit i) h
    simpa [hi, BitVec.getLsbD] using this
  · intro h
    apply Nat.eq_of_testBit_eq
    intro i
    by_cases hi : i < n
    · simpa [hi, BitVec.getLsbD] using h i hi
    · simp [hi]

end Sys2Proof
end

