-- ==== Sys2Proof/Laws/Scalar.lean ====
section
/-! SUPPORT. Scalar multiplication (43_scalar_mult.md): the GLV split is exact, the digits of a scalar sum to it, a table
holds the multiples R173 says, SMUL's and SMULU's results stand for the multiple of the point. -/

namespace Sys2Proof.Machine

open Sys2Proof.Laws.Prime
open WeierstrassCurve.Affine

/-! ### The GLV split (R171) -/

/-- the nearest integer of a / n -/
theorem roundDivN_spec (a : Nat) : 2 * ((a : Int) - roundDivN a * N) ≤ N ∧ -(N : Int) ≤ 2 * ((a : Int) - roundDivN a * N) := by
  have h := Nat.mod_add_div (N / 2 + a) N
  have hl := Nat.mod_lt (N / 2 + a) N_pos
  have hodd : N = 2 * (N / 2) + 1 := by decide
  unfold roundDivN
  generalize (N / 2 + a) / N = q at *
  generalize (N / 2 + a) % N = r at *
  have : (r : Int) + N * q = (N / 2 : Nat) + a := by exact_mod_cast h
  constructor <;> nlinarith

theorem half_spec {k : Int} (hk : -(2:Int) ^ 128 ≤ k ∧ k ≤ (2:Int) ^ 128) :
    (halfSign (residue k N)).1 ≤ 2 ^ 128 ∧ signed (halfSign (residue k N)).2 (halfSign (residue k N)).1 = k := by
  have hN : (2 : Int) ^ 128 * 2 < N := by decide
  have hp : Pow128 = 2 ^ 128 := by decide
  rcases lt_or_ge k 0 with h | h
  · have : ((residue k N : Nat) : Int) = N + k := by
      rw [residue_cast_int _ N_pos, ← Int.add_emod_left, Int.emod_eq_of_lt] <;> omega
    have h2 : residue k N > Pow128 := by rw [hp]; omega
    simp only [halfSign, h2, if_true, signed]
    omega
  · have : ((residue k N : Nat) : Int) = k := by
      rw [residue_cast_int _ N_pos, Int.emod_eq_of_lt] <;> omega
    have h2 : ¬residue k N > Pow128 := by rw [hp]; omega
    simp only [halfSign, h2, if_false, signed]
    refine ⟨by omega, by simpa using this⟩

/-- The size of a half, from its distance to the lattice. -/
theorem half_bound {n a b u v K M : Int} (hn : 0 < n) (e : n * K = a * u + b * v) (ha : 0 ≤ a) (hb : 0 ≤ b)
    (hs : a + b ≤ 2 * M) (hu : 2 * u ≤ n ∧ -n ≤ 2 * u) (hv : 2 * v ≤ n ∧ -n ≤ 2 * v) : -M ≤ K ∧ K ≤ M := by
  have x1 := mul_le_mul_of_nonneg_left hu.1 ha
  have x2 := mul_le_mul_of_nonneg_left hu.2 ha
  have y1 := mul_le_mul_of_nonneg_left hv.1 hb
  have y2 := mul_le_mul_of_nonneg_left hv.2 hb
  have z := mul_le_mul_of_nonneg_left hs hn.le
  constructor
  · by_contra hcon
    have := mul_lt_mul_of_pos_left (not_le.mp hcon) hn
    linarith
  · by_contra hcon
    have := mul_lt_mul_of_pos_left (not_le.mp hcon) hn
    linarith

theorem glvSplit_eq (k : Nat) : glvSplit k = Split.ofHalves
    (halfSign (residue ((k : Int) - (A1 : Int) * (roundDivN (B2 * k) : Int) - (A2 : Int) * (roundDivN (NB1 * k) : Int)) N))
    (halfSign (residue ((NB1 : Int) * (roundDivN (B2 * k) : Int) - (B2 : Int) * (roundDivN (NB1 * k) : Int)) N)) := rfl

theorem glv_bounds (k : Nat) {c1 c2 : Nat} (a : 2 * (((B2 * k : Nat) : Int) - c1 * N) ≤ N ∧ -(N : Int) ≤ 2 * (((B2 * k : Nat) : Int) - c1 * N))
    (b : 2 * (((NB1 * k : Nat) : Int) - c2 * N) ≤ N ∧ -(N : Int) ≤ 2 * (((NB1 * k : Nat) : Int) - c2 * N)) :
    (-(2:Int) ^ 128 ≤ (k : Int) - A1 * c1 - A2 * c2 ∧ (k : Int) - A1 * c1 - A2 * c2 ≤ (2:Int) ^ 128) ∧
    (-(2:Int) ^ 128 ≤ (NB1 : Int) * c1 - B2 * c2 ∧ (NB1 : Int) * c1 - B2 * c2 ≤ (2:Int) ^ 128) := by
  have hdet : (A1 : Int) * B2 + A2 * NB1 = N := by decide
  constructor
  · refine half_bound (n := N) (a := A1) (b := A2) (u := (B2 * k : Nat) - c1 * N) (v := (NB1 * k : Nat) - c2 * N) (by decide) ?_ (by decide) (by decide) (by decide) a b
    rw [← hdet]; push_cast; ring
  · refine half_bound (n := N) (a := NB1) (b := B2) (u := c1 * N - (B2 * k : Nat)) (v := (NB1 * k : Nat) - c2 * N) (by decide) ?_ (by decide) (by decide) (by decide) ⟨?_, ?_⟩ b
    · push_cast; ring
    · linarith [a.2]
    · linarith [a.1]

theorem glv_congr (k c1 c2 : Int) : (N : Int) ∣ k - ((k - A1 * c1 - A2 * c2) + (NB1 * c1 - B2 * c2) * Lambda) := by
  have l1 : (N : Int) ∣ (A1 : Int) - NB1 * Lambda := by decide
  have l2 : (N : Int) ∣ (A2 : Int) + B2 * Lambda := by decide
  have : k - (k - A1 * c1 - A2 * c2 + (NB1 * c1 - B2 * c2) * Lambda) = c1 * (A1 - NB1 * Lambda) + c2 * (A2 + B2 * Lambda) := by ring
  rw [this]
  exact dvd_add (Dvd.dvd.mul_left l1 _) (Dvd.dvd.mul_left l2 _)

theorem ofHalves_spec (k : Nat) {k1 k2 : Int} (b1 : -(2:Int) ^ 128 ≤ k1 ∧ k1 ≤ (2:Int) ^ 128) (b2 : -(2:Int) ^ 128 ≤ k2 ∧ k2 ≤ (2:Int) ^ 128)
    (h : (N : Int) ∣ k - (k1 + k2 * Lambda)) (p : Split) (hp : p = Split.ofHalves (halfSign (residue k1 N)) (halfSign (residue k2 N))) :
    p.overflows = false ∧ p.k1 ≤ 2 ^ 128 ∧ p.k2 ≤ 2 ^ 128 ∧
    ((k : Int) - (signed p.k1neg p.k1 + signed p.k2neg p.k2 * Lambda)) % N = 0 := by
  obtain ⟨p1, p2⟩ := half_spec b1
  obtain ⟨q1, q2⟩ := half_spec b2
  generalize halfSign (residue k1 N) = h1 at *
  generalize halfSign (residue k2 N) = h2 at *
  subst hp
  have hp : Pow128 = 2 ^ 128 := by decide
  refine ⟨?_, p1, q1, ?_⟩
  · simp only [Split.overflows, Split.ofHalves, hp, gt_iff_lt, Bool.or_eq_false_iff, decide_eq_false_iff_not, not_lt]
    exact ⟨p1, q1⟩
  · simp only [Split.ofHalves]
    rw [p2, q2]
    exact Int.emod_eq_zero_of_dvd h

theorem glvSplit_spec {k : Nat} : (glvSplit k).overflows = false ∧ (glvSplit k).k1 ≤ 2 ^ 128 ∧ (glvSplit k).k2 ≤ 2 ^ 128 ∧
    ((k : Int) - (signed (glvSplit k).k1neg (glvSplit k).k1 + signed (glvSplit k).k2neg (glvSplit k).k2 * Lambda)) % N = 0 :=
  let b := glv_bounds k (roundDivN_spec (B2 * k)) (roundDivN_spec (NB1 * k))
  ofHalves_spec k b.1 b.2 (glv_congr k _ _) _ (glvSplit_eq k)

/-! ### Digits of a scalar (R174) -/

theorem wnafDigit_spec (w : WSize) (m : Nat) :
    (m : Int) = (wnafDigit w m).1 + 2 ^ w.val * ((wnafDigit w m).2 : Int) ∧ -(halfOf w : Int) < (wnafDigit w m).1 ∧
      (wnafDigit w m).1 ≤ halfOf w := by
  have h := Nat.mod_add_div m (2 ^ w.val)
  have hl := Nat.mod_lt m (show 0 < 2 ^ w.val by positivity)
  have h2 : 2 ^ w.val = 2 * halfOf w := by cases w <;> rfl
  have hpos : 0 < halfOf w := by cases w <;> decide
  simp only [wnafDigit]
  have hc : (2 : Int) ^ w.val = 2 * halfOf w := by exact_mod_cast h2
  rw [hc]
  rw [h2] at h hl ⊢
  clear hc h2
  generalize halfOf w = hf at *
  generalize hq : m / (2 * hf) = q at *
  generalize hr : m % (2 * hf) = r at *
  rw [← h]
  split
  · push_cast
    refine ⟨by ring, by omega, by omega⟩
  · push_cast
    refine ⟨by ring, by omega, by omega⟩

theorem wnafDigit_rest (w : WSize) (m b : Nat) (h : m ≤ 2 ^ w.val * b) : (wnafDigit w m).2 ≤ b := by
  obtain ⟨h1, h2, h3⟩ := wnafDigit_spec w m
  have h4 : 2 ^ w.val = 2 * halfOf w := by cases w <;> rfl
  have hpos : 0 < halfOf w := by cases w <;> decide
  have hc : (2 : Int) ^ w.val = 2 * halfOf w := by exact_mod_cast h4
  by_contra hcon
  have : b + 1 ≤ (wnafDigit w m).2 := by omega
  rw [hc] at h1
  rw [h4] at h
  have hm : (2 * (halfOf w : Int)) * (b + 1) ≤ 2 * halfOf w * (wnafDigit w m).2 := by
    apply mul_le_mul_of_nonneg_left <;> omega
  have : ((m : Nat) : Int) ≤ 2 * halfOf w * b := by exact_mod_cast h
  nlinarith

theorem two_half (w : WSize) : 2 * halfOf w = 2 ^ w.val := by cases w <;> rfl

theorem half_pos (w : WSize) : 0 < halfOf w := by cases w <;> decide

variable [Fact (Nat.Prime P)]

/-! ### SMULU (R180) -/

theorem doubleAndAdd_rep {q : Jac} {Q : curve.Point} (rq : Rep q Q) (k : Nat) : ∀ (i : Nat) (acc : Jac) (B : curve.Point),
    Rep acc B → Rep (doubleAndAdd k q i acc) (2 ^ i • B + (k % 2 ^ i) • Q) := by
  intro i
  induction i with
  | zero => intro acc B h; simpa [doubleAndAdd, Nat.mod_one] using h
  | succ i ih =>
    intro acc B h
    have key : (k % 2 ^ (i + 1)) = 2 ^ i * (k.testBit i).toNat + k % 2 ^ i := by
      rw [Nat.mod_pow_succ, Nat.testBit_eq_decide_div_mod_eq]
      rcases Nat.mod_two_eq_zero_or_one (k / 2 ^ i) with h | h <;> simp [h]; omega
    rw [key]
    have hd := jdbl_rep h
    simp only [doubleAndAdd]
    cases hb : k.testBit i
    · have := ih _ _ hd
      simp only [Bool.false_eq_true, if_false, Bool.toNat_false, Nat.mul_zero, Nat.zero_add]
      rwa [← two_nsmul, ← mul_nsmul', mul_comm, ← pow_succ'] at this
    · have := ih _ _ (jadd_rep hd rq)
      simp only [if_true, Bool.toNat_true, Nat.mul_one]
      rw [← two_nsmul, nsmul_add, ← mul_nsmul', mul_comm, ← pow_succ'] at this
      rwa [add_nsmul, ← add_assoc]

theorem multiplyUnsafe_rep {q : Jac} {Q : curve.Point} (rq : Rep q Q) {k : Nat} (hk : k < 2 ^ 256) :
    Rep (multiplyUnsafe k q) (k • Q) := by
  have := doubleAndAdd_rep rq k 256 jzero 0 rep_jzero
  rwa [nsmul_zero, zero_add, Nat.mod_eq_of_lt hk] at this

omit [Fact (Nat.Prime P)] in
theorem doubleAndAdd_z {q : Jac} (hq : q.Z = 0) (k : Nat) : ∀ (i : Nat) (acc : Jac), acc.Z = 0 →
    (doubleAndAdd k q i acc).Z = 0 := by
  intro i
  induction i with
  | zero => exact fun _ h => h
  | succ i ih =>
    intro acc h
    simp only [doubleAndAdd]
    split
    · exact ih _ (jadd_z (jdbl_z h) hq)
    · exact ih _ (jdbl_z h)

/-- SMULU's loop multiplies, whatever triple stands for the identity (R180). -/
theorem multiplyUnsafe_stands {q : Jac} {Q : curve.Point} (hx : q.X < P) (hy : q.Y < P) (hz : q.Z < P)
    (h : Stands q Q) {k : Nat} (hk : k < 2 ^ 256) : Stands (multiplyUnsafe k q) (k • Q) := by
  by_cases h0 : Q = 0
  · subst h0
    rw [nsmul_zero]
    show (multiplyUnsafe k q).Z % P = 0
    rw [multiplyUnsafe, doubleAndAdd_z (eq_zero_of h hz) k 256 jzero rfl, Nat.zero_mod]
  · exact (multiplyUnsafe_rep (rep_of_ne hx hy hz h h0) hk).stands

/-! ### Tables (R173) -/

theorem windowRow_rep {q : Jac} {Q : curve.Point} (rq : Rep q Q) : ∀ (n : Nat) (base : Jac) (B : curve.Point), Rep base B →
    ∀ i, i < n → ∃ t, (windowRow q n base)[i]? = some t ∧ Rep t (B + i • Q) := by
  intro n
  induction n with
  | zero => intro _ _ _ i hi; omega
  | succ n ih =>
    intro base B h i hi
    cases i with
    | zero => exact ⟨base, by simp [windowRow], by simpa using h⟩
    | succ i =>
      obtain ⟨t, ht, r⟩ := ih _ _ (jadd_rep h rq) i (by omega)
      refine ⟨t, by simpa [windowRow] using ht, ?_⟩
      rwa [add_assoc, ← succ_nsmul'] at r

theorem windowRows_rep {half : Nat} (h0 : 0 < half) : ∀ (cnt : Nat) (q : Jac) (Q : curve.Point), Rep q Q →
    ∀ w i, w < cnt → i < half → ∃ t, (windowRows half cnt q)[w * half + i]? = some t ∧ Rep t (((i + 1) * (2 * half) ^ w) • Q) := by
  intro cnt
  induction cnt with
  | zero => intro _ _ _ w i hw; omega
  | succ cnt ih =>
    intro q Q rq w i hw hi
    have hrow := windowRow_rep rq half q Q rq
    cases w with
    | zero =>
      obtain ⟨t, ht, r⟩ := hrow i hi
      refine ⟨t, ?_, ?_⟩
      · rw [windowRows, Nat.zero_mul, Nat.zero_add, List.getElem?_append_left (by simpa using hi)]; exact ht
      · simpa [add_nsmul, add_comm] using r
    | succ w =>
      obtain ⟨l, hl, rl⟩ := hrow (half - 1) (by omega)
      have hlast : (windowRow q half q).getLastD q = l := by
        rw [List.getLastD_eq_getLast?, List.getLast?_eq_getElem?, windowRow_length, hl]; rfl
      have ra := jdbl_rep rl
      have e : Q + (half - 1) • Q = half • Q := by
        rw [← succ_nsmul', Nat.sub_add_cancel h0]
      rw [e, ← two_nsmul, ← mul_nsmul'] at ra
      obtain ⟨t, ht, r⟩ := ih _ _ ra w i (by omega) hi
      refine ⟨t, ?_, ?_⟩
      · rw [windowRows, List.getElem?_append_right (by rw [windowRow_length]; nlinarith)]
        rw [windowRow_length, show (w + 1) * half + i - half = w * half + i by rw [Nat.succ_mul]; omega]
        rw [hlast]; exact ht
      · rw [← mul_nsmul'] at r
        rw [pow_succ, show (i + 1) * ((2 * half) ^ w * (2 * half)) = (i + 1) * (2 * half) ^ w * (2 * half) by ring]
        exact r


/-- Entry of a computed table (R173). -/
theorem wtable_rep {a : Affine} {A : curve.Point} (ra : Rep (lift a) A) (w : WSize) {i j : Nat} (hi : i < windowsOf w)
    (hj : j < halfOf w) : ∃ t, (wtable a w)[i * halfOf w + j]? = some t ∧ Rep t (((j + 1) * 2 ^ (w.val * i)) • A) := by
  obtain ⟨t, h1, h2⟩ := windowRows_rep (half_pos w) (windowsOf w) _ _ ra i j hi hj
  rw [two_half, ← pow_mul] at h2
  exact ⟨t, h1, h2⟩

theorem wtable_z {a : Affine} {A : curve.Point} (ra : Rep (lift a) A) (w : WSize) : ∀ t ∈ wtable a w, t.Z < P := by
  intro t ht
  obtain ⟨k, hk, rfl⟩ := List.getElem_of_mem ht
  have hlen : (wtable a w).length = windowsOf w * halfOf w := by simp [wtable]
  have hd := Nat.div_add_mod' k (halfOf w)
  obtain ⟨t, h1, h2⟩ := wtable_rep ra w (i := k / halfOf w) (j := k % halfOf w)
    (Nat.div_lt_of_lt_mul (by rw [mul_comm, ← hlen]; exact hk)) (Nat.mod_lt _ (half_pos w))
  rw [hd, List.getElem?_eq_getElem hk] at h1
  rw [Option.some.inj h1]; exact h2.z

end Sys2Proof.Machine
end

