-- ==== Sys2Proof/Laws/Order.lean ====
section
/-! SUPPORT. The group of the curve has order n (43_scalar_mult.md R173, R182): the base point has order n, every point is a
multiple of it, and the endomorphism (x, y) ↦ (β·x, y) is multiplication by λ (R170). -/

namespace Sys2Proof.Machine

open Sys2Proof.Laws.Prime
open WeierstrassCurve.Affine

variable [Fact (Nat.Prime P)]

theorem base_eq : (Gy : ZMod P) ^ 2 = (Gx : ZMod P) ^ 3 + 7 := by
  have : ((Gy ^ 2 : Nat) : ZMod P) = ((Gx ^ 3 + 7 : Nat) : ZMod P) := by rw [ZMod.natCast_eq_natCast_iff']; decide
  simpa using this

/-- The base point. -/
def baseG : curve.Point := .some Gx Gy ((nonsingular_iff _ _).mpr base_eq)

/-- The base point's triple. -/
def baseJac : Jac := ⟨Gx, Gy, 1⟩

theorem rep_base : Rep baseJac baseG :=
  rep_some (by decide) (by decide) (by decide) (by simp [baseJac]) (by simp [baseJac]) (by simp [baseJac])

theorem baseG_ne : baseG ≠ 0 := Point.some_ne_zero _

theorem N_base : N • baseG = 0 := by
  have r := multiplyUnsafe_rep rep_base (k := N) (by decide)
  rcases point_cases (N • baseG) with h | ⟨x, y, h, e⟩
  · exact h
  · rw [e] at r
    have hz : (multiplyUnsafe N baseJac).Z = 0 := by decide +kernel
    exact absurd (by rw [hz]; rfl) r.stands.1

theorem lambda_base : Lambda • baseG = phi baseG := by
  have r := multiplyUnsafe_rep rep_base (k := Lambda) (by decide)
  have r2 := applyBeta_rep rep_base
  have hs := jadd_rep r (jneg_rep r2)
  have hz : (jadd (multiplyUnsafe Lambda baseJac) (jneg (applyBeta baseJac))).Z = 0 := by decide +kernel
  rcases point_cases (Lambda • baseG + -phi baseG) with h | ⟨x, y, h, e⟩
  · exact add_neg_eq_zero.mp h
  · rw [e] at hs
    exact absurd (by rw [hz]; rfl) hs.stands.1

/-- A point by its x and the parity of its y. -/
def mark : curve.Point → Option (ZMod P × Bool)
  | .zero => none
  | .some x y _ => some (x, decide (y.val % 2 = 0))

theorem mark_injective : Function.Injective mark := by
  intro A B h
  rcases point_cases A with rfl | ⟨x₁, y₁, h₁, rfl⟩ <;> rcases point_cases B with rfl | ⟨x₂, y₂, h₂, rfl⟩
  · rfl
  · cases (show (none : Option (ZMod P × Bool)) = some (x₂, decide (y₂.val % 2 = 0)) from h)
  · cases (show some (x₁, decide (y₁.val % 2 = 0)) = (none : Option (ZMod P × Bool)) from h)
  · simp only [mark, Option.some.injEq, Prod.mk.injEq, decide_eq_decide] at h
    obtain ⟨rfl, hp⟩ := h
    have c₁ := (nonsingular_iff _ _).mp h₁
    have c₂ := (nonsingular_iff _ _).mp h₂
    have e : (y₁ - y₂) * (y₁ + y₂) = 0 := by linear_combination c₁ - c₂
    rcases mul_eq_zero.mp e with h | h
    · have := sub_eq_zero.mp h; subst this; rfl
    · have hy : y₁ = -y₂ := eq_neg_of_add_eq_zero_left h
      exfalso
      have : NeZero y₂ := ⟨y_ne c₂⟩
      have hv : y₁.val = P - y₂.val := by rw [hy]; exact ZMod.val_neg_of_ne_zero y₂
      have hlt : y₂.val < P := ZMod.val_lt y₂
      have hodd : P % 2 = 1 := by decide
      omega

theorem finite_points : Finite curve.Point := Finite.of_injective mark mark_injective

theorem card_le : Nat.card curve.Point ≤ 2 * P + 1 := by
  have h := Nat.card_le_card_of_injective mark mark_injective
  have e : Nat.card (Option (ZMod P × Bool)) = 2 * P + 1 := by
    rw [Finite.card_option, Nat.card_prod, Nat.card_zmod]
    simp [mul_comm]
  rwa [e] at h

theorem no_two_torsion {A : curve.Point} (h : A + A = 0) : A = 0 := by
  rcases point_cases A with rfl | ⟨x, y, hns, rfl⟩
  · rfl
  · have c := (nonsingular_iff _ _).mp hns
    have hne : y ≠ curve.negY x y := by
      rw [curve_negY]; intro e
      rcases mul_eq_zero.mp (show 2 * y = 0 by linear_combination e) with h | h
      · exact two_ne h
      · exact y_ne c h
    rw [Point.add_self_of_Y_ne hne] at h
    exact absurd h (Point.some_ne_zero _)

/-- Every point is a multiple of the base point: the group has order n. -/
theorem exists_multiple (A : curve.Point) : ∃ k : Nat, A = k • baseG := by
  have := finite_points
  have : Fact (Nat.Prime N) := ⟨N_prime⟩
  have ho : addOrderOf baseG = N := addOrderOf_eq_prime N_base baseG_ne
  have hcard : Nat.card (AddSubgroup.zmultiples baseG) = N := by rw [Nat.card_zmultiples, ho]
  have hidx := AddSubgroup.card_mul_index (AddSubgroup.zmultiples baseG)
  rw [hcard] at hidx
  have hle := card_le
  have hpos : 0 < Nat.card curve.Point := Nat.card_pos
  have hlt : (AddSubgroup.zmultiples baseG).index < 3 := by
    by_contra hc
    have h3 : N * 3 ≤ N * (AddSubgroup.zmultiples baseG).index := Nat.mul_le_mul_left _ (by omega)
    have : 2 * P + 1 < N * 3 := by decide
    omega
  have h0 : (AddSubgroup.zmultiples baseG).index ≠ 0 := by
    intro h; rw [h, Nat.mul_zero] at hidx; omega
  have h2 : (AddSubgroup.zmultiples baseG).index ≠ 2 := by
    intro h
    rw [h] at hidx
    obtain ⟨T, hT⟩ := exists_prime_addOrderOf_dvd_card' (G := curve.Point) 2 (by rw [← hidx]; exact Dvd.intro_left _ rfl)
    have : T + T = 0 := by rw [← two_nsmul, ← hT]; exact addOrderOf_nsmul_eq_zero T
    have hz := no_two_torsion this
    rw [hz, addOrderOf_zero] at hT
    omega
  have h1 : (AddSubgroup.zmultiples baseG).index = 1 := by omega
  rw [AddSubgroup.index_eq_one] at h1
  have hm : A ∈ AddSubgroup.zmultiples baseG := by rw [h1]; trivial
  obtain ⟨z, hz⟩ := AddSubgroup.mem_zmultiples_iff.mp hm
  refine ⟨(z % (N : Int)).toNat, ?_⟩
  rw [← hz, ← natCast_zsmul, Int.toNat_of_nonneg (Int.emod_nonneg _ (by decide)), ← ho, mod_addOrderOf_zsmul]

theorem order_dvd (A : curve.Point) : N • A = 0 := by
  obtain ⟨k, rfl⟩ := exists_multiple A
  rw [← mul_nsmul', mul_comm, mul_nsmul', N_base, nsmul_zero]

/-- A multiple of A depends on the scalar modulo n alone. -/
theorem mod_nsmul (k : Nat) (A : curve.Point) : (k % N) • A = k • A := by
  conv_rhs => rw [← Nat.mod_add_div k N, add_nsmul, mul_nsmul, order_dvd, nsmul_zero, add_zero]

/-- No multiple of a point other than the identity by 1 to n − 1 is the identity. -/
theorem smul_ne {A : curve.Point} (hA : A ≠ 0) {k : Nat} (h : ¬N ∣ k) : k • A ≠ 0 := by
  have : Fact (Nat.Prime N) := ⟨N_prime⟩
  have ho : addOrderOf A = N := addOrderOf_eq_prime (order_dvd A) hA
  rw [ne_eq, ← addOrderOf_dvd_iff_nsmul_eq_zero, ho]
  exact h

theorem phi_nsmul (k : Nat) (A : curve.Point) : phi (k • A) = k • phi A := by
  induction k with
  | zero => simp [phi_zero]
  | succ k ih => rw [succ_nsmul, succ_nsmul, phi_add, ih]

theorem phi_neg (A : curve.Point) : phi (-A) = -phi A := by
  rw [eq_neg_iff_add_eq_zero, ← phi_add, neg_add_cancel, phi_zero]

theorem phi_eq (A : curve.Point) : phi A = Lambda • A := by
  obtain ⟨k, rfl⟩ := exists_multiple A
  rw [phi_nsmul, ← lambda_base, ← mul_nsmul', ← mul_nsmul', mul_comm]

end Sys2Proof.Machine
end

