-- ==== Sys2Proof/Laws/Multiply.lean ====
section
/-! SUPPORT. What `wnaf`, a stored table and `multiply` compute, in the group of the curve (43_scalar_mult.md R173 to
R175). -/

namespace Sys2Proof.Machine

open Sys2Proof.Laws.Prime
open WeierstrassCurve.Affine

/-- What is left of a scalar after `count` windows. -/
def wnafRest (w : WSize) : (count m : Nat) → Nat
  | 0, m => m
  | count + 1, m => wnafRest w count (wnafDigit w m).2

theorem wnafRest_zero (w : WSize) : ∀ n m : Nat, m ≤ 2 ^ (w.val * n) → wnafRest w (n + 1) m = 0 := by
  intro n
  induction n with
  | zero =>
    intro m hm
    have : m = 0 ∨ m = 1 := by
      have : m ≤ 1 := by simpa using hm
      omega
    rcases this with rfl | rfl <;> cases w <;> decide
  | succ n ih =>
    intro m hm
    show wnafRest w (n + 1) (wnafDigit w m).2 = 0
    apply ih
    apply wnafDigit_rest
    rw [Nat.mul_succ, pow_add] at hm
    rwa [Nat.mul_comm]

theorem wnafRest_windows (w : WSize) {m : Nat} (hm : m ≤ 2 ^ 128) : wnafRest w (windowsOf w) m = 0 :=
  wnafRest_zero w (128 / w.val) m (by cases w <;> simpa [WSize.val] using hm)

variable [Fact (Nat.Prime P)]

/-- A table that holds the multiples of A (R173). -/
def TableOf (w : WSize) (table : List Affine) (A : curve.Point) : Prop :=
  ∀ i j, i < windowsOf w → j < halfOf w →
    Rep (lift (tableEntry table (i * halfOf w + j))) (((j + 1) * 2 ^ (w.val * i)) • A)

theorem digitPoint_rep {w : WSize} {table : List Affine} {A : curve.Point} (hT : TableOf w table A) {i : Nat}
    (hi : i < windowsOf w) {d : Int} (h0 : d ≠ 0) (hl : -(halfOf w : Int) < d) (hu : d ≤ halfOf w) :
    Rep (digitPoint w table i d) ((d * 2 ^ (w.val * i)) • A) := by
  have h := hT i (d.natAbs - 1) hi (by omega)
  rw [show d.natAbs - 1 + 1 = d.natAbs by omega, ← Nat.add_sub_assoc (by omega)] at h
  rw [digitPoint]
  split
  · next hneg =>
    have e : (d * 2 ^ (w.val * i)) • A = -((d.natAbs * 2 ^ (w.val * i)) • A) := by
      rw [← natCast_zsmul, ← neg_zsmul]
      congr 1
      push_cast
      rw [abs_of_neg hneg]; ring
    rw [e]
    exact jneg_rep h
  · next hneg =>
    have e : (d * 2 ^ (w.val * i)) • A = (d.natAbs * 2 ^ (w.val * i)) • A := by
      rw [← natCast_zsmul]
      congr 1
      push_cast
      rw [abs_of_nonneg (by omega)]
    rw [e]
    exact h

theorem pseudoPoint_rep {w : WSize} {table : List Affine} {A : curve.Point} (hT : TableOf w table A) {i : Nat}
    (hi : i < windowsOf w) : ∃ B, Rep (pseudoPoint w table i) B := by
  have h := hT i 0 hi (half_pos w)
  rw [Nat.add_zero] at h
  rw [pseudoPoint]
  split
  · exact ⟨_, jneg_rep h⟩
  · exact ⟨_, h⟩

theorem wnafFrom_rep {w : WSize} {table : List Affine} {A : curve.Point} (hT : TableOf w table A) :
    ∀ (count i m : Nat) (p f : Jac) (B C : curve.Point), i + count ≤ windowsOf w → Rep p B → Rep f C →
      Rep (wnafFrom w table count i m p f).1
        (B + (2 ^ (w.val * i) * ((m : Int) - 2 ^ (w.val * count) * wnafRest w count m)) • A) ∧
      ∃ D, Rep (wnafFrom w table count i m p f).2 D := by
  intro count
  induction count with
  | zero => intro i m p f B C _ hp hf; exact ⟨by simpa [wnafFrom, wnafRest] using hp, C, hf⟩
  | succ n ih =>
    intro i m p f B C hi hp hf
    obtain ⟨e, hl, hu⟩ := wnafDigit_spec w m
    have hiw : i < windowsOf w := by omega
    have key : (2 : Int) ^ (w.val * i) * ((m : Int) - 2 ^ (w.val * (n + 1)) * wnafRest w (n + 1) m) =
        (wnafDigit w m).1 * 2 ^ (w.val * i) +
          2 ^ (w.val * (i + 1)) * (((wnafDigit w m).2 : Int) - 2 ^ (w.val * n) * wnafRest w n (wnafDigit w m).2) := by
      show (2 : Int) ^ (w.val * i) * ((m : Int) - 2 ^ (w.val * (n + 1)) * wnafRest w n (wnafDigit w m).2) = _
      rw [e]
      generalize ((wnafRest w n (wnafDigit w m).2 : Nat) : Int) = r
      rw [Nat.mul_succ, Nat.mul_succ, pow_add, pow_add]; ring
    rw [key, add_zsmul, ← add_assoc]
    simp only [wnafFrom]
    split
    · next h0 =>
      rw [h0, zero_mul, zero_zsmul, add_zero]
      obtain ⟨D, hD⟩ := pseudoPoint_rep hT hiw
      exact ih (i + 1) _ _ _ B (C + D) (by omega) hp (jadd_rep hf hD)
    · next h0 =>
      exact ih (i + 1) _ _ _ _ C (by omega) (jadd_rep hp (digitPoint_rep hT hiw h0 hl hu)) hf

/-- `wnaf` of a scalar up to 2^128 over the table of A gives the multiple of A (R174). -/
theorem wnaf_rep {w : WSize} {table : List Affine} {A : curve.Point} (hT : TableOf w table A) {m : Nat} (hm : m ≤ 2 ^ 128) :
    Rep (wnaf m table w).1 (m • A) ∧ ∃ D, Rep (wnaf m table w).2 D := by
  have := wnafFrom_rep hT (windowsOf w) 0 m jzero jzero 0 0 (by omega) rep_jzero rep_jzero
  rw [wnafRest_windows w hm] at this
  simpa [wnaf] using this

theorem negIf_rep {t : Jac} {A : curve.Point} {k : Nat} (h : Rep t (k • A)) (b : Bool) : Rep (negIf b t) (signed b k • A) := by
  cases b
  · simpa [negIf, signed] using h
  · simpa [negIf, signed] using jneg_rep h

/-- The table computed from an anchor (R173, R175). -/
theorem storedTable_rep {a : Affine} {A : curve.Point} (ra : Rep (lift a) A) (h0 : A ≠ 0) (w : WSize) :
    TableOf w (storedTable a w) A := by
  intro i j hi hj
  obtain ⟨t, ht, rt⟩ := wtable_rep ra w hi hj
  obtain ⟨z, -, hz, hs⟩ := jnorm_getElem? (wtable_z ra w) ht
  have hne : ((j + 1) * 2 ^ (w.val * i)) • A ≠ 0 := by
    apply smul_ne h0
    intro hd
    have hw : w.val * i ≤ 128 := by
      cases w <;> simp [WSize.val, windowsOf] at hi ⊢ <;> omega
    have hb : (j + 1) * 2 ^ (w.val * i) ≤ 128 * 2 ^ 128 := by
      have : j + 1 ≤ 128 := by cases w <;> simp [halfOf, WSize.val] at hj ⊢ <;> omega
      exact Nat.mul_le_mul this (Nat.pow_le_pow_right (by decide) hw)
    have := Nat.le_of_dvd (by positivity) hd
    have hN : 128 * 2 ^ 128 < N := by decide
    omega
  have := jscale_rep rt hne hz
  rw [tableEntry, storedTable, hs]
  exact this

/-- SMUL's result from a table of A is k·A (R175). -/
theorem multiply_rep {w : WSize} {table : List Affine} {A : curve.Point} (hT : TableOf w table A) (h0 : A ≠ 0) {k : Nat}
    (hk0 : k ≠ 0) (hk : k < N) : Rep (lift (multiply k table w)) (k • A) := by
  obtain ⟨-, b1, b2, hc⟩ := glvSplit_spec (k := k)
  obtain ⟨r1, D1, f1⟩ := wnaf_rep hT b1
  obtain ⟨r2, D2, f2⟩ := wnaf_rep hT b2
  have p1 := negIf_rep r1 (glvSplit k).k1neg
  have p2 := applyBeta_rep (negIf_rep r2 (glvSplit k).k2neg)
  have pt := jadd_rep p1 p2
  have fk := jadd_rep f1 f2
  have e : signed (glvSplit k).k1neg (glvSplit k).k1 • A + phi (signed (glvSplit k).k2neg (glvSplit k).k2 • A) = k • A := by
    rw [phi_eq, ← natCast_zsmul _ Lambda, ← mul_zsmul, ← add_zsmul, ← natCast_zsmul, ← sub_eq_zero, ← sub_smul]
    obtain ⟨c, hc⟩ := Int.dvd_of_emod_eq_zero hc
    rw [show signed (glvSplit k).k1neg (glvSplit k).k1 + (Lambda : Int) * signed (glvSplit k).k2neg (glvSplit k).k2 - (k : Int) =
      (-c) * N by linear_combination -hc, mul_zsmul, natCast_zsmul, order_dvd, zsmul_zero]
  rw [e] at pt
  have hne : k • A ≠ 0 := smul_ne h0 (fun hd => by have := Nat.le_of_dvd (by omega) hd; omega)
  obtain ⟨z, -, hz, hs⟩ := jnorm_getElem? (ts := [_, _]) (by simpa using ⟨pt.z, fk.z⟩) (k := 0) rfl
  have := jscale_rep pt hne hz
  rw [multiply]
  rw [List.headD_eq_head?_getD, List.head?_eq_getElem?, hs]
  exact this

end Sys2Proof.Machine
end

