-- ==== Sys2Proof/Laws/State.lean ====
section
/-! SUPPORT. One lemma per field per update of State, so that no later proof unfolds a record update. -/

namespace Sys2Proof.Machine

variable (s : State)

/-! ### setX -/

@[simp] theorem State.setX_regs (i : Nat) (v : Word) : (s.setX i v).regs = s.regs.setIfInBounds i { val := v, known := 0xFF#8 } := rfl
@[simp] theorem State.setX_status (i : Nat) (v : Word) : (s.setX i v).status = s.status := rfl
@[simp] theorem State.setX_ctrl (i : Nat) (v : Word) : (s.setX i v).ctrl = s.ctrl := rfl
@[simp] theorem State.setX_cause (i : Nat) (v : Word) : (s.setX i v).cause = s.cause := rfl
@[simp] theorem State.setX_fcmd (i : Nat) (v : Word) : (s.setX i v).fcmd = s.fcmd := rfl
@[simp] theorem State.setX_finfo (i : Nat) (v : Word) : (s.setX i v).finfo = s.finfo := rfl
@[simp] theorem State.setX_cmdLatch (i : Nat) (v : Word) : (s.setX i v).cmdLatch = s.cmdLatch := rfl
@[simp] theorem State.setX_base (i : Nat) (v : Word) : (s.setX i v).base = s.base := rfl
@[simp] theorem State.setX_free (i : Nat) (v : Word) : (s.setX i v).free = s.free := rfl
@[simp] theorem State.setX_rst (i : Nat) (v : Word) : (s.setX i v).rst = s.rst := rfl
@[simp] theorem State.setX_turns (i : Nat) (v : Word) : (s.setX i v).turns = s.turns := rfl
@[simp] theorem State.setX_reply (i : Nat) (v : Word) : (s.setX i v).reply = s.reply := rfl
@[simp] theorem State.setX_draw (i : Nat) (v : Word) : (s.setX i v).draw = s.draw := rfl

/-! ### putNat -/

@[simp] theorem State.putNat_regs (i v : Nat) : (s.putNat i v).regs = (s.setX i (BitVec.ofNat 256 v)).regs := rfl
@[simp] theorem State.putNat_status (i v : Nat) : (s.putNat i v).status = s.status := rfl
@[simp] theorem State.putNat_ctrl (i v : Nat) : (s.putNat i v).ctrl = s.ctrl := rfl
@[simp] theorem State.putNat_cause (i v : Nat) : (s.putNat i v).cause = s.cause := rfl
@[simp] theorem State.putNat_fcmd (i v : Nat) : (s.putNat i v).fcmd = s.fcmd := rfl
@[simp] theorem State.putNat_finfo (i v : Nat) : (s.putNat i v).finfo = s.finfo := rfl
@[simp] theorem State.putNat_cmdLatch (i v : Nat) : (s.putNat i v).cmdLatch = s.cmdLatch := rfl
@[simp] theorem State.putNat_base (i v : Nat) : (s.putNat i v).base = s.base := rfl
@[simp] theorem State.putNat_free (i v : Nat) : (s.putNat i v).free = s.free := rfl
@[simp] theorem State.putNat_rst (i v : Nat) : (s.putNat i v).rst = s.rst := rfl
@[simp] theorem State.putNat_turns (i v : Nat) : (s.putNat i v).turns = s.turns := rfl
@[simp] theorem State.putNat_reply (i v : Nat) : (s.putNat i v).reply = s.reply := rfl
@[simp] theorem State.putNat_draw (i v : Nat) : (s.putNat i v).draw = s.draw := rfl

/-! ### complete -/

@[simp] theorem State.complete_regs : (s.complete).regs = s.regs := rfl
@[simp] theorem State.complete_status : (s.complete).status = { s.status with busy := false, done := true } := rfl
@[simp] theorem State.complete_ctrl : (s.complete).ctrl = s.ctrl := rfl
@[simp] theorem State.complete_cause : (s.complete).cause = s.cause := rfl
@[simp] theorem State.complete_fcmd : (s.complete).fcmd = s.fcmd := rfl
@[simp] theorem State.complete_finfo : (s.complete).finfo = s.finfo := rfl
@[simp] theorem State.complete_cmdLatch : (s.complete).cmdLatch = s.cmdLatch := rfl
@[simp] theorem State.complete_base : (s.complete).base = s.base := rfl
@[simp] theorem State.complete_free : (s.complete).free = s.free := rfl
@[simp] theorem State.complete_rst : (s.complete).rst = s.rst := rfl
@[simp] theorem State.complete_turns : (s.complete).turns = s.turns := rfl
@[simp] theorem State.complete_reply : (s.complete).reply = s.reply := rfl
@[simp] theorem State.complete_draw : (s.complete).draw = s.draw + 1 := rfl

/-! ### faultEntry -/

@[simp] theorem State.faultEntry_regs (r : Raise) : (s.faultEntry r).regs = s.regs := rfl
@[simp] theorem State.faultEntry_status (r : Raise) : (s.faultEntry r).status = { s.status with busy := false, fault := true } := rfl
@[simp] theorem State.faultEntry_ctrl (r : Raise) : (s.faultEntry r).ctrl = s.ctrl := rfl
@[simp] theorem State.faultEntry_cause (r : Raise) : (s.faultEntry r).cause = BitVec.ofNat 32 r.cause.code := rfl
@[simp] theorem State.faultEntry_fcmd (r : Raise) : (s.faultEntry r).fcmd = s.cmdLatch := rfl
@[simp] theorem State.faultEntry_finfo (r : Raise) : (s.faultEntry r).finfo = BitVec.ofNat 32 r.info := rfl
@[simp] theorem State.faultEntry_cmdLatch (r : Raise) : (s.faultEntry r).cmdLatch = s.cmdLatch := rfl
@[simp] theorem State.faultEntry_base (r : Raise) : (s.faultEntry r).base = s.base := rfl
@[simp] theorem State.faultEntry_free (r : Raise) : (s.faultEntry r).free = s.free := rfl
@[simp] theorem State.faultEntry_rst (r : Raise) : (s.faultEntry r).rst = s.rst := rfl
@[simp] theorem State.faultEntry_turns (r : Raise) : (s.faultEntry r).turns = s.turns := rfl
@[simp] theorem State.faultEntry_reply (r : Raise) : (s.faultEntry r).reply = s.reply := rfl
@[simp] theorem State.faultEntry_draw (r : Raise) : (s.faultEntry r).draw = s.draw + 1 := rfl

/-! ### writeStatus -/

@[simp] theorem State.writeStatus_regs (v : HostWord) : (s.writeStatus v).regs = s.regs := rfl
@[simp] theorem State.writeStatus_status (v : HostWord) : (s.writeStatus v).status = s.status.clear v := rfl
@[simp] theorem State.writeStatus_ctrl (v : HostWord) : (s.writeStatus v).ctrl = s.ctrl := rfl
@[simp] theorem State.writeStatus_cause (v : HostWord) : (s.writeStatus v).cause = s.cause := rfl
@[simp] theorem State.writeStatus_fcmd (v : HostWord) : (s.writeStatus v).fcmd = s.fcmd := rfl
@[simp] theorem State.writeStatus_finfo (v : HostWord) : (s.writeStatus v).finfo = s.finfo := rfl
@[simp] theorem State.writeStatus_cmdLatch (v : HostWord) : (s.writeStatus v).cmdLatch = s.cmdLatch := rfl
@[simp] theorem State.writeStatus_base (v : HostWord) : (s.writeStatus v).base = s.base := rfl
@[simp] theorem State.writeStatus_free (v : HostWord) : (s.writeStatus v).free = s.free := rfl
@[simp] theorem State.writeStatus_rst (v : HostWord) : (s.writeStatus v).rst = s.rst := rfl
@[simp] theorem State.writeStatus_turns (v : HostWord) : (s.writeStatus v).turns = s.turns := rfl
@[simp] theorem State.writeStatus_reply (v : HostWord) : (s.writeStatus v).reply = s.reply := rfl
@[simp] theorem State.writeStatus_draw (v : HostWord) : (s.writeStatus v).draw = s.draw := rfl

/-! ### writeCtrl -/

@[simp] theorem State.writeCtrl_regs (v : HostWord) : (s.writeCtrl v).regs = s.regs := rfl
@[simp] theorem State.writeCtrl_status (v : HostWord) : (s.writeCtrl v).status = s.status := rfl
@[simp] theorem State.writeCtrl_ctrl (v : HostWord) : (s.writeCtrl v).ctrl = ctrlOf v := rfl
@[simp] theorem State.writeCtrl_cause (v : HostWord) : (s.writeCtrl v).cause = s.cause := rfl
@[simp] theorem State.writeCtrl_fcmd (v : HostWord) : (s.writeCtrl v).fcmd = s.fcmd := rfl
@[simp] theorem State.writeCtrl_finfo (v : HostWord) : (s.writeCtrl v).finfo = s.finfo := rfl
@[simp] theorem State.writeCtrl_cmdLatch (v : HostWord) : (s.writeCtrl v).cmdLatch = s.cmdLatch := rfl
@[simp] theorem State.writeCtrl_base (v : HostWord) : (s.writeCtrl v).base = s.base := rfl
@[simp] theorem State.writeCtrl_free (v : HostWord) : (s.writeCtrl v).free = s.free := rfl
@[simp] theorem State.writeCtrl_rst (v : HostWord) : (s.writeCtrl v).rst = s.rst := rfl
@[simp] theorem State.writeCtrl_turns (v : HostWord) : (s.writeCtrl v).turns = s.turns := rfl
@[simp] theorem State.writeCtrl_reply (v : HostWord) : (s.writeCtrl v).reply = s.reply := rfl
@[simp] theorem State.writeCtrl_draw (v : HostWord) : (s.writeCtrl v).draw = s.draw := rfl

/-! ### setWindow -/

@[simp] theorem State.setWindow_regs (i : Nat) (win : Window) : (s.setWindow i win).regs = s.regs := by cases i <;> rfl
@[simp] theorem State.setWindow_status (i : Nat) (win : Window) : (s.setWindow i win).status = s.status := by cases i <;> rfl
@[simp] theorem State.setWindow_ctrl (i : Nat) (win : Window) : (s.setWindow i win).ctrl = s.ctrl := by cases i <;> rfl
@[simp] theorem State.setWindow_cause (i : Nat) (win : Window) : (s.setWindow i win).cause = s.cause := by cases i <;> rfl
@[simp] theorem State.setWindow_fcmd (i : Nat) (win : Window) : (s.setWindow i win).fcmd = s.fcmd := by cases i <;> rfl
@[simp] theorem State.setWindow_finfo (i : Nat) (win : Window) : (s.setWindow i win).finfo = s.finfo := by cases i <;> rfl
@[simp] theorem State.setWindow_cmdLatch (i : Nat) (win : Window) : (s.setWindow i win).cmdLatch = s.cmdLatch := by cases i <;> rfl
@[simp] theorem State.setWindow_rst (i : Nat) (win : Window) : (s.setWindow i win).rst = s.rst := by cases i <;> rfl
@[simp] theorem State.setWindow_turns (i : Nat) (win : Window) : (s.setWindow i win).turns = s.turns := by cases i <;> rfl
@[simp] theorem State.setWindow_reply (i : Nat) (win : Window) : (s.setWindow i win).reply = s.reply := by cases i <;> rfl
@[simp] theorem State.setWindow_draw (i : Nat) (win : Window) : (s.setWindow i win).draw = s.draw := by cases i <;> rfl

/-! ### bindSlot -/

@[simp] theorem State.bindSlot_regs (i : Nat) (a : Affine) : (s.bindSlot i a).regs = s.regs := by cases i <;> rfl
@[simp] theorem State.bindSlot_status (i : Nat) (a : Affine) : (s.bindSlot i a).status = s.status := by cases i <;> rfl
@[simp] theorem State.bindSlot_ctrl (i : Nat) (a : Affine) : (s.bindSlot i a).ctrl = s.ctrl := by cases i <;> rfl
@[simp] theorem State.bindSlot_cause (i : Nat) (a : Affine) : (s.bindSlot i a).cause = s.cause := by cases i <;> rfl
@[simp] theorem State.bindSlot_fcmd (i : Nat) (a : Affine) : (s.bindSlot i a).fcmd = s.fcmd := by cases i <;> rfl
@[simp] theorem State.bindSlot_finfo (i : Nat) (a : Affine) : (s.bindSlot i a).finfo = s.finfo := by cases i <;> rfl
@[simp] theorem State.bindSlot_cmdLatch (i : Nat) (a : Affine) : (s.bindSlot i a).cmdLatch = s.cmdLatch := by cases i <;> rfl
@[simp] theorem State.bindSlot_base (i : Nat) (a : Affine) : (s.bindSlot i a).base = s.base := by cases i <;> rfl
@[simp] theorem State.bindSlot_rst (i : Nat) (a : Affine) : (s.bindSlot i a).rst = s.rst := by cases i <;> rfl
@[simp] theorem State.bindSlot_turns (i : Nat) (a : Affine) : (s.bindSlot i a).turns = s.turns := by cases i <;> rfl
@[simp] theorem State.bindSlot_reply (i : Nat) (a : Affine) : (s.bindSlot i a).reply = s.reply := by cases i <;> rfl
@[simp] theorem State.bindSlot_draw (i : Nat) (a : Affine) : (s.bindSlot i a).draw = s.draw := by cases i <;> rfl

/-! ### resizeSlot -/

@[simp] theorem State.resizeSlot_regs (i : Nat) (w : WSize) : (s.resizeSlot i w).regs = s.regs := by cases i <;> rfl
@[simp] theorem State.resizeSlot_status (i : Nat) (w : WSize) : (s.resizeSlot i w).status = s.status := by cases i <;> rfl
@[simp] theorem State.resizeSlot_ctrl (i : Nat) (w : WSize) : (s.resizeSlot i w).ctrl = s.ctrl := by cases i <;> rfl
@[simp] theorem State.resizeSlot_cause (i : Nat) (w : WSize) : (s.resizeSlot i w).cause = s.cause := by cases i <;> rfl
@[simp] theorem State.resizeSlot_fcmd (i : Nat) (w : WSize) : (s.resizeSlot i w).fcmd = s.fcmd := by cases i <;> rfl
@[simp] theorem State.resizeSlot_finfo (i : Nat) (w : WSize) : (s.resizeSlot i w).finfo = s.finfo := by cases i <;> rfl
@[simp] theorem State.resizeSlot_cmdLatch (i : Nat) (w : WSize) : (s.resizeSlot i w).cmdLatch = s.cmdLatch := by cases i <;> rfl
@[simp] theorem State.resizeSlot_rst (i : Nat) (w : WSize) : (s.resizeSlot i w).rst = s.rst := by cases i <;> rfl
@[simp] theorem State.resizeSlot_turns (i : Nat) (w : WSize) : (s.resizeSlot i w).turns = s.turns := by cases i <;> rfl
@[simp] theorem State.resizeSlot_reply (i : Nat) (w : WSize) : (s.resizeSlot i w).reply = s.reply := by cases i <;> rfl
@[simp] theorem State.resizeSlot_draw (i : Nat) (w : WSize) : (s.resizeSlot i w).draw = s.draw := by cases i <;> rfl

/-! ### installTable -/

@[simp] theorem State.installTable_regs (i : Nat) (table : List Affine) : (s.installTable i table).regs = s.regs := by cases i <;> rfl
@[simp] theorem State.installTable_status (i : Nat) (table : List Affine) : (s.installTable i table).status = s.status := by cases i <;> rfl
@[simp] theorem State.installTable_ctrl (i : Nat) (table : List Affine) : (s.installTable i table).ctrl = s.ctrl := by cases i <;> rfl
@[simp] theorem State.installTable_cause (i : Nat) (table : List Affine) : (s.installTable i table).cause = s.cause := by cases i <;> rfl
@[simp] theorem State.installTable_fcmd (i : Nat) (table : List Affine) : (s.installTable i table).fcmd = s.fcmd := by cases i <;> rfl
@[simp] theorem State.installTable_finfo (i : Nat) (table : List Affine) : (s.installTable i table).finfo = s.finfo := by cases i <;> rfl
@[simp] theorem State.installTable_cmdLatch (i : Nat) (table : List Affine) : (s.installTable i table).cmdLatch = s.cmdLatch := by cases i <;> rfl
@[simp] theorem State.installTable_rst (i : Nat) (table : List Affine) : (s.installTable i table).rst = s.rst := by cases i <;> rfl
@[simp] theorem State.installTable_turns (i : Nat) (table : List Affine) : (s.installTable i table).turns = s.turns := by cases i <;> rfl
@[simp] theorem State.installTable_reply (i : Nat) (table : List Affine) : (s.installTable i table).reply = s.reply := by cases i <;> rfl
@[simp] theorem State.installTable_draw (i : Nat) (table : List Affine) : (s.installTable i table).draw = s.draw := by cases i <;> rfl

/-! ### smulInstall -/

@[simp] theorem State.smulInstall_regs (i : Nat) : (s.smulInstall i).regs = s.regs := by unfold State.smulInstall; split <;> simp
@[simp] theorem State.smulInstall_status (i : Nat) : (s.smulInstall i).status = s.status := by unfold State.smulInstall; split <;> simp
@[simp] theorem State.smulInstall_ctrl (i : Nat) : (s.smulInstall i).ctrl = s.ctrl := by unfold State.smulInstall; split <;> simp
@[simp] theorem State.smulInstall_cause (i : Nat) : (s.smulInstall i).cause = s.cause := by unfold State.smulInstall; split <;> simp
@[simp] theorem State.smulInstall_fcmd (i : Nat) : (s.smulInstall i).fcmd = s.fcmd := by unfold State.smulInstall; split <;> simp
@[simp] theorem State.smulInstall_finfo (i : Nat) : (s.smulInstall i).finfo = s.finfo := by unfold State.smulInstall; split <;> simp
@[simp] theorem State.smulInstall_cmdLatch (i : Nat) : (s.smulInstall i).cmdLatch = s.cmdLatch := by unfold State.smulInstall; split <;> simp
@[simp] theorem State.smulInstall_rst (i : Nat) : (s.smulInstall i).rst = s.rst := by unfold State.smulInstall; split <;> simp
@[simp] theorem State.smulInstall_turns (i : Nat) : (s.smulInstall i).turns = s.turns := by unfold State.smulInstall; split <;> simp
@[simp] theorem State.smulInstall_reply (i : Nat) : (s.smulInstall i).reply = s.reply := by unfold State.smulInstall; split <;> simp
@[simp] theorem State.smulInstall_draw (i : Nat) : (s.smulInstall i).draw = s.draw := by unfold State.smulInstall; split <;> simp

/-! ### setRegWord -/

@[simp] theorem State.setRegWord_status (i j : Nat) (u : HostWord) : (s.setRegWord i j u).status = s.status := by unfold State.setRegWord; split <;> rfl
@[simp] theorem State.setRegWord_ctrl (i j : Nat) (u : HostWord) : (s.setRegWord i j u).ctrl = s.ctrl := by unfold State.setRegWord; split <;> rfl
@[simp] theorem State.setRegWord_cause (i j : Nat) (u : HostWord) : (s.setRegWord i j u).cause = s.cause := by unfold State.setRegWord; split <;> rfl
@[simp] theorem State.setRegWord_fcmd (i j : Nat) (u : HostWord) : (s.setRegWord i j u).fcmd = s.fcmd := by unfold State.setRegWord; split <;> rfl
@[simp] theorem State.setRegWord_finfo (i j : Nat) (u : HostWord) : (s.setRegWord i j u).finfo = s.finfo := by unfold State.setRegWord; split <;> rfl
@[simp] theorem State.setRegWord_cmdLatch (i j : Nat) (u : HostWord) : (s.setRegWord i j u).cmdLatch = s.cmdLatch := by unfold State.setRegWord; split <;> rfl
@[simp] theorem State.setRegWord_base (i j : Nat) (u : HostWord) : (s.setRegWord i j u).base = s.base := by unfold State.setRegWord; split <;> rfl
@[simp] theorem State.setRegWord_free (i j : Nat) (u : HostWord) : (s.setRegWord i j u).free = s.free := by unfold State.setRegWord; split <;> rfl
@[simp] theorem State.setRegWord_rst (i j : Nat) (u : HostWord) : (s.setRegWord i j u).rst = s.rst := by unfold State.setRegWord; split <;> rfl
@[simp] theorem State.setRegWord_turns (i j : Nat) (u : HostWord) : (s.setRegWord i j u).turns = s.turns := by unfold State.setRegWord; split <;> rfl
@[simp] theorem State.setRegWord_reply (i j : Nat) (u : HostWord) : (s.setRegWord i j u).reply = s.reply := by unfold State.setRegWord; split <;> rfl
@[simp] theorem State.setRegWord_draw (i j : Nat) (u : HostWord) : (s.setRegWord i j u).draw = s.draw := by unfold State.setRegWord; split <;> rfl

/-! ### issue -/

@[simp] theorem State.issue_regs (w : Cmd) : (s.issue w).regs = s.regs := by unfold State.issue; split <;> rfl
@[simp] theorem State.issue_ctrl (w : Cmd) : (s.issue w).ctrl = s.ctrl := by unfold State.issue; split <;> rfl
@[simp] theorem State.issue_cause (w : Cmd) : (s.issue w).cause = s.cause := by unfold State.issue; split <;> rfl
@[simp] theorem State.issue_fcmd (w : Cmd) : (s.issue w).fcmd = s.fcmd := by unfold State.issue; split <;> rfl
@[simp] theorem State.issue_finfo (w : Cmd) : (s.issue w).finfo = s.finfo := by unfold State.issue; split <;> rfl
@[simp] theorem State.issue_base (w : Cmd) : (s.issue w).base = s.base := by unfold State.issue; split <;> rfl
@[simp] theorem State.issue_free (w : Cmd) : (s.issue w).free = s.free := by unfold State.issue; split <;> rfl
@[simp] theorem State.issue_rst (w : Cmd) : (s.issue w).rst = s.rst := by unfold State.issue; split <;> rfl
@[simp] theorem State.issue_turns (w : Cmd) : (s.issue w).turns = s.turns := by unfold State.issue; split <;> rfl
@[simp] theorem State.issue_reply (w : Cmd) : (s.issue w).reply = s.reply := by unfold State.issue; split <;> rfl
@[simp] theorem State.issue_draw (w : Cmd) : (s.issue w).draw = s.draw := by unfold State.issue; split <;> rfl

/-! ### resetCore -/

@[simp] theorem State.resetCore_regs (level : Bool) : (s.resetCore level).regs = (State.resetWith s.free.length).regs := rfl
@[simp] theorem State.resetCore_status (level : Bool) : (s.resetCore level).status = (State.resetWith s.free.length).status := rfl
@[simp] theorem State.resetCore_ctrl (level : Bool) : (s.resetCore level).ctrl = (State.resetWith s.free.length).ctrl := rfl
@[simp] theorem State.resetCore_cause (level : Bool) : (s.resetCore level).cause = (State.resetWith s.free.length).cause := rfl
@[simp] theorem State.resetCore_fcmd (level : Bool) : (s.resetCore level).fcmd = (State.resetWith s.free.length).fcmd := rfl
@[simp] theorem State.resetCore_finfo (level : Bool) : (s.resetCore level).finfo = (State.resetWith s.free.length).finfo := rfl
@[simp] theorem State.resetCore_cmdLatch (level : Bool) : (s.resetCore level).cmdLatch = (State.resetWith s.free.length).cmdLatch := rfl
@[simp] theorem State.resetCore_base (level : Bool) : (s.resetCore level).base = (State.resetWith s.free.length).base := rfl
@[simp] theorem State.resetCore_free (level : Bool) : (s.resetCore level).free = (State.resetWith s.free.length).free := rfl
@[simp] theorem State.resetCore_rst (level : Bool) : (s.resetCore level).rst = level := rfl
@[simp] theorem State.resetCore_turns (level : Bool) : (s.resetCore level).turns = s.turns := rfl
@[simp] theorem State.resetCore_reply (level : Bool) : (s.resetCore level).reply = (State.resetWith s.free.length).reply := rfl
@[simp] theorem State.resetCore_draw (level : Bool) : (s.resetCore level).draw = s.draw + 1 := rfl

/-! ### setSpan: only the registers change -/

@[simp] theorem State.setSpan_status (i : Nat) (vs : List Word) : (s.setSpan i vs).status = s.status := by
  induction vs generalizing s i with
  | nil => rfl
  | cons v vs ih => simp [State.setSpan, ih]

@[simp] theorem State.setSpan_ctrl (i : Nat) (vs : List Word) : (s.setSpan i vs).ctrl = s.ctrl := by
  induction vs generalizing s i with
  | nil => rfl
  | cons v vs ih => simp [State.setSpan, ih]

@[simp] theorem State.setSpan_cause (i : Nat) (vs : List Word) : (s.setSpan i vs).cause = s.cause := by
  induction vs generalizing s i with
  | nil => rfl
  | cons v vs ih => simp [State.setSpan, ih]

@[simp] theorem State.setSpan_fcmd (i : Nat) (vs : List Word) : (s.setSpan i vs).fcmd = s.fcmd := by
  induction vs generalizing s i with
  | nil => rfl
  | cons v vs ih => simp [State.setSpan, ih]

@[simp] theorem State.setSpan_finfo (i : Nat) (vs : List Word) : (s.setSpan i vs).finfo = s.finfo := by
  induction vs generalizing s i with
  | nil => rfl
  | cons v vs ih => simp [State.setSpan, ih]

@[simp] theorem State.setSpan_cmdLatch (i : Nat) (vs : List Word) : (s.setSpan i vs).cmdLatch = s.cmdLatch := by
  induction vs generalizing s i with
  | nil => rfl
  | cons v vs ih => simp [State.setSpan, ih]

@[simp] theorem State.setSpan_base (i : Nat) (vs : List Word) : (s.setSpan i vs).base = s.base := by
  induction vs generalizing s i with
  | nil => rfl
  | cons v vs ih => simp [State.setSpan, ih]

@[simp] theorem State.setSpan_free (i : Nat) (vs : List Word) : (s.setSpan i vs).free = s.free := by
  induction vs generalizing s i with
  | nil => rfl
  | cons v vs ih => simp [State.setSpan, ih]

@[simp] theorem State.setSpan_rst (i : Nat) (vs : List Word) : (s.setSpan i vs).rst = s.rst := by
  induction vs generalizing s i with
  | nil => rfl
  | cons v vs ih => simp [State.setSpan, ih]

@[simp] theorem State.setSpan_turns (i : Nat) (vs : List Word) : (s.setSpan i vs).turns = s.turns := by
  induction vs generalizing s i with
  | nil => rfl
  | cons v vs ih => simp [State.setSpan, ih]

@[simp] theorem State.setSpan_reply (i : Nat) (vs : List Word) : (s.setSpan i vs).reply = s.reply := by
  induction vs generalizing s i with
  | nil => rfl
  | cons v vs ih => simp [State.setSpan, ih]

@[simp] theorem State.setSpan_draw (i : Nat) (vs : List Word) : (s.setSpan i vs).draw = s.draw := by
  induction vs generalizing s i with
  | nil => rfl
  | cons v vs ih => simp [State.setSpan, ih]

/-! ### putPair -/

@[simp] theorem State.putPair_status (i : Nat) (a : Affine) : (s.putPair i a).status = s.status := by simp [State.putPair]
@[simp] theorem State.putPair_ctrl (i : Nat) (a : Affine) : (s.putPair i a).ctrl = s.ctrl := by simp [State.putPair]
@[simp] theorem State.putPair_cause (i : Nat) (a : Affine) : (s.putPair i a).cause = s.cause := by simp [State.putPair]
@[simp] theorem State.putPair_fcmd (i : Nat) (a : Affine) : (s.putPair i a).fcmd = s.fcmd := by simp [State.putPair]
@[simp] theorem State.putPair_finfo (i : Nat) (a : Affine) : (s.putPair i a).finfo = s.finfo := by simp [State.putPair]
@[simp] theorem State.putPair_cmdLatch (i : Nat) (a : Affine) : (s.putPair i a).cmdLatch = s.cmdLatch := by simp [State.putPair]
@[simp] theorem State.putPair_base (i : Nat) (a : Affine) : (s.putPair i a).base = s.base := by simp [State.putPair]
@[simp] theorem State.putPair_free (i : Nat) (a : Affine) : (s.putPair i a).free = s.free := by simp [State.putPair]
@[simp] theorem State.putPair_rst (i : Nat) (a : Affine) : (s.putPair i a).rst = s.rst := by simp [State.putPair]
@[simp] theorem State.putPair_turns (i : Nat) (a : Affine) : (s.putPair i a).turns = s.turns := by simp [State.putPair]
@[simp] theorem State.putPair_reply (i : Nat) (a : Affine) : (s.putPair i a).reply = s.reply := by simp [State.putPair]
@[simp] theorem State.putPair_draw (i : Nat) (a : Affine) : (s.putPair i a).draw = s.draw := by simp [State.putPair]

/-! ### putTriple -/

@[simp] theorem State.putTriple_status (i : Nat) (t : Jac) : (s.putTriple i t).status = s.status := by simp [State.putTriple]
@[simp] theorem State.putTriple_ctrl (i : Nat) (t : Jac) : (s.putTriple i t).ctrl = s.ctrl := by simp [State.putTriple]
@[simp] theorem State.putTriple_cause (i : Nat) (t : Jac) : (s.putTriple i t).cause = s.cause := by simp [State.putTriple]
@[simp] theorem State.putTriple_fcmd (i : Nat) (t : Jac) : (s.putTriple i t).fcmd = s.fcmd := by simp [State.putTriple]
@[simp] theorem State.putTriple_finfo (i : Nat) (t : Jac) : (s.putTriple i t).finfo = s.finfo := by simp [State.putTriple]
@[simp] theorem State.putTriple_cmdLatch (i : Nat) (t : Jac) : (s.putTriple i t).cmdLatch = s.cmdLatch := by simp [State.putTriple]
@[simp] theorem State.putTriple_base (i : Nat) (t : Jac) : (s.putTriple i t).base = s.base := by simp [State.putTriple]
@[simp] theorem State.putTriple_free (i : Nat) (t : Jac) : (s.putTriple i t).free = s.free := by simp [State.putTriple]
@[simp] theorem State.putTriple_rst (i : Nat) (t : Jac) : (s.putTriple i t).rst = s.rst := by simp [State.putTriple]
@[simp] theorem State.putTriple_turns (i : Nat) (t : Jac) : (s.putTriple i t).turns = s.turns := by simp [State.putTriple]
@[simp] theorem State.putTriple_reply (i : Nat) (t : Jac) : (s.putTriple i t).reply = s.reply := by simp [State.putTriple]
@[simp] theorem State.putTriple_draw (i : Nat) (t : Jac) : (s.putTriple i t).draw = s.draw := by simp [State.putTriple]

/-! ### putBatch -/

@[simp] theorem State.putBatch_status (i : Nat) (vs : List Nat) : (s.putBatch i vs).status = s.status := by simp [State.putBatch]
@[simp] theorem State.putBatch_ctrl (i : Nat) (vs : List Nat) : (s.putBatch i vs).ctrl = s.ctrl := by simp [State.putBatch]
@[simp] theorem State.putBatch_cause (i : Nat) (vs : List Nat) : (s.putBatch i vs).cause = s.cause := by simp [State.putBatch]
@[simp] theorem State.putBatch_fcmd (i : Nat) (vs : List Nat) : (s.putBatch i vs).fcmd = s.fcmd := by simp [State.putBatch]
@[simp] theorem State.putBatch_finfo (i : Nat) (vs : List Nat) : (s.putBatch i vs).finfo = s.finfo := by simp [State.putBatch]
@[simp] theorem State.putBatch_cmdLatch (i : Nat) (vs : List Nat) : (s.putBatch i vs).cmdLatch = s.cmdLatch := by simp [State.putBatch]
@[simp] theorem State.putBatch_base (i : Nat) (vs : List Nat) : (s.putBatch i vs).base = s.base := by simp [State.putBatch]
@[simp] theorem State.putBatch_free (i : Nat) (vs : List Nat) : (s.putBatch i vs).free = s.free := by simp [State.putBatch]
@[simp] theorem State.putBatch_rst (i : Nat) (vs : List Nat) : (s.putBatch i vs).rst = s.rst := by simp [State.putBatch]
@[simp] theorem State.putBatch_turns (i : Nat) (vs : List Nat) : (s.putBatch i vs).turns = s.turns := by simp [State.putBatch]
@[simp] theorem State.putBatch_reply (i : Nat) (vs : List Nat) : (s.putBatch i vs).reply = s.reply := by simp [State.putBatch]
@[simp] theorem State.putBatch_draw (i : Nat) (vs : List Nat) : (s.putBatch i vs).draw = s.draw := by simp [State.putBatch]

/-! ### putPairs -/

@[simp] theorem State.putPairs_status (i : Nat) (as : List Affine) : (s.putPairs i as).status = s.status := by simp [State.putPairs]
@[simp] theorem State.putPairs_ctrl (i : Nat) (as : List Affine) : (s.putPairs i as).ctrl = s.ctrl := by simp [State.putPairs]
@[simp] theorem State.putPairs_cause (i : Nat) (as : List Affine) : (s.putPairs i as).cause = s.cause := by simp [State.putPairs]
@[simp] theorem State.putPairs_fcmd (i : Nat) (as : List Affine) : (s.putPairs i as).fcmd = s.fcmd := by simp [State.putPairs]
@[simp] theorem State.putPairs_finfo (i : Nat) (as : List Affine) : (s.putPairs i as).finfo = s.finfo := by simp [State.putPairs]
@[simp] theorem State.putPairs_cmdLatch (i : Nat) (as : List Affine) : (s.putPairs i as).cmdLatch = s.cmdLatch := by simp [State.putPairs]
@[simp] theorem State.putPairs_base (i : Nat) (as : List Affine) : (s.putPairs i as).base = s.base := by simp [State.putPairs]
@[simp] theorem State.putPairs_free (i : Nat) (as : List Affine) : (s.putPairs i as).free = s.free := by simp [State.putPairs]
@[simp] theorem State.putPairs_rst (i : Nat) (as : List Affine) : (s.putPairs i as).rst = s.rst := by simp [State.putPairs]
@[simp] theorem State.putPairs_turns (i : Nat) (as : List Affine) : (s.putPairs i as).turns = s.turns := by simp [State.putPairs]
@[simp] theorem State.putPairs_reply (i : Nat) (as : List Affine) : (s.putPairs i as).reply = s.reply := by simp [State.putPairs]
@[simp] theorem State.putPairs_draw (i : Nat) (as : List Affine) : (s.putPairs i as).draw = s.draw := by simp [State.putPairs]

end Sys2Proof.Machine
end

