-- ==== Sys2Proof/Laws/Ops.lean ====
section
/-! SUPPORT. One lemma per shared operation that says once what it can do: the checks of a command and their order, its two
endings, the registers and slots it writes, the words of a register. -/

namespace Sys2Proof.Machine

/-! ### The checks of a command -/

@[simp] theorem firstRaise_nil : firstRaise [] = none := rfl

@[simp] theorem firstRaise_cons_none (cs : List (Option Raise)) : firstRaise (none :: cs) = firstRaise cs := rfl

@[simp] theorem firstRaise_cons_some (r : Raise) (cs : List (Option Raise)) : firstRaise (some r :: cs) = some r := rfl

theorem firstRaise_eq_none (cs : List (Option Raise)) : firstRaise cs = none ↔ ∀ c ∈ cs, c = none := by
  induction cs with
  | nil => simp
  | cons c cs ih => cases c <;> simp [ih]

/-- A list whose checks all pass leaves the verdict to what follows. -/
theorem firstRaise_append_of_none {cs : List (Option Raise)} (h : ∀ c ∈ cs, c = none) (ds : List (Option Raise)) :
    firstRaise (cs ++ ds) = firstRaise ds := by
  induction cs with
  | nil => rfl
  | cons c cs ih =>
    have hc : c = none := h c (by simp)
    subst hc
    simpa using ih (fun d hd => h d (by simp [hd]))

/-- The fault taken is one of the listed checks, and every check before it passed. -/
theorem firstRaise_eq_some {cs : List (Option Raise)} {r : Raise} (h : firstRaise cs = some r) :
    ∃ before after, cs = before ++ some r :: after ∧ ∀ c ∈ before, c = none := by
  induction cs with
  | nil => simp at h
  | cons c cs ih =>
    cases c with
    | none =>
      obtain ⟨b, a, rfl, hb⟩ := ih (by simpa using h)
      exact ⟨none :: b, a, rfl, by simpa using hb⟩
    | some q =>
      have hq : q = r := by simpa using h
      exact ⟨[], cs, by simp [hq], by simp⟩

@[simp] theorem chkLegal_eq_none (i : Instr) : chkLegal i = none ↔ i.wf = true := by simp [chkLegal]

theorem chkLegal_of_not_wf {i : Instr} (h : i.wf = false) : chkLegal i = some { cause := .illegalCmd, info := 0 } := by
  simp [chkLegal, h]

variable {s : State}

@[simp] theorem chkP_eq_none (i : Nat) : chkP s i = none ↔ s.xn i < P := by simp [chkP]

theorem chkP_of_le {i : Nat} (h : P ≤ s.xn i) : chkP s i = some { cause := .operandRange, info := i } := by simp [chkP, h]

@[simp] theorem chkN_eq_none (i : Nat) : chkN s i = none ↔ s.xn i < N := by simp [chkN]

theorem chkN_of_le {i : Nat} (h : N ≤ s.xn i) : chkN s i = some { cause := .operandRange, info := i } := by simp [chkN, h]

@[simp] theorem chkScalar_eq_none (i : Nat) : chkScalar s i = none ↔ s.xn i ≠ 0 ∧ s.xn i < N := by simp [chkScalar]

theorem chkScalar_of_bad {i : Nat} (h : s.xn i = 0 ∨ N ≤ s.xn i) :
    chkScalar s i = some { cause := .scalarRange, info := i } := by simp [chkScalar, h]

@[simp] theorem chkInvertible_eq_none (i m : Nat) :
    chkInvertible s i m = none ↔ s.xn i ≠ 0 ∧ invertFails (s.xn i) m = false := by simp [chkInvertible]

@[simp] theorem chkGlv_eq_none (i : Nat) : chkGlv s i = none ↔ (glvSplit (s.xn i)).overflows = false := by simp [chkGlv]

@[simp] theorem chkSlot_eq_none (slot : Nat) : chkSlot s slot = none ↔ slot < s.nslot := by simp [chkSlot]

@[simp] theorem chkAnchored_eq_none (slot : Nat) :
    chkAnchored s slot = none ↔ slot < s.nslot ∧ (s.slot slot).avalid = true := by simp [chkAnchored]

@[simp] theorem chkTable_eq_none (slot : Nat) :
    chkTable s slot = none ↔ slot < s.nslot ∧ (s.slot slot).win.tvalid = true := by simp [chkTable]

@[simp] theorem chkEntry_eq_none (i slot : Nat) :
    chkEntry s i slot = none ↔ s.xn i < entriesOf (s.slot slot).win.w := by simp [chkEntry]

@[simp] theorem chkOnCurve_eq_none (i : Nat) : chkOnCurve s i = none ↔ onCurve (s.xn i) (s.xn (i + 1)) = true := by
  simp [chkOnCurve]

theorem mem_chkSpanP {i len : Nat} {c : Option Raise} : c ∈ chkSpanP s i len ↔ ∃ j, j < len ∧ c = chkP s (i + j) := by
  simp [chkSpanP, eq_comm]

/-- A span of field elements passes all its checks. -/
theorem chkSpanP_pass {i len : Nat} (h : ∀ j, j < len → s.xn (i + j) < P) : ∀ c ∈ chkSpanP s i len, c = none := by
  intro c hc
  obtain ⟨j, hj, rfl⟩ := mem_chkSpanP.mp hc
  exact (chkP_eq_none _).mpr (h j hj)

/-- The lowest register of a span that holds a value ≥ P is the one reported (60_exceptions.md R222(3)). -/
theorem firstRaise_chkSpanP {i len j : Nat} (hj : j < len) (low : ∀ k, k < j → s.xn (i + k) < P) (hP : P ≤ s.xn (i + j))
    (cs : List (Option Raise)) :
    firstRaise (chkSpanP s i len ++ cs) = some { cause := .operandRange, info := i + j } := by
  obtain ⟨m, rfl⟩ : ∃ m, len = j + (m + 1) := ⟨len - j - 1, by omega⟩
  have split : chkSpanP s i (j + (m + 1)) =
      chkSpanP s i j ++ chkP s (i + j) :: (List.range m).map (fun k => chkP s (i + (j + (k + 1)))) := by
    simp [chkSpanP, List.range_add, List.range_succ_eq_map, Function.comp_def]
  rw [split, List.append_assoc, firstRaise_append_of_none (chkSpanP_pass low), List.cons_append, chkP_of_le hP]
  rfl

/-! ### The two endings -/

theorem endCommand_of_none {checks : List (Option Raise)} (h : firstRaise checks = none) (t : State) :
    s.endCommand checks t = .next t.complete := by simp [State.endCommand, h]

theorem endCommand_of_some {checks : List (Option Raise)} {r : Raise} (h : firstRaise checks = some r) (t : State) :
    s.endCommand checks t = .next (s.faultEntry r) := by simp [State.endCommand, h]

/-- Everything the ending step of a command can do. -/
theorem endCommand_cases (s : State) (checks : List (Option Raise)) (t : State) :
    (firstRaise checks = none ∧ s.endCommand checks t = .next t.complete) ∨
      ∃ r, firstRaise checks = some r ∧ s.endCommand checks t = .next (s.faultEntry r) := by
  cases h : firstRaise checks with
  | none => exact .inl ⟨rfl, endCommand_of_none h t⟩
  | some r => exact .inr ⟨r, rfl, endCommand_of_some h t⟩

/-- A fault leaves its record and nothing else (60_exceptions.md R221). -/
theorem faultEffect_faultEntry (s : State) (r : Raise) : FaultEffect s (s.faultEntry r) r.cause.code r.info := by
  simp [FaultEffect, SlotsSame, Untouched]

/-- A code is one of 1 to 7 (60_exceptions.md R220). -/
theorem code_range (c : Cause) : 1 ≤ c.code ∧ c.code ≤ 7 := by cases c <;> decide

/-! ### Registers -/

theorem getElem?_setX (s : State) (i j : Nat) (v : Word) :
    (s.setX i v).regs[j]? = if i = j ∧ j < 32 then some { val := v, known := 0xFF#8 } else s.regs[j]? := by
  simp only [State.setX_regs, Vector.getElem?_setIfInBounds]
  by_cases h : i = j
  · subst h
    by_cases h32 : i < 32
    · simp [h32]
    · simp [h32]
  · simp [h]

/-- A span that ends at or before r31 is written whole, and nothing else is (10_state.md R22). -/
theorem setSpan_writesOnly (s : State) (i : Nat) (vs : List Word) (h : i + vs.length ≤ 32) :
    WritesOnly s (s.setSpan i vs) i vs := by
  induction vs generalizing s i with
  | nil => exact ⟨by simp, by simp [State.setSpan]⟩
  | cons v vs ih =>
    have hlen : i + 1 + vs.length ≤ 32 := by simp at h; omega
    obtain ⟨hw, hf⟩ := ih (s.setX i v) (i + 1) hlen
    refine ⟨?_, ?_⟩
    · intro k u hk
      cases k with
      | zero =>
        have hv : v = u := by simpa using hk
        subst hv
        have := hf i (by omega)
        change ((s.setX i v).setSpan (i + 1) vs).regs[i]? = _
        rw [this, getElem?_setX, if_pos ⟨rfl, by omega⟩]
      | succ k =>
        have := hw k u (by simpa using hk)
        rwa [show i + 1 + k = i + (k + 1) by omega] at this
    · intro j hj
      simp only [List.length_cons] at hj
      rw [State.setSpan, hf j (by omega), getElem?_setX, if_neg (by omega)]

/-- A completion that wrote a span (10_state.md R28). -/
theorem regEffect_setSpan (s : State) (i : Nat) (vs : List Word) (h : i + vs.length ≤ 32) :
    RegEffect s (s.setSpan i vs).complete i vs := by
  refine ⟨by simp [Completed, Untouched], by simp [SlotsSame], ?_⟩
  simpa [WritesOnly, Holds] using setSpan_writesOnly s i vs h

/-- Everything a command whose checks pass and whose writes are a span does. -/
theorem endCommand_writes {checks : List (Option Raise)} (hc : firstRaise checks = none) {i : Nat} {vs : List Word}
    (h : i + vs.length ≤ 32) : ∃ t, s.endCommand checks (s.setSpan i vs) = .next t ∧ RegEffect s t i vs :=
  ⟨_, endCommand_of_none hc _, regEffect_setSpan s i vs h⟩

/-- Everything a command whose first failing check is `r` does. -/
theorem endCommand_faults {checks : List (Option Raise)} {r : Raise} (hc : firstRaise checks = some r) (t : State) :
    ∃ u, s.endCommand checks t = .next u ∧ FaultEffect s u r.cause.code r.info :=
  ⟨_, endCommand_of_some hc t, faultEffect_faultEntry s r⟩

theorem putNat_eq_setSpan (s : State) (i v : Nat) : s.putNat i v = s.setSpan i [BitVec.ofNat 256 v] := rfl

/-- A register that holds a value reads as that value. -/
theorem x_of_holds {t : State} {i : Nat} {v : Word} (h : Holds t i v) : t.x i = v := by
  simp only [Holds] at h
  simp [State.x, h, GReg.view]

theorem xn_of_holds {t : State} {i : Nat} {v : Word} (h : Holds t i v) : t.xn i = v.toNat := by
  simp [State.xn, x_of_holds h]

theorem xn_lt (s : State) (i : Nat) : s.xn i < 2 ^ 256 := (s.x i).isLt

@[simp] theorem ofNat_xn (s : State) (i : Nat) : BitVec.ofNat 256 (s.xn i) = s.x i := by simp [State.xn]

/-! ### Words of a register (20_memory.md R52) -/

theorem wordOf_joinWords (f : Fin 8 → HostWord) (k : Fin 8) : wordOf (joinWords f) k.val = f k := by
  have cut : ∀ (n : Nat) (a : BitVec n) (b : HostWord) (lo : Nat),
      (a ++ b).extractLsb' (lo + 32) 32 = a.extractLsb' lo 32 := by
    intro n a b lo
    ext i hi
    simp only [BitVec.getElem_extractLsb', BitVec.getLsbD_append]
    rw [show lo + 32 + i - 32 = lo + i by omega]
    simp [show ¬(lo + 32 + i < 32) by omega]
  have last : ∀ (n : Nat) (a : BitVec n) (b : HostWord), (a ++ b).extractLsb' 0 32 = b := by
    intro n a b
    ext i hi
    simp only [BitVec.getElem_extractLsb', BitVec.getLsbD_append]
    simp [hi]
  have whole : ∀ b : HostWord, b.extractLsb' 0 32 = b := fun b => by simp
  match k with
  | 0 => exact (cut _ _ _ 192).trans ((cut _ _ _ 160).trans ((cut _ _ _ 128).trans ((cut _ _ _ 96).trans
      ((cut _ _ _ 64).trans ((cut _ _ _ 32).trans ((cut _ _ _ 0).trans (whole _)))))))
  | 1 => exact (cut _ _ _ 160).trans ((cut _ _ _ 128).trans ((cut _ _ _ 96).trans
      ((cut _ _ _ 64).trans ((cut _ _ _ 32).trans ((cut _ _ _ 0).trans (last _ _ _))))))
  | 2 => exact (cut _ _ _ 128).trans ((cut _ _ _ 96).trans
      ((cut _ _ _ 64).trans ((cut _ _ _ 32).trans ((cut _ _ _ 0).trans (last _ _ _)))))
  | 3 => exact (cut _ _ _ 96).trans ((cut _ _ _ 64).trans ((cut _ _ _ 32).trans ((cut _ _ _ 0).trans (last _ _ _))))
  | 4 => exact (cut _ _ _ 64).trans ((cut _ _ _ 32).trans ((cut _ _ _ 0).trans (last _ _ _)))
  | 5 => exact (cut _ _ _ 32).trans ((cut _ _ _ 0).trans (last _ _ _))
  | 6 => exact (cut _ _ _ 0).trans (last _ _ _)
  | 7 => exact last _ _ _

theorem wordOf_putWord (v : Word) (j : Nat) (u : HostWord) (k : Fin 8) :
    wordOf (putWord v j u) k.val = if k.val = j then u else wordOf v k.val := wordOf_joinWords _ k

/-- A word the host sees of a register: what was written, or the free value (10_state.md R21). -/
theorem wordOf_view (r : GReg) (free : Word) (k : Fin 8) :
    wordOf (r.view free) k.val = if r.known.getLsbD k.val then wordOf r.val k.val else wordOf free k.val := by
  unfold GReg.view
  split
  · next h =>
    have hk : r.known.getLsbD k.val = true := by rw [h]; revert k; decide
    simp [hk]
  · exact wordOf_joinWords _ k

/-! ### Slots -/

@[simp] theorem nslot_setWindow (s : State) (i : Nat) (win : Window) : (s.setWindow i win).nslot = s.nslot := by
  cases i <;> simp [State.setWindow, State.nslot]

@[simp] theorem nslot_bindSlot (s : State) (i : Nat) (a : Affine) : (s.bindSlot i a).nslot = s.nslot := by
  cases i <;> simp [State.bindSlot, State.nslot]

@[simp] theorem nslot_setX (s : State) (i : Nat) (v : Word) : (s.setX i v).nslot = s.nslot := rfl

@[simp] theorem nslot_complete (s : State) : s.complete.nslot = s.nslot := rfl

@[simp] theorem nslot_faultEntry (s : State) (r : Raise) : (s.faultEntry r).nslot = s.nslot := rfl

/-- A slot depends on slot 0's window and the free slots alone. -/
theorem slot_congr {s t : State} (h : SlotsSame s t) (i : Nat) : t.slot i = s.slot i := by
  cases i <;> simp [State.slot, h.1, h.2]

theorem nslot_congr {s t : State} (h : SlotsSame s t) : t.nslot = s.nslot := by simp [State.nslot, h.2]

/-- The window of one slot is written and no other slot changes. -/
theorem slot_setWindow (s : State) (i j : Nat) (win : Window) (h : i < s.nslot) :
    (s.setWindow i win).slot j = if j = i then { s.slot i with win := win } else s.slot j := by
  cases i with
  | zero => cases j <;> simp [State.setWindow, State.slot]
  | succ i =>
    have hi : i < s.free.length := by simp [State.nslot] at h; omega
    cases j with
    | zero => simp [State.setWindow, State.slot]
    | succ j =>
      by_cases hij : j = i
      · subst hij
        simp [State.setWindow, State.slot, List.getD_eq_getElem?_getD, hi]
      · simp [State.setWindow, State.slot, List.getD_eq_getElem?_getD, hij, Ne.symm hij]

/-- A slot other than 0 is bound and no other slot changes (43_scalar_mult.md R177). -/
theorem slot_bindSlot (s : State) (i j : Nat) (a : Affine) (h0 : i ≠ 0) (h : i < s.nslot) :
    (s.bindSlot i a).slot j =
      if j = i then { anchor := a, avalid := true, win := { (s.slot i).win with w := .w1, tvalid := false } }
      else s.slot j := by
  cases i with
  | zero => exact absurd rfl h0
  | succ i =>
    have hi : i < s.free.length := by simp [State.nslot] at h; omega
    cases j with
    | zero => simp [State.bindSlot, State.slot]
    | succ j =>
      by_cases hij : j = i
      · subst hij
        simp [State.bindSlot, State.slot, List.getD_eq_getElem?_getD, hi]
      · simp [State.bindSlot, State.slot, List.getD_eq_getElem?_getD, hij, Ne.symm hij]

/-- The base point's slot has a constant anchor and is always bound (10_state.md R33). -/
theorem slot_zero (s : State) :
    s.slot 0 = { anchor := ⟨BitVec.ofNat 256 Gx, BitVec.ofNat 256 Gy⟩, avalid := true, win := s.base } := rfl

end Sys2Proof.Machine
end

