-- ==== Sys2Proof/Laws/Exec.lean ====
section
/-! SUPPORT. What `exec` does, whatever the command: one shared ending, with the legality check first; the registers, slots
and control registers a command's writes leave alone; the spans of a legal command; SMUL's ending and its table. -/

namespace Sys2Proof.Machine

/-! ### Spans of legal commands (30_encoding.md R84) -/

theorem spans_pdbl {rd ra : Reg} (h : (Instr.pdbl rd ra).wf = true) : rd.val + 3 ≤ 32 ∧ ra.val + 3 ≤ 32 := by
  simp [Instr.wf, Instr.reject, Instr.immOk, Instr.slotOk, Instr.spans, fits] at h
  omega

theorem spans_pneg {rd ra : Reg} (h : (Instr.pneg rd ra).wf = true) : rd.val + 3 ≤ 32 ∧ ra.val + 3 ≤ 32 := by
  simp [Instr.wf, Instr.reject, Instr.immOk, Instr.slotOk, Instr.spans, fits] at h
  omega

theorem spans_padd {rd ra rb : Reg} (h : (Instr.padd rd ra rb).wf = true) :
    rd.val + 3 ≤ 32 ∧ ra.val + 3 ≤ 32 ∧ rb.val + 3 ≤ 32 := by
  simp [Instr.wf, Instr.reject, Instr.immOk, Instr.slotOk, Instr.spans, fits] at h
  omega

theorem spans_glvsplit {rd ra : Reg} (h : (Instr.glvsplit rd ra).wf = true) : rd.val + 3 ≤ 32 := by
  simp [Instr.wf, Instr.reject, Instr.immOk, Instr.slotOk, Instr.spans, fits] at h
  omega

theorem spans_smul {rd ra : Reg} {slot : SlotIx} (h : (Instr.smul rd ra slot).wf = true) : rd.val + 2 ≤ 32 := by
  simp [Instr.wf, Instr.reject, Instr.immOk, Instr.slotOk, Instr.spans, fits] at h
  omega

theorem spans_smulu {rd ra rb : Reg} (h : (Instr.smulu rd ra rb).wf = true) : rd.val + 3 ≤ 32 ∧ rb.val + 3 ≤ 32 := by
  simp [Instr.wf, Instr.reject, Instr.immOk, Instr.slotOk, Instr.spans, fits] at h
  omega

theorem spans_setanch {ra : Reg} {slot : SlotIx} (h : (Instr.setanch ra slot).wf = true) :
    slot.val ≠ 0 ∧ ra.val + 2 ≤ 32 := by
  simp [Instr.wf, Instr.reject, Instr.immOk, Instr.slotOk, Instr.spans, fits] at h
  split_ifs at h with h1 h2
  exact ⟨fun h0 => h2 (Fin.ext h0), by omega⟩

theorem spans_tblrd {rd ra : Reg} {slot : SlotIx} (h : (Instr.tblrd rd ra slot).wf = true) : rd.val + 2 ≤ 32 := by
  simp [Instr.wf, Instr.reject, Instr.immOk, Instr.slotOk, Instr.spans, fits] at h
  omega

theorem spans_binvp {rd ra : Reg} {n : Imm} (h : (Instr.binvp rd ra n).wf = true) :
    n.val ≤ 32 ∧ rd.val + n.val ≤ 32 ∧ ra.val + n.val ≤ 32 := by
  simp [Instr.wf, Instr.reject, Instr.immOk, Instr.slotOk, Instr.spans, fits, Config.maxBatchInv] at h
  split_ifs at h
  omega

theorem spans_pnorm {rd ra : Reg} {n : Imm} (h : (Instr.pnorm rd ra n).wf = true) :
    n.val ≤ 10 ∧ rd.val + 2 * n.val ≤ 32 ∧ ra.val + 3 * n.val ≤ 32 := by
  simp [Instr.wf, Instr.reject, Instr.immOk, Instr.slotOk, Instr.spans, fits, Config.maxBatchNorm] at h
  split_ifs at h
  omega

/-! ### Endings -/

/-- A legal command whose other checks pass. -/
theorem firstRaise_legal {cs : List (Option Raise)} {i : Instr} (hi : i.wf = true) (h : ∀ c ∈ cs, c = none) :
    firstRaise (chkLegal i :: cs) = none := by
  rw [(chkLegal_eq_none i).mpr hi, firstRaise_cons_none]
  exact (firstRaise_eq_none cs).mpr h

/-- A command that ends by writing consecutive registers, its checks passed. -/
theorem exec_writes {s : State} {i : Instr} {checks : List (Option Raise)} {rd : Nat} {vs : List Word}
    (h : exec i s = s.endCommand checks (s.setSpan rd vs)) (hc : firstRaise checks = none)
    (hl : rd + vs.length ≤ 32) : ∃ t, exec i s = .next t ∧ RegEffect s t rd vs := by
  rw [h]
  exact endCommand_writes hc hl

/-- The triple at registers that hold the coordinates of a triple of field elements. -/
theorem triple_of_writesOnly {s t : State} {rd : Nat} {T : Jac} (hx : T.X < P) (hy : T.Y < P) (hz : T.Z < P)
    (h : WritesOnly s t rd [BitVec.ofNat 256 T.X, BitVec.ofNat 256 T.Y, BitVec.ofNat 256 T.Z]) : t.triple rd = T := by
  have e : ∀ v, v < P → (BitVec.ofNat 256 v).toNat = v := fun v hv => by
    rw [BitVec.toNat_ofNat, Nat.mod_eq_of_lt (lt_trans hv P_lt)]
  have x : t.xn (rd + 0) = _ := xn_of_holds (h.1 0 _ rfl)
  have y : t.xn (rd + 1) = _ := xn_of_holds (h.1 1 _ rfl)
  have z : t.xn (rd + 2) = _ := xn_of_holds (h.1 2 _ rfl)
  rw [e _ hx, Nat.add_zero] at x
  rw [e _ hy] at y
  rw [e _ hz] at z
  rw [State.triple, x, y, z]

/-- A table installed by SMUL touches no register and no control register (43_scalar_mult.md R176). -/
theorem smulInstall_fields (s : State) (i : Nat) :
    (s.smulInstall i).regs = s.regs ∧ (s.smulInstall i).status = s.status ∧ (s.smulInstall i).cause = s.cause ∧
      (s.smulInstall i).fcmd = s.fcmd ∧ (s.smulInstall i).finfo = s.finfo ∧ Untouched s (s.smulInstall i) ∧
      (s.smulInstall i).nslot = s.nslot ∧ (s.smulInstall i).draw = s.draw := by
  unfold State.smulInstall
  split
  · simp [State.installTable, Untouched]
  · simp [Untouched]

/-- What every command is: one ending, the legality check first; the state it may complete with has STATUS, the fault
record and everything `Untouched` as at a completion, and the slots as they were but for SMUL, SETANCH and SETW. -/
theorem exec_form (i : Instr) (s : State) : ∃ cs t, exec i s = s.endCommand (chkLegal i :: cs) t ∧
    Completed s t.complete ∧
    ((∀ rd ra slot, i ≠ .smul rd ra slot) → (∀ ra slot, i ≠ .setanch ra slot) → (∀ slot w, i ≠ .setw slot w) →
      SlotsSame s t) := by
  cases i
  case smul rd ra slot =>
    refine ⟨_, _, by simp only [exec, execSmul]; rfl, ?_, fun h => absurd rfl (h _ _ _)⟩
    simp [Completed, Untouched, State.putPair]
  case setanch =>
    refine ⟨_, _, by simp only [exec, execSetanch]; rfl, ?_, fun _ h => absurd rfl (h _ _)⟩
    simp [Completed, Untouched]
  case setw =>
    refine ⟨_, _, by simp only [exec, execSetw]; rfl, ?_, fun _ _ h => absurd rfl (h _ _)⟩
    simp [Completed, Untouched, State.resizeSlot]
  all_goals
    refine ⟨_, _, by simp only [exec, execNop, execMov, execLdc, execAddp, execSubp, execMulp, execSqrp, execPow2p,
      execRedp, execInvp, execSqrtp, execBinvp, execAddn, execSubn, execMuln, execRedn, execInvn, execPdbl, execPadd,
      execPneg, execPnorm, execGlvsplit, execSmulu, execTblrd]; rfl, ?_, fun _ _ _ => ?_⟩
    · simp [Completed, Untouched, State.putPair, State.putTriple, State.putBatch, State.putPairs]
    · simp [SlotsSame, State.putPair, State.putTriple, State.putBatch, State.putPairs]

/-- SMUL on a bound slot with a scalar in range completes (43_scalar_mult.md R175). -/
theorem exec_smul_next {s : State} {rd ra : Reg} {slot : SlotIx} (hw : (Instr.smul rd ra slot).wf = true)
    (hs : slot.val < s.nslot) (ha : (s.slot slot).avalid = true) (h0 : s.xn ra ≠ 0) (hN : s.xn ra < N) :
    exec (.smul rd ra slot) s = .next ((s.smulInstall slot).putPair rd
      (s.smulResult slot (s.xn ra))).complete := by
  have hg := (glvSplit_spec (k := s.xn ra)).1
  exact endCommand_of_none (by simp [firstRaise_eq_none, hw, h0, hN, hs, ha, hg]) _

/-- On a slot as the invariant says, the table SMUL uses is the stored table of its anchor and window size, whether it
hits or not (43_scalar_mult.md R176). -/
theorem smulTable_eq {s : State} {i : Nat} (h : (s.slot i).Ok) :
    s.smulTable i = storedTable (s.slot i).anchor (s.slot i).win.w := by
  by_cases ht : (s.slot i).win.tvalid = true
  · have := h.2.1 ht
    simp [State.smulTable, State.tableHit, this.2.2]
  · simp [State.smulTable, State.tableHit, ht]

/-! ### Points in registers (42_jacobian_point.md R152, R154, 43_scalar_mult.md R175, R180, R182) -/

/-- The registers of a triple of field elements hold field elements. -/
theorem triple_lt {p : State} {i : Nat} {T : Jac} (h : p.triple i = T) (hx : T.X < P) (hy : T.Y < P) (hz : T.Z < P) :
    ∀ j, j < 3 → p.xn (i + j) < P := by
  subst h
  intro j hj
  match j, hj with
  | 0, _ => exact hx
  | 1, _ => exact hy
  | 2, _ => exact hz

/-- PADD of triples of field elements completes with their `jadd` (42_jacobian_point.md R152). -/
theorem exec_padd_next {p : State} {rd ra rb : Reg} (hw : (Instr.padd rd ra rb).wf = true)
    (ha : ∀ j, j < 3 → p.xn (ra.val + j) < P) (hb : ∀ j, j < 3 → p.xn (rb.val + j) < P) :
    ∃ q, exec (.padd rd ra rb) p = .next q ∧ Completed p q ∧ q.triple rd = jadd (p.triple ra) (p.triple rb) := by
  obtain ⟨q, hq, hc, -, hwr⟩ := exec_writes (s := p) (i := .padd rd ra rb) (rd := rd) (vs := [_, _, _]) rfl
    (firstRaise_legal hw (by
      intro c hc
      rcases List.mem_append.mp hc with hc | hc
      · exact chkSpanP_pass ha c hc
      · exact chkSpanP_pass hb c hc)) (spans_padd hw).1
  obtain ⟨l1, l2, l3⟩ := jadd_lt (p := p.triple ra) (q := p.triple rb) (ha 0 (by omega)) (ha 1 (by omega)) (ha 2 (by omega))
    (hb 0 (by omega)) (hb 1 (by omega)) (hb 2 (by omega))
  exact ⟨q, hq, hc, triple_of_writesOnly l1 l2 l3 hwr⟩

/-- SMULU of a triple of field elements with a scalar in range completes with its loop (43_scalar_mult.md R180). -/
theorem exec_smulu_next {p : State} {rd ra rb : Reg} (hw : (Instr.smulu rd ra rb).wf = true)
    (hb : ∀ j, j < 3 → p.xn (rb.val + j) < P) (h0 : p.xn ra ≠ 0) (hN : p.xn ra < N) :
    ∃ q, exec (.smulu rd ra rb) p = .next q ∧ Completed p q ∧ q.triple rd = multiplyUnsafe (p.xn ra) (p.triple rb) := by
  obtain ⟨q, hq, hc, -, hwr⟩ := exec_writes (s := p) (i := .smulu rd ra rb) (rd := rd) (vs := [_, _, _]) rfl
    (firstRaise_legal hw (by
      intro c hc
      rcases List.mem_append.mp hc with hc | hc
      · exact chkSpanP_pass hb c hc
      · simp at hc; rw [hc]; simp [h0, hN])) (spans_smulu hw).1
  obtain ⟨l1, l2, l3⟩ := doubleAndAdd_lt (q := p.triple rb) (hb 0 (by omega)) (hb 1 (by omega)) (hb 2 (by omega)) (p.xn ra) 256
    jzero ⟨by decide, by decide, by decide⟩
  exact ⟨q, hq, hc, triple_of_writesOnly l1 l2 l3 hwr⟩

/-- PNORM in place of a triple that stands for a point of the curve gives the pair that stands for it
(42_jacobian_point.md R154). -/
theorem exec_pnorm_one [Fact (Nat.Prime P)] {p : State} {rd : Reg} (h3 : rd.val + 3 ≤ 32) {A : curve.Point}
    (hA : Rep (p.triple rd) A) (h0 : A ≠ 0) {r : Affine} (hr : Rep (lift r) A) :
    ∃ t, exec (.pnorm rd rd 1) p = .next t ∧ RegEffect p t rd [r.x, r.y] := by
  have hw : (Instr.pnorm rd rd 1).wf = true := by
    simp [Instr.wf, Instr.reject, Instr.immOk, Instr.slotOk, Instr.spans, fits, Config.maxBatchNorm]; omega
  obtain ⟨z, -, hz, hs⟩ := jnorm_getElem? (ts := [p.triple rd]) (by simpa using hA.z) (k := 0) rfl
  have hj : jnorm [p.triple rd] = [r] := by
    have hl : (jnorm [p.triple rd]).length = 1 := by simp
    obtain ⟨a, ha⟩ := List.length_eq_one_iff.mp hl
    rw [ha] at hs ⊢
    have e : a = jscale (p.triple rd) z := Option.some.inj hs
    rw [e, stands_lift_inj (jscale_lt _ _) ⟨hr.x, hr.y⟩ (jscale_rep hA h0 hz).stands hr.stands]
  refine exec_writes (i := .pnorm rd rd 1) (checks := chkLegal (.pnorm rd rd 1) :: chkSpanP p rd 3) ?_
    (firstRaise_legal hw (chkSpanP_pass ?_)) (show rd.val + 2 ≤ 32 by omega)
  · show execPnorm rd rd 1 p = _
    have ht : p.triples rd ((1 : Imm).val) = [p.triple rd] := by
      show p.triples rd 1 = _
      simp [State.triples]
    rw [execPnorm, ht, hj]
    rfl
  · intro j hj'
    match j, hj' with
    | 0, _ => exact hA.x
    | 1, _ => exact hA.y
    | 2, _ => exact hA.z

/-- The anchor of a bound slot that is as the invariant says (10_state.md R38). -/
theorem PSlot.anchor_rep [Fact (Nat.Prime P)] {s : State} {i : Nat} (h : PSlot s i) :
    ∃ A : curve.Point, Rep (lift (s.slot i).anchor) A ∧ A ≠ 0 := by
  obtain ⟨-, hav, hok⟩ := h
  obtain ⟨hx, hy, hc⟩ := hok.1 hav
  obtain ⟨A, hA⟩ := exists_point hc
  exact ⟨A, ⟨hx, hy, (show 1 < P by decide), hA, fun h => absurd h (show ¬1 % P = 0 by decide)⟩,
    by rintro rfl; exact absurd hA (show ¬1 % P = 0 by decide)⟩

/-- What SMUL writes stands for the multiple of the anchor's point (43_scalar_mult.md R175). -/
theorem smulResult_rep [Fact (Nat.Prime P)] {s : State} {i : Nat} (h : PSlot s i) {A : curve.Point}
    (hA : Rep (lift (s.slot i).anchor) A) (h0 : A ≠ 0) {k : Nat} (hk : ScalarInRange k) :
    Rep (lift (s.smulResult i k)) (k • A) := by
  rw [State.smulResult, smulTable_eq h.2.2]
  exact multiply_rep (storedTable_rep hA h0 _) h0 (by have := hk.1; omega) hk.2

/-! ### Table memories keep their form (10_state.md R36) -/

/-- Every slot's table memory has its form. -/
def TablesOk (s : State) : Prop := ∀ i, i < s.nslot → Memory.wf (s.slot i).win.table = true

theorem tablesOk_congr {s t : State} (h : SlotsSame s t) (hs : TablesOk s) : TablesOk t := fun i hi => by
  rw [slot_congr h]
  exact hs i (by rwa [nslot_congr h] at hi)

theorem tablesOk_setWindow {s : State} {i : Nat} {win : Window} (hi : i < s.nslot) (hw : Memory.wf win.table = true)
    (hs : TablesOk s) : TablesOk (s.setWindow i win) := by
  intro j hj
  rw [slot_setWindow s i j win hi]
  split
  · exact hw
  · exact hs j (by simpa using hj)

theorem tablesOk_installTable {s : State} {i : Nat} (hi : i < s.nslot) (a : Affine) (w : WSize) (hs : TablesOk s) :
    TablesOk (s.installTable i (storedTable a w)) := tablesOk_setWindow hi (storedTable_wf a w) hs

theorem tablesOk_resizeSlot {s : State} {i : Nat} (hi : i < s.nslot) (w : WSize) (hs : TablesOk s) :
    TablesOk (s.resizeSlot i w) := tablesOk_setWindow hi (hs i hi) hs

theorem tablesOk_bindSlot {s : State} {i : Nat} (h0 : i ≠ 0) (hi : i < s.nslot) (a : Affine) (hs : TablesOk s) :
    TablesOk (s.bindSlot i a) := by
  intro j hj
  rw [slot_bindSlot s i j a h0 hi]
  split
  · exact hs i hi
  · exact hs j (by simpa using hj)

theorem tablesOk_smulInstall {s : State} {i : Nat} (hi : i < s.nslot) (hs : TablesOk s) : TablesOk (s.smulInstall i) := by
  unfold State.smulInstall
  split
  · exact tablesOk_installTable hi _ _ hs
  · exact hs

/-- Every table memory is empty after reset, at every NSLOT. -/
theorem tablesOk_resetWith (k : Nat) : TablesOk (State.resetWith k) := by
  intro i hi
  cases i with
  | zero => rfl
  | succ i =>
    have hk : i < k := by simpa [State.nslot, State.resetWith] using hi
    simp [State.slot, State.resetWith, List.getD_eq_getElem?_getD, hk, Slot.unbound, Memory.wf]

end Sys2Proof.Machine
end

