-- ==== Sys2Proof/Laws/Host.lean ====
section
/-! SUPPORT. What a turn does, and which host accesses are answered (20_memory.md R54, R57). -/

namespace Sys2Proof.Machine

/-! ### Turns -/

/-- A step with no turn left is the sequencer's. -/
theorem step_nil {s : State} (h : s.turns = []) : step s = s.coreMove := by simp [step, h]

/-- A step with a turn first takes it. -/
theorem step_cons {s : State} {t : Turn} {ts : List Turn} (h : s.turns = t :: ts) :
    step s = ({ s with turns := ts } : State).takeTurn t := by simp [step, h]

/-- A host turn placed before whatever turns the state has. -/
theorem step_host (s : State) (m : HostMove) : step { s with turns := .host m :: s.turns } = s.hostMove m := by
  simp [step, State.takeTurn]

/-- The sequencer's move with a command in flight that decodes. -/
theorem coreMove_ok {s : State} {i : Instr} (hb : s.status.busy = true) (hd : decode s.cmdLatch = .ok i) :
    s.coreMove = exec i s := by simp [State.coreMove, hb, State.endInFlight, hd]

/-- The sequencer's move with a word in flight that is no command. -/
theorem coreMove_error {s : State} {r : Reject} (hb : s.status.busy = true) (hd : decode s.cmdLatch = .error r) :
    s.coreMove = s.illegalWord := by simp [State.coreMove, hb, State.endInFlight, hd]

/-- The sequencer's move with nothing in flight. -/
theorem coreMove_idle {s : State} (hb : s.status.busy = false) : s.coreMove = .next s := by simp [State.coreMove, hb]

/-! ### Accesses -/

/-- A control register answers at any time. -/
theorem accessRefusal_control {s : State} {off : Nat} (h : 0x400 ≤ off) (h2 : off < 0x800) (h4 : off % 4 = 0) :
    s.accessRefusal off 4 = none := by
  simp [State.accessRefusal, State.guarded, h4, show ¬0x1000 ≤ off by omega, show ¬off < 0x400 by omega,
    show ¬0x800 ≤ off by omega]

/-- Every aligned word of the window answers while nothing is in flight. -/
theorem accessRefusal_idle {s : State} {off : Nat} (hb : s.status.busy = false) (h2 : off < 0x1000) (h4 : off % 4 = 0) :
    s.accessRefusal off 4 = none := by
  simp [State.accessRefusal, h4, show ¬0x1000 ≤ off by omega, hb]

/-- A guarded word is refused while a command is in flight. -/
theorem accessRefusal_busy {s : State} {off : Nat} (hb : s.status.busy = true) (h2 : off < 0x1000) (h4 : off % 4 = 0)
    (hg : s.guarded off = true) : s.accessRefusal off 4 = some .hostTouchesBusyCore := by
  simp [State.accessRefusal, h4, show ¬0x1000 ≤ off by omega, hb, hg]

/-- A read that is not refused. -/
theorem hostRead_next {s : State} {off size : Nat} (h : s.accessRefusal off size = none) :
    s.hostRead off size = .next { s with
      reply := .word (if s.rst then Config.freeRead s.draw else s.windowWord off), draw := s.draw + 1 } := by
  simp [State.hostRead, h]

/-- A write that is not refused. -/
theorem hostWrite_next {s : State} {off size : Nat} {v : HostWord} (h : s.accessRefusal off size = none) :
    s.hostWrite off size v = .next { (if s.rst then s else s.windowWrite off v) with reply := .nothing } := by
  simp [State.hostWrite, h]

/-- A register's offsets name its register and its word (20_memory.md R51). -/
theorem windowWord_register (s : State) {i j : Nat} (hi : i < 32) (hj : j < 8) :
    s.windowWord (0x20 * i + 4 * j) = s.regWord i j := by
  rw [State.windowWord, if_pos (by omega)]
  congr 1 <;> omega

theorem windowWrite_register (s : State) {i j : Nat} (hi : i < 32) (hj : j < 8) (v : HostWord) :
    s.windowWrite (0x20 * i + 4 * j) v = s.setRegWord i j v := by
  rw [State.windowWrite, if_pos (by omega)]
  congr 1 <;> omega

end Sys2Proof.Machine
end

