-- ==== Sys2Proof/Laws/PerInstr.lean ====
section
/-! SUPPORT. Statements made per command, one lemma a constructor. The family OpcodeField: the word of a command carries its
opcode in bits 31:24 (30_encoding.md R81, R85). -/

namespace Sys2Proof.Laws.OpcodeField

/-- The word of a command carries its opcode. -/
def Statement (i : Instr) : Prop := opOf (encode i) = i.opcode

theorem nop : Statement (.nop) :=
  opOf_assemble (opcode_lt _) (by decide) (by decide) (by decide) (by decide)

theorem mov (rd : Reg) (ra : Reg) : Statement (.mov rd ra) :=
  opOf_assemble (opcode_lt _) rd.isLt ra.isLt (by decide) (by decide)

theorem ldc (rd : Reg) (c : Const) : Statement (.ldc rd c) :=
  opOf_assemble (opcode_lt _) rd.isLt (by decide) (by decide) (by cases c <;> decide)

theorem addp (rd : Reg) (ra : Reg) (rb : Reg) : Statement (.addp rd ra rb) :=
  opOf_assemble (opcode_lt _) rd.isLt ra.isLt rb.isLt (by decide)

theorem subp (rd : Reg) (ra : Reg) (rb : Reg) : Statement (.subp rd ra rb) :=
  opOf_assemble (opcode_lt _) rd.isLt ra.isLt rb.isLt (by decide)

theorem mulp (rd : Reg) (ra : Reg) (rb : Reg) : Statement (.mulp rd ra rb) :=
  opOf_assemble (opcode_lt _) rd.isLt ra.isLt rb.isLt (by decide)

theorem sqrp (rd : Reg) (ra : Reg) : Statement (.sqrp rd ra) :=
  opOf_assemble (opcode_lt _) rd.isLt ra.isLt (by decide) (by decide)

theorem pow2p (rd : Reg) (ra : Reg) (k : Imm) : Statement (.pow2p rd ra k) :=
  opOf_assemble (opcode_lt _) rd.isLt ra.isLt (by decide) k.isLt

theorem redp (rd : Reg) (ra : Reg) : Statement (.redp rd ra) :=
  opOf_assemble (opcode_lt _) rd.isLt ra.isLt (by decide) (by decide)

theorem invp (rd : Reg) (ra : Reg) : Statement (.invp rd ra) :=
  opOf_assemble (opcode_lt _) rd.isLt ra.isLt (by decide) (by decide)

theorem sqrtp (rd : Reg) (ra : Reg) : Statement (.sqrtp rd ra) :=
  opOf_assemble (opcode_lt _) rd.isLt ra.isLt (by decide) (by decide)

theorem binvp (rd : Reg) (ra : Reg) (n : Imm) : Statement (.binvp rd ra n) :=
  opOf_assemble (opcode_lt _) rd.isLt ra.isLt (by decide) n.isLt

theorem addn (rd : Reg) (ra : Reg) (rb : Reg) : Statement (.addn rd ra rb) :=
  opOf_assemble (opcode_lt _) rd.isLt ra.isLt rb.isLt (by decide)

theorem subn (rd : Reg) (ra : Reg) (rb : Reg) : Statement (.subn rd ra rb) :=
  opOf_assemble (opcode_lt _) rd.isLt ra.isLt rb.isLt (by decide)

theorem muln (rd : Reg) (ra : Reg) (rb : Reg) : Statement (.muln rd ra rb) :=
  opOf_assemble (opcode_lt _) rd.isLt ra.isLt rb.isLt (by decide)

theorem redn (rd : Reg) (ra : Reg) : Statement (.redn rd ra) :=
  opOf_assemble (opcode_lt _) rd.isLt ra.isLt (by decide) (by decide)

theorem invn (rd : Reg) (ra : Reg) : Statement (.invn rd ra) :=
  opOf_assemble (opcode_lt _) rd.isLt ra.isLt (by decide) (by decide)

theorem pdbl (rd : Reg) (ra : Reg) : Statement (.pdbl rd ra) :=
  opOf_assemble (opcode_lt _) rd.isLt ra.isLt (by decide) (by decide)

theorem padd (rd : Reg) (ra : Reg) (rb : Reg) : Statement (.padd rd ra rb) :=
  opOf_assemble (opcode_lt _) rd.isLt ra.isLt rb.isLt (by decide)

theorem pneg (rd : Reg) (ra : Reg) : Statement (.pneg rd ra) :=
  opOf_assemble (opcode_lt _) rd.isLt ra.isLt (by decide) (by decide)

theorem pnorm (rd : Reg) (ra : Reg) (n : Imm) : Statement (.pnorm rd ra n) :=
  opOf_assemble (opcode_lt _) rd.isLt ra.isLt (by decide) n.isLt

theorem glvsplit (rd : Reg) (ra : Reg) : Statement (.glvsplit rd ra) :=
  opOf_assemble (opcode_lt _) rd.isLt ra.isLt (by decide) (by decide)

theorem smul (rd : Reg) (ra : Reg) (slot : SlotIx) : Statement (.smul rd ra slot) :=
  opOf_assemble (opcode_lt _) rd.isLt ra.isLt (by decide) (by have := slot.isLt; omega)

theorem smulu (rd : Reg) (ra : Reg) (rb : Reg) : Statement (.smulu rd ra rb) :=
  opOf_assemble (opcode_lt _) rd.isLt ra.isLt rb.isLt (by decide)

theorem setanch (ra : Reg) (slot : SlotIx) : Statement (.setanch ra slot) :=
  opOf_assemble (opcode_lt _) (by decide) ra.isLt (by decide) (by have := slot.isLt; omega)

theorem setw (slot : SlotIx) (w : WSize) : Statement (.setw slot w) :=
  opOf_assemble (opcode_lt _) (by decide) (by decide) (by decide) (by have := slot.isLt; cases w <;> simp only [WSize.val] <;> omega)

theorem tblrd (rd : Reg) (ra : Reg) (slot : SlotIx) : Statement (.tblrd rd ra slot) :=
  opOf_assemble (opcode_lt _) rd.isLt ra.isLt (by decide) (by have := slot.isLt; omega)

end Sys2Proof.Laws.OpcodeField
end

