-- ==== Sys2Proof/Laws/Run.lean ====
section
/-! SUPPORT. Runs (70_reset_and_hazards.md R259): what a turn does to the turns still to come and to BUSY, steps and runs
put together. -/

namespace Sys2Proof.Machine

/-! ### One turn -/

/-- Every command ends with BUSY = 0 and leaves the turns to come as they were. -/
theorem exec_ends (i : Instr) (s : State) : ∃ t, exec i s = .next t ∧ t.turns = s.turns ∧ t.status.busy = false := by
  obtain ⟨cs, t, e, hc, -⟩ := exec_form i s
  rw [e]
  rcases endCommand_cases s (chkLegal i :: cs) t with ⟨-, e⟩ | ⟨r, -, e⟩
  · obtain ⟨hb, -, -, -, -, -, -, -, -, -, ht, -⟩ := hc
    exact ⟨_, e, ht, hb⟩
  · exact ⟨_, e, rfl, rfl⟩

/-- After the sequencer's move nothing is in flight. -/
theorem coreMove_ends (s : State) : ∃ t, s.coreMove = .next t ∧ t.turns = s.turns ∧ t.status.busy = false := by
  cases hb : s.status.busy
  · exact ⟨s, coreMove_idle hb, rfl, hb⟩
  · cases hd : decode s.cmdLatch with
    | ok i => rw [coreMove_ok hb hd]; exact exec_ends i s
    | error r => rw [coreMove_error hb hd]; exact ⟨_, rfl, rfl, rfl⟩

/-- What a host write does to the turns to come: nothing. -/
theorem windowWrite_turns (s : State) (off : Nat) (v : HostWord) : (s.windowWrite off v).turns = s.turns := by
  unfold State.windowWrite State.setRegWord State.issue State.writeStatus State.writeCtrl
  repeat' split
  all_goals rfl

/-- A turn gives a next state with the same turns to come, or the model refuses the host's access. -/
theorem takeTurn_next (s : State) (e : Turn) :
    (∃ r, s.takeTurn e = .refused r) ∨ ∃ t, s.takeTurn e = .next t ∧ t.turns = s.turns := by
  cases e with
  | core =>
    obtain ⟨t, h, ht, -⟩ := coreMove_ends s
    exact .inr ⟨t, h, ht⟩
  | statusAtEnd v =>
    obtain ⟨t, h, ht, -⟩ := coreMove_ends ({ (if s.rst then s else s.writeStatus v) with reply := .nothing } : State)
    refine .inr ⟨t, h, ht.trans ?_⟩
    cases s.rst <;> rfl
  | host m =>
    cases m with
    | read off size =>
      simp only [State.takeTurn, State.hostMove, State.hostRead]
      split
      · exact .inl ⟨_, rfl⟩
      · exact .inr ⟨_, rfl, rfl⟩
    | write off size v =>
      simp only [State.takeTurn, State.hostMove, State.hostWrite]
      split
      · exact .inl ⟨_, rfl⟩
      · refine .inr ⟨_, rfl, ?_⟩
        cases s.rst
        · exact windowWrite_turns s off v
        · rfl
    | assertRst => exact .inr ⟨_, rfl, rfl⟩
    | releaseRst =>
      refine .inr ⟨_, rfl, ?_⟩
      cases s.rst <;> rfl
    | sampleIrq => exact .inr ⟨_, rfl, rfl⟩

/-! ### Steps and runs -/

theorem steps_zero (s : State) : State.steps 0 s = .next s := rfl

theorem steps_succ_next {s t : State} (h : step s = .next t) (n : Nat) : State.steps (n + 1) s = State.steps n t := by
  simp [State.steps, h]

theorem steps_succ_refused {s : State} {r : Refusal} (h : step s = .refused r) (n : Nat) :
    State.steps (n + 1) s = .refused r := by simp [State.steps, h]

/-- With as many steps as turns every turn is taken, or the model refuses one of them. -/
theorem after_next (ts : List Turn) : ∀ s : State, (∃ r, s.after ts = .refused r) ∨
    ∃ t, s.after ts = .next t ∧ t.turns = [] := by
  induction ts with
  | nil => exact fun s => .inr ⟨_, rfl, rfl⟩
  | cons e ts ih =>
    intro s
    have hs : step { s with turns := e :: ts } = ({ s with turns := ts } : State).takeTurn e := step_cons rfl
    rcases takeTurn_next { s with turns := ts } e with ⟨r, h⟩ | ⟨t, h, ht⟩
    · exact .inl ⟨r, steps_succ_refused (hs.trans h) _⟩
    · have e2 : s.after (e :: ts) = t.after ts := by
        rw [State.after, List.length_cons, steps_succ_next (hs.trans h), State.after]
        congr 1
        have ht : t.turns = ts := ht
        rw [← ht]
      rw [e2]
      exact ih t

/-- A run is its turns and then one move of the sequencer. -/
theorem steps_succ (n : Nat) : ∀ s t : State, State.steps n s = .next t → State.steps (n + 1) s = step t := by
  induction n with
  | zero =>
    intro s t h
    simp only [State.steps, Host.Outcome.next.injEq] at h
    subst h
    simp only [State.steps]
    cases step s <;> rfl
  | succ n ih =>
    intro s t h
    cases hs : step s with
    | next u =>
      rw [steps_succ_next hs] at h ⊢
      exact ih u t h
    | refused r => simp [State.steps, hs] at h
    | fault f => exact nomatch f

/-- A run whose turns are all taken ends with the sequencer's move. -/
theorem run_of_after {s t : State} {ts : List Turn} (h : s.after ts = .next t) (ht : t.turns = []) :
    s.run ts = t.coreMove := by rw [State.run, steps_succ _ _ t h, step_nil ht]

/-- A refused turn refuses the run. -/
theorem steps_refused (n : Nat) : ∀ (s : State) (r : Refusal), State.steps n s = .refused r →
    State.steps (n + 1) s = .refused r := by
  induction n with
  | zero => intro s r h; simp [State.steps] at h
  | succ n ih =>
    intro s r h
    cases hs : step s with
    | next u =>
      rw [steps_succ_next hs] at h ⊢
      exact ih u r h
    | refused q =>
      rw [steps_succ_refused hs] at h ⊢
      exact h
    | fault f => exact nomatch f

end Sys2Proof.Machine
end

