-- ==== Sys2Proof/Tests/Slice0.lean ====
section
/-! SUPPORT. The model's own tests: the checks of WellFormed, decoding of words written out from 30_encoding.md and
95_test_vectors.md section 7, one step of each command on values of 95_test_vectors.md, the host window, and the witnesses
of the statements' hypotheses. Every expected value is the spec's. -/

namespace Sys2Proof.Tests

open Sys2Proof Sys2Proof.Machine Sys2Proof.Statement

set_option Elab.async false

/-! ### Helpers -/

/-- The state after reset with some registers written. -/
def regs (l : List (Nat × Nat)) : State := l.foldl (fun s p => s.putNat p.1 p.2) State.reset

/-- The state of a next-state outcome. -/
def get : Out → State
  | .next s => s
  | _ => State.reset

/-- The outcome is a next state of which `f` holds. -/
def nextWith (o : Out) (f : State → Bool) : Bool :=
  match o with
  | .next s => f s
  | _ => false

/-- One step with the command word `w` in flight completes and leaves these values in these registers. -/
def runs (w : Nat) (s : State) (post : List (Nat × Nat)) : Bool :=
  nextWith (step (s.withFetchWord 32 w)) (fun t =>
    t.status.done && !t.status.busy && !t.status.fault && post.all (fun p => t.xn p.1 = p.2))

/-- One step with the command word `w` in flight ends by this fault, and leaves the registers and slots alone. -/
def traps (w : Nat) (s : State) (code info : Nat) : Bool :=
  nextWith (step (s.withFetchWord 32 w)) (fun t =>
    t.status.fault && !t.status.busy && t.cause = BitVec.ofNat 32 code && t.finfo = BitVec.ofNat 32 info &&
      t.fcmd = BitVec.ofNat 32 w && t.regs = s.regs && t.free = s.free && t.base = s.base)

/-- One step with the command word `w` in flight, and a property of the state after it. -/
def after (w : Nat) (s : State) (f : State → Bool) : Bool := nextWith (step (s.withFetchWord 32 w)) f

/-- The host reads the word at `off` and gets `v`. -/
def reads (s : State) (off v : Nat) : Bool :=
  nextWith (s.hostRead off 4) (fun t => t.reply = .word (BitVec.ofNat 32 v))

/-- The registers 0 to 2 hold the base point as a triple. -/
def gj : List (Nat × Nat) := [(0, Gx), (1, Gy), (2, 1)]

/-- 2G (95_test_vectors.md J15). -/
def twoG : Affine :=
  { x := 0xC6047F9441ED7D6D3045406E95C07CD85C778E4B8CEF3CA7ABAC09B95C709EE5#256
    y := 0x1AE168FEA63DC339A3C58419466CEAEEF7F632653266D0E1236431A950CFE52A#256 }

/-- Slot 1 bound to 2G (T1). -/
def bound (l : List (Nat × Nat)) : State := (regs l).bindSlot 1 twoG

/-- Slot 1 bound to 2G, W[1] = 2, its table installed. -/
def cached (l : List (Nat × Nat)) : State := ((bound l).resizeSlot 1 .w2).installTable 1 (storedTable twoG .w2)

/-! ### WellFormed: an ill-formed term for each check -/

/-- R83: BINVP with n = 33 and PNORM with n = 11; the largest lengths pass. -/
theorem test_wf_imm : (Instr.binvp 0 0 33).reject = some .badImm ∧ (Instr.pnorm 0 0 11).reject = some .badImm ∧
    (Instr.binvp 0 0 32).wf = true ∧ (Instr.pnorm 12 2 10).wf = true := by decide

/-- R84: spans that pass r31, one of each length; the last span that fits passes. -/
theorem test_wf_span : (Instr.pdbl 30 0).reject = some .badSpan ∧ (Instr.smul 31 0 0).reject = some .badSpan ∧
    (Instr.binvp 31 0 2).reject = some .badSpan ∧ (Instr.pnorm 13 2 10).reject = some .badSpan ∧
    (Instr.setanch 31 1).reject = some .badSpan ∧ (Instr.smulu 0 0 30).reject = some .badSpan ∧
    (Instr.tblrd 31 0 0).reject = some .badSpan ∧ (Instr.pdbl 29 29).wf = true ∧ (Instr.binvp 31 31 0).wf = true := by decide

/-- R88(e): SETANCH naming slot 0. -/
theorem test_wf_slot : (Instr.setanch 6 0).reject = some .anchorSlotZero ∧ (Instr.setanch 6 1).wf = true := by decide

/-! ### Decoding: a word of every constructor from R81 (op·2^24 + rd·2^19 + ra·2^14 + rb·2^9 + imm) -/

/-- R87: NOP. -/
theorem test_decode_nop : decode 0x00000000#32 = .ok .nop := by decide

/-- section 7: MOV r7, r1. -/
theorem test_decode_mov : decode 0x01384000#32 = .ok (.mov 7 1) := by decide

/-- R87: LDC r5, #4. -/
theorem test_decode_ldc : decode 0x02280004#32 = .ok (.ldc 5 .gx) := by decide

/-- program 1: ADDP r1, r1, r2. -/
theorem test_decode_addp : decode 0x10084400#32 = .ok (.addp 1 1 2) := by decide

/-- program 1: SUBP r5, r4, r1. -/
theorem test_decode_subp : decode 0x11290200#32 = .ok (.subp 5 4 1) := by decide

/-- R87: MULP r3, r1, r2. -/
theorem test_decode_mulp : decode 0x12184400#32 = .ok (.mulp 3 1 2) := by decide

/-- R87: SQRP r1, r0. -/
theorem test_decode_sqrp : decode 0x13080000#32 = .ok (.sqrp 1 0) := by decide

/-- R87: POW2P r2, r1, #88. -/
theorem test_decode_pow2p : decode 0x14104058#32 = .ok (.pow2p 2 1 88) := by decide

/-- R81: REDP r31, r16 = 0x15·2^24 + 31·2^19 + 16·2^14. -/
theorem test_decode_redp : decode 0x15FC0000#32 = .ok (.redp 31 16) := by decide

/-- program 3: INVP r1, r0. -/
theorem test_decode_invp : decode 0x16080000#32 = .ok (.invp 1 0) := by decide

/-- program 1: SQRTP r3, r1. -/
theorem test_decode_sqrtp : decode 0x17184000#32 = .ok (.sqrtp 3 1) := by decide

/-- R87: BINVP r8, r4, #3. -/
theorem test_decode_binvp : decode 0x18410003#32 = .ok (.binvp 8 4 3) := by decide

/-- program 2: ADDN r9, r9, r8. -/
theorem test_decode_addn : decode 0x204A5000#32 = .ok (.addn 9 9 8) := by decide

/-- R81: SUBN r1, r2, r4 = 0x21·2^24 + 1·2^19 + 2·2^14 + 4·2^9. -/
theorem test_decode_subn : decode 0x21088800#32 = .ok (.subn 1 2 4) := by decide

/-- R81: MULN r8, r16, r31 = 0x22·2^24 + 8·2^19 + 16·2^14 + 31·2^9. -/
theorem test_decode_muln : decode 0x22443E00#32 = .ok (.muln 8 16 31) := by decide

/-- R81: REDN r4, r9 = 0x25·2^24 + 4·2^19 + 9·2^14. -/
theorem test_decode_redn : decode 0x25224000#32 = .ok (.redn 4 9) := by decide

/-- R81: INVN r2, r17 = 0x26·2^24 + 2·2^19 + 17·2^14. -/
theorem test_decode_invn : decode 0x26144000#32 = .ok (.invn 2 17) := by decide

/-- program 2: PDBL r3, r0. -/
theorem test_decode_pdbl : decode 0x30180000#32 = .ok (.pdbl 3 0) := by decide

/-- R87: PADD r9, r0, r3. -/
theorem test_decode_padd : decode 0x31480600#32 = .ok (.padd 9 0 3) := by decide

/-- R81: PNEG r29, r5 = 0x32·2^24 + 29·2^19 + 5·2^14. -/
theorem test_decode_pneg : decode 0x32E94000#32 = .ok (.pneg 29 5) := by decide

/-- section 7: PNORM r12, r2, #10. -/
theorem test_decode_pnorm : decode 0x3360800A#32 = .ok (.pnorm 12 2 10) := by decide

/-- R81: GLVSPLIT r3, r8 = 0x40·2^24 + 3·2^19 + 8·2^14. -/
theorem test_decode_glvsplit : decode 0x401A0000#32 = .ok (.glvsplit 3 8) := by decide

/-- R87: SMUL r4, r0, #1. -/
theorem test_decode_smul : decode 0x41200001#32 = .ok (.smul 4 0 1) := by decide

/-- section 7: SMULU r7, r0, r4. -/
theorem test_decode_smulu : decode 0x42380800#32 = .ok (.smulu 7 0 4) := by decide

/-- R87: SETANCH #1, r6. -/
theorem test_decode_setanch : decode 0x48018001#32 = .ok (.setanch 6 1) := by decide

/-- R87: SETW #1, #4 and SETW #0, #8. -/
theorem test_decode_setw : decode 0x49000081#32 = .ok (.setw 1 .w4) ∧ decode 0x49000100#32 = .ok (.setw 0 .w8) := by decide

/-- R87: TBLRD r10, r2, #0. -/
theorem test_decode_tblrd : decode 0x4A508000#32 = .ok (.tblrd 10 2 0) := by decide

/-- Section 7: words that are no command. -/
theorem test_decode_illegal : decode 0x03000000#32 = .error .unknownOp ∧
    decode 0xFFFFFFFF#32 = .error .unknownOp ∧
    decode 0x00000001#32 = .error .mustBeZero ∧
    decode 0x12184401#32 = .error .mustBeZero ∧
    decode 0x13080200#32 = .error .mustBeZero ∧
    decode 0x0200000E#32 = .error .badImm ∧
    decode 0x30F00000#32 = .error .badSpan ∧
    decode 0x18000021#32 = .error .badImm ∧
    decode 0x18F80002#32 = .error .badSpan ∧
    decode 0x3300000B#32 = .error .badImm ∧
    decode 0x41F80000#32 = .error .badSpan ∧
    decode 0x41200020#32 = .error .mustBeZero ∧
    decode 0x48018000#32 = .error .anchorSlotZero ∧
    decode 0x49000061#32 = .error .badImm ∧
    decode 0x49000001#32 = .error .badImm := by decide

/-- Section 7: an empty batch fits anywhere. -/
theorem test_decode_empty_batch : decode 0x18FFC000#32 = .ok (.binvp 31 31 0) := by decide

/-- An illegal word in flight takes ILLEGAL_CMD, FINFO 0 (R88). -/
theorem test_illegal_word_traps : traps 0x12184401 (regs [(1, 2), (2, 3)]) 1 0 = true ∧ traps 0x49000061 (regs []) 1 0 = true := by decide

/-! ### One step of each command: values of 95_test_vectors.md -/

/-- R210: NOP completes. -/
theorem test_nop : runs 0x00000000 (regs [(3, 0x5)])
    [(3, 0x5)] = true := by decide +kernel

/-- R211: MOV copies any value, P and more included. -/
theorem test_mov : runs 0x01384000 (regs [(1, 0xFFFFFFFFFFFFFFFFFFFFFFFFFFFFFFFFFFFFFFFFFFFFFFFFFFFFFFFFFFFFFFFF)])
    [(1, 0xFFFFFFFFFFFFFFFFFFFFFFFFFFFFFFFFFFFFFFFFFFFFFFFFFFFFFFFFFFFFFFFF), (7, 0xFFFFFFFFFFFFFFFFFFFFFFFFFFFFFFFFFFFFFFFFFFFFFFFFFFFFFFFFFFFFFFFF)] = true := by decide +kernel

/-- R213: LDC r0, #BETA (selector 6). -/
theorem test_ldc : runs 0x02000006 (regs [])
    [(0, 0x7AE96A2B657C07106E64479EAC3434E99CF0497512F58995C1396C28719501EE)] = true := by decide +kernel

/-- A2: the sum of P - 1 and itself. -/
theorem test_addp : runs 0x10080000 (regs [(0, 0xFFFFFFFFFFFFFFFFFFFFFFFFFFFFFFFFFFFFFFFFFFFFFFFFFFFFFFFEFFFFFC2E)])
    [(1, 0xFFFFFFFFFFFFFFFFFFFFFFFFFFFFFFFFFFFFFFFFFFFFFFFFFFFFFFFEFFFFFC2D)] = true := by decide +kernel

/-- F3: the first operand that is out of range is reported. -/
theorem test_addp_range : traps 0x10004400 (regs [(1, 0xFFFFFFFFFFFFFFFFFFFFFFFFFFFFFFFFFFFFFFFFFFFFFFFFFFFFFFFEFFFFFC2F), (2, 0xFFFFFFFFFFFFFFFFFFFFFFFFFFFFFFFFFFFFFFFFFFFFFFFFFFFFFFFEFFFFFC2F)]) 2 1 = true := by decide +kernel

/-- A4: 0 - 1. -/
theorem test_subp : runs 0x11100200 (regs [(0, 0x0), (1, 0x1)])
    [(2, 0xFFFFFFFFFFFFFFFFFFFFFFFFFFFFFFFFFFFFFFFFFFFFFFFFFFFFFFFEFFFFFC2E)] = true := by decide +kernel

/-- A10: 2^255 times 2. -/
theorem test_mulp : runs 0x12100200 (regs [(0, 0x8000000000000000000000000000000000000000000000000000000000000000), (1, 0x2)])
    [(2, 0x1000003D1)] = true := by decide +kernel

/-- A12: Gx squared. -/
theorem test_sqrp : runs 0x13080000 (regs [(0, Gx)])
    [(1, 0x8550E7D238FCF3086BA9ADCF0FB52A9DE3652194D06CB5BB38D50229B854FC49)] = true := by decide +kernel

/-- A14: 2 squared 9 times. -/
theorem test_pow2p : runs 0x14080009 (regs [(0, 0x2)])
    [(1, 0x1000007A2000E90A1)] = true := by decide +kernel

/-- A16: k = 0 copies. -/
theorem test_pow2p_zero : runs 0x14080000 (regs [(0, Gx)])
    [(1, Gx)] = true := by decide +kernel

/-- A17: 2^256 - 1 modulo P. -/
theorem test_redp : runs 0x15080000 (regs [(0, 0xFFFFFFFFFFFFFFFFFFFFFFFFFFFFFFFFFFFFFFFFFFFFFFFFFFFFFFFFFFFFFFFF)])
    [(1, 0x1000003D0)] = true := by decide +kernel

/-- I2: the inverse of 2. -/
theorem test_invp : runs 0x16080000 (regs [(0, 0x2)])
    [(1, 0x7FFFFFFFFFFFFFFFFFFFFFFFFFFFFFFFFFFFFFFFFFFFFFFFFFFFFFFF7FFFFE18)] = true := by decide +kernel

/-- F4: INVP of 0. -/
theorem test_invp_zero : traps 0x16080000 (regs [(0, 0x0), (1, 0x5)]) 3 0 = true := by decide +kernel

/-- Q4: the root of 9 is P - 3. -/
theorem test_sqrtp : runs 0x17080000 (regs [(0, 0x9)])
    [(1, 0xFFFFFFFFFFFFFFFFFFFFFFFFFFFFFFFFFFFFFFFFFFFFFFFFFFFFFFFEFFFFFC2C)] = true := by decide +kernel

/-- Q6: a non-square completes too. -/
theorem test_sqrtp_nonsquare : runs 0x17080000 (regs [(0, 0x7)])
    [(1, 0x8F537EEFDFC1606A0727CD69B4A7333D38ED44E3932A7179EECB4B6FBA9360DC)] = true := by decide +kernel

/-- I7: a zero passes through. -/
theorem test_binvp : runs 0x18410003 (regs [(4, 0x2), (5, 0x0), (6, 0x3)])
    [(8, 0x7FFFFFFFFFFFFFFFFFFFFFFFFFFFFFFFFFFFFFFFFFFFFFFFFFFFFFFF7FFFFE18), (9, 0x0), (10, 0xAAAAAAAAAAAAAAAAAAAAAAAAAAAAAAAAAAAAAAAAAAAAAAAAAAAAAAA9FFFFFD75)] = true := by decide +kernel

/-- I10: an empty batch completes. -/
theorem test_binvp_empty : runs 0x18FFC000 (regs [(31, 0x4)])
    [(31, 0x4)] = true := by decide +kernel

/-- A21: the sum of n - 1 and itself. -/
theorem test_addn : runs 0x20080000 (regs [(0, 0xFFFFFFFFFFFFFFFFFFFFFFFFFFFFFFFEBAAEDCE6AF48A03BBFD25E8CD0364140)])
    [(1, 0xFFFFFFFFFFFFFFFFFFFFFFFFFFFFFFFEBAAEDCE6AF48A03BBFD25E8CD036413F)] = true := by decide +kernel

/-- A32: P - 1 is no scalar. -/
theorem test_addn_range : traps 0x20080200 (regs [(0, 0xFFFFFFFFFFFFFFFFFFFFFFFFFFFFFFFFFFFFFFFFFFFFFFFFFFFFFFFEFFFFFC2E), (1, 0x0)]) 2 0 = true := by decide +kernel

/-- A24: 0 - 1. -/
theorem test_subn : runs 0x21100200 (regs [(0, 0x0), (1, 0x1)])
    [(2, 0xFFFFFFFFFFFFFFFFFFFFFFFFFFFFFFFEBAAEDCE6AF48A03BBFD25E8CD0364140)] = true := by decide +kernel

/-- A26: λ squared. -/
theorem test_muln : runs 0x22080000 (regs [(0, Lambda)])
    [(1, 0xAC9C52B33FA3CF1F5AD9E3FD77ED9BA4A880B9FC8EC739C2E0CFC810B51283CE)] = true := by decide +kernel

/-- A29: P modulo n. -/
theorem test_redn : runs 0x25080000 (regs [(0, 0xFFFFFFFFFFFFFFFFFFFFFFFFFFFFFFFFFFFFFFFFFFFFFFFFFFFFFFFEFFFFFC2F)])
    [(1, 0x14551231950B75FC4402DA1722FC9BAEE)] = true := by decide +kernel

/-- I11: the inverse of 2. -/
theorem test_invn : runs 0x26080000 (regs [(0, 0x2)])
    [(1, 0x7FFFFFFFFFFFFFFFFFFFFFFFFFFFFFFF5D576E7357A4501DDFE92F46681B20A1)] = true := by decide +kernel

/-- I14: INVN of 0. -/
theorem test_invn_zero : traps 0x26080000 (regs [(0, 0x0)]) 3 0 = true := by decide +kernel

/-- J1: the base point doubled. -/
theorem test_pdbl : runs 0x30180000 (regs gj)
    [(3, 0x7D152C041EA8E1DC2191843D1FA9DB55B68F88FEF695E2C791D40444B365AFC2), (4, 0x56915849F52CC8F76F5FD7E4BF60DB4A43BF633E1B1383F85FE89164BFADCBDB), (5, 0x9075B4EE4D4788CABB49F7F81C221151FA2F68914D0AA833388FA11FF621A970)] = true := by decide +kernel

/-- J3: ZERO doubled. -/
theorem test_pdbl_zero : runs 0x30180000 (regs [(0, 0x0), (1, 0x1), (2, 0x0)])
    [(3, 0x0), (4, 0xFFFFFFFFFFFFFFFFFFFFFFFFFFFFFFFFFFFFFFFFFFFFFFFFFFFFFFFEFFFFFC27), (5, 0x0)] = true := by decide +kernel

/-- J5: G + 2G. -/
theorem test_padd : runs 0x31480600 (regs (gj ++ [(3, 0x7D152C041EA8E1DC2191843D1FA9DB55B68F88FEF695E2C791D40444B365AFC2), (4, 0x56915849F52CC8F76F5FD7E4BF60DB4A43BF633E1B1383F85FE89164BFADCBDB), (5, 0x9075B4EE4D4788CABB49F7F81C221151FA2F68914D0AA833388FA11FF621A970)]))
    [(9, 0xCA90EF9B06D7EB51D650E9145E3083CBD8DF8759168862036F97A358F089848), (10, 0x435AFE76017B8D55D04FF8A98DD60B2BA7EB6F87F6B28182CA4493D7165DD127), (11, 0x9242FA9C0B9F23A3BFEA6A0EB6DBCFCBC4853FE9A25EE948105DC66A2A9B5BAA)] = true := by decide +kernel

/-- J12: an off-curve operand with Z = 0 goes through the formula. -/
theorem test_padd_corner : runs 0x31480600 (regs (gj ++ [(3, 5), (4, 9), (5, 0)]))
    [(9, 0xFFFFFFFFFFFFFFFFFFFFFFFFFFFFFFFFFFFFFFFFFFFFFFFFFFFFFFFEFFFFFC03), (10, 0x18C), (11, 0x0)] = true := by decide +kernel

/-- J13: the base point negated. -/
theorem test_pneg : runs 0x32180000 (regs gj)
    [(3, Gx), (4, 0xB7C52588D95C3B9AA25B0403F1EEF75702E84BB7597AABE663B82F6F04EF2777), (5, 0x1)] = true := by decide +kernel

/-- J18: 2G, an identity and G. -/
theorem test_pnorm : runs 0x33480003 (regs [(0, 0x7D152C041EA8E1DC2191843D1FA9DB55B68F88FEF695E2C791D40444B365AFC2), (1, 0x56915849F52CC8F76F5FD7E4BF60DB4A43BF633E1B1383F85FE89164BFADCBDB), (2, 0x9075B4EE4D4788CABB49F7F81C221151FA2F68914D0AA833388FA11FF621A970), (3, 0x0), (4, 0x1), (5, 0x0), (6, Gx), (7, Gy), (8, 0x1)])
    [(9, 0xC6047F9441ED7D6D3045406E95C07CD85C778E4B8CEF3CA7ABAC09B95C709EE5), (10, 0x1AE168FEA63DC339A3C58419466CEAEEF7F632653266D0E1236431A950CFE52A), (11, 0x0), (12, 0x0), (13, Gx), (14, Gy)] = true := by decide +kernel

/-- V4: both halves negated. -/
theorem test_glvsplit : runs 0x40080000 (regs [(0, 0x100000000000000000000000000000000)])
    [(1, 0x14CA50F7A8E2F3F657C1108D9D44CFD8), (2, 0x3086D221A7D46BCDE86C90E49284EB15), (3, 0x3)] = true := by decide +kernel

/-- M10: λ·G = (β·Gx, Gy), W[0] = 1. -/
theorem test_smul : runs 0x41200000 ((regs [(0, Lambda)]).resizeSlot 0 .w1)
    [(4, 0xBCACE2E99DA01887AB0102B696902325872844067F15E98DA7BBA04400B88FCB), (5, Gy)] = true := by decide +kernel

/-- M15: (n − 1)·2G from the cached table of slot 1. -/
theorem test_smul_cached : runs 0x41200001 (cached [(0, 0xFFFFFFFFFFFFFFFFFFFFFFFFFFFFFFFEBAAEDCE6AF48A03BBFD25E8CD0364140)])
    [(4, 0xC6047F9441ED7D6D3045406E95C07CD85C778E4B8CEF3CA7ABAC09B95C709EE5), (5, 0xE51E970159C23CC65C3A7BE6B99315110809CD9ACD992F1EDC9BCE55AF301705)] = true := by decide +kernel

/-- X5: 7·G. -/
theorem test_smulu : runs 0x42380800 (regs [(0, 0x7), (4, Gx), (5, Gy), (6, 0x1)])
    [(7, 0xA730951385F1B50A67DBC4B609B25A3DD7E567279DED01675F17AFAD98237B7A), (8, 0xD947909CC917F7602F701F85434DA99CDC012146CB812041A8D78EC0D12809E4), (9, 0xFB2E498E6FE1A16B7510B125C9A527554CDAB84A9CB696E729CD32F46631EDF9)] = true := by decide +kernel

/-- T1: SETANCH #1 of 2G. -/
theorem test_setanch : after 0x48018001 (regs [(6, twoG.x.toNat), (7, twoG.y.toNat)])
    (fun t => t.status.done && reads t 0x8C0 0x11 && reads t 0x880 0xC6047F94) = true := by decide +kernel

/-- T2: (Gx, Gy + 1) is not on the curve. -/
theorem test_setanch_off_curve : traps 0x48018001 (regs [(6, Gx), (7, Gy + 1)]) 5 6 = true := by decide +kernel

/-- T7: SETW #1, #4 after T1; T8: SETW #0, #4 after reset. -/
theorem test_setw : after 0x49000081 (bound []) (fun t => t.status.done && reads t 0x8C0 0x41) = true ∧
    after 0x49000080 (regs []) (fun t => t.status.done && reads t 0x840 0x41) = true := by decide

/-- Section 7: SETW #5, #8 with NSLOT = 2. -/
theorem test_setw_no_slot : traps 0x49000105 (regs []) 7 5 = true := by decide

/-- Entry 1 of the table of 2G at W = 2 is 4G (R173, J17). -/
theorem test_tblrd : runs 0x4A508001 (cached [(2, 1)])
    [(10, 0xE493DBF1C10D80F3581E4904930B1404CC6C13900EE0758474FA94ABE8C4CD13),
      (11, 0x51ED993EA0D455B75642E2098EA51448D967AE33BFBDFE40CFE97BDC47739922)] = true := by decide +kernel

/-- T9, and T11's fault at W = 2: 130 entries. -/
theorem test_tblrd_faults : traps 0x4A508000 (regs [(2, 1)]) 7 0 = true ∧ traps 0x4A508001 (cached [(2, 130)]) 2 2 = true := by decide +kernel

/-! ### Priority of faults, and the cache -/

/-- F3: the order of the checks. -/
theorem test_priority : traps 0x16080000 (regs [(0, P)]) 2 0 = true ∧
    traps 0x31480600 (regs [(0, 1), (1, 1), (2, P), (3, P), (4, 1), (5, 1)]) 2 2 = true ∧
    traps 0x42380800 (regs [(0, 0), (4, 1), (5, 1), (6, P)]) 2 6 = true ∧ traps 0x41200001 (regs [(0, 0)]) 7 1 = true := by decide +kernel

/-- T7: the first SMUL on slot 1 installs its table; F4: a fault installs none. -/
theorem test_smul_installs : after 0x41200001 ((bound [(0, 3)]).resizeSlot 1 .w4) (fun t => reads t 0x8C0 0x43) = true ∧
    after 0x41200000 (regs [(0, N)]) (fun t => reads t 0x840 0x81) = true := by decide +kernel

/-- W1, W2, W6, W8: digits of R174, low window first. -/
theorem test_digits : digits .w8 2 0x1FF = ([-1, 2], 0) ∧ digits .w8 1 0x80 = ([128], 0) ∧
    digits .w8 17 (2 ^ 128) = (List.replicate 16 0 ++ [1], 0) ∧ digits .w2 3 0xB = ([-1, -1, 1], 0) := by decide +kernel

/-- Section 6: entries 7 and 8 of the table of 2G at W = 4. -/
theorem test_table_row : (storedTable twoG .w4)[7]? = some
      { x := 0xE60FCE93B59E9EC53011AABC21C23E97B2A31369B87A5AE9C44EE89E2A6DEC0A#256
        y := 0xF7E3507399E595929DB99F34F57937101296891E44D23F0BE1F32CCE69616821#256 } ∧
    (storedTable twoG .w4)[8]? = some
      { x := 0xD30199D74FB5A22D47B6E054E2F378CEDACFFCB89904A61D75D0DBD407143E65#256
        y := 0x95038D9D0AE3D5C3B3D6DEC9E98380651F760CC364ED819605B3FF1F24106AB9#256 } := by decide +kernel

/-! ### The host -/

/-- F1: what the window shows after reset. -/
theorem test_window_reset : [(0x404, 0), (0x418, 0x4B323536), (0x41C, 0x00001802), (0x840, 0x00000081), (0x8C0, 0x00000010),
    (0x800, 0x79BE667E), (0x83C, 0xFB10D4B8)].all (fun p => reads State.reset p.1 p.2) = true ∧ State.reset.irq = false := by decide

/-- R52, R53: Gx in r1, word by word and byte by byte; the eight host writes give the register. -/
theorem test_window_bytes : reads (regs [(1, Gx)]) 0x020 0x79BE667E = true ∧ reads (regs [(1, Gx)]) 0x03C 0x16F81798 = true ∧
    (regs [(1, Gx)]).windowByte 0x020 = 0x79#8 ∧ (regs [(1, Gx)]).windowByte 0x03F = 0x98#8 ∧
    ([(0x3C, 0x16F81798), (0x20, 0x79BE667E), (0x24, 0xF9DCBBAC), (0x28, 0x55A06295), (0x2C, 0xCE870B07), (0x30, 0x029BFCDB),
      (0x34, 0x2DCE28D9), (0x38, 0x59F2815B)].foldl (fun s p => s.windowWrite p.1 p.2) State.reset).xn 1 = Gx := by
  decide +kernel

/-- Section 9, the end of program 7: 3 in word 0 of r1 is 3·2^224. -/
theorem test_word_zero_is_high : ((regs [(1, 0)]).windowWrite 0x020 3#32).xn 1 = 3 * 2 ^ 224 := by decide +kernel

/-- F2: a NOP is issued, STATUS is 1, then 2; the clear leaves 0 (R28, R26). -/
theorem test_issue_and_clear : reads (State.reset.windowWrite 0x400 0) 0x404 1 = true ∧
    reads (get ((State.reset.windowWrite 0x400 0).coreMove)) 0x404 2 = true ∧
    reads ((get ((State.reset.windowWrite 0x400 0).coreMove)).windowWrite 0x404 2) 0x404 0 = true := by decide

/-- F2: with CTRL = 1, `irq` is 1 from the completion on (R225). -/
theorem test_irq : (get (((State.reset.windowWrite 0x408 1).windowWrite 0x400 0).coreMove)).irq = true ∧
    ((State.reset.windowWrite 0x408 1).windowWrite 0x400 0).irq = false := by decide

/-- Program 3: a CMD write while FAULT = 1 is dropped and sets OVR; the host's 0xC leaves DONE (R224, R223). -/
theorem test_dropped : reads ({ State.reset with
      status := { busy := false, done := true, fault := true, ovr := false } }.windowWrite 0x400 0x01100000#32) 0x404 0xE = true ∧
    reads ({ State.reset with
      status := { busy := false, done := true, fault := true, ovr := true } }.windowWrite 0x404 0xC#32) 0x404 2 = true := by decide

/-! ### Witnesses: the hypotheses of each statement are met together, clause by clause -/

/-- The state with a command word in flight and these turns to come. -/
def inFlight (w : Cmd) (ts : List Turn) : State :=
  { State.reset with cmdLatch := w, status := { busy := true, done := false, fault := false, ovr := false }, turns := ts }

/-- The state with this STATUS. -/
def withStatus (busy done fault ovr : Bool) : State := { State.reset with status := { busy, done, fault, ovr } }

theorem witness_DecodeOfEncode : (Instr.smul 30 31 31).wf = true ∧ (Instr.pow2p 31 31 511).wf = true ∧
    (Instr.binvp 0 0 32).wf = true ∧ (Instr.setw 31 .w8).wf = true := by decide

theorem witness_EncodeOfDecode : decode 0x41200001#32 = .ok (.smul 4 0 1) := by decide

theorem witness_UnknownOpcodeRejected : (0x03000000#32).toNat / 2 ^ 24 ∉ opcodeMap.map Prod.fst ∧
    (0x4BFFFFFF#32).toNat / 2 ^ 24 ∉ opcodeMap.map Prod.fst ∧ (0xFFFFFFFF#32).toNat / 2 ^ 24 ∉ opcodeMap.map Prod.fst := by
  decide

theorem witness_MaskDecidesUnusedBits : ((0x12184401#32).toNat / 2 ^ 24, Format.R3) ∈ opcodeMap ∧
    ((0x4A508000#32).toNat / 2 ^ 24, Format.RS) ∈ opcodeMap := by decide

theorem witness_StepRunsDecodedCommand : (inFlight 0x01384000#32 []).status.busy = true ∧
    decode (inFlight 0x01384000#32 []).cmdLatch = .ok (.mov 7 1) ∧ (inFlight 0x01384000#32 []).turns = [] ∧
    (inFlight 0x01384000#32 [.core]).turns = .core :: [] ∧
    (inFlight 0x01384000#32 [.statusAtEnd 2#32]).turns = .statusAtEnd 2#32 :: [] ∧
    (inFlight 0x01384000#32 [.statusAtEnd 2#32]).rst = false := by decide

theorem witness_IllegalWordTakesFault : ∀ ts ∈ [[], [.core], [.statusAtEnd 0xFFFFFFFF#32]],
    (inFlight 0xFFFFFFFF#32 ts).status.busy = true ∧ decode (inFlight 0xFFFFFFFF#32 ts).cmdLatch = .error .unknownOp ∧
    (inFlight 0xFFFFFFFF#32 ts).turns = ts ∧ (inFlight 0xFFFFFFFF#32 ts).rst = false := by decide

theorem witness_IllFormedCommandTraps : (Instr.pdbl 30 0).wf = false := by decide

theorem witness_OnlyCacheCommandsChangeSlots :
    exec (.tblrd 10 2 0) State.reset = .next (get (exec (.tblrd 10 2 0) State.reset)) ∧
      (∀ rd ra slot, Instr.tblrd 10 2 0 ≠ .smul rd ra slot) ∧ (∀ ra slot, Instr.tblrd 10 2 0 ≠ .setanch ra slot) ∧
      ∀ slot w, Instr.tblrd 10 2 0 ≠ .setw slot w := ⟨rfl, nofun, nofun, nofun⟩

/-- Slot 1 of `cached` is as the invariant says. -/
theorem cached_slot_ok (v : Nat) : ((cached [(0, v)]).slot 1).Ok := by
  have h : (cached [(0, v)]).slot 1 =
      { anchor := twoG, avalid := true, win := { w := .w2, tvalid := true, table := storedTable twoG .w2 } } := rfl
  rw [h]
  exact ⟨fun _ => by decide +kernel, fun _ => ⟨rfl, by decide, rfl⟩, storedTable_wf twoG .w2⟩

/-- Slot 1 of `cached` is as the invariant says, with the entry number in r2. -/
theorem cached2_slot_ok (v : Nat) : ((cached [(2, v)]).slot 1).Ok := by
  have h : (cached [(2, v)]).slot 1 =
      { anchor := twoG, avalid := true, win := { w := .w2, tvalid := true, table := storedTable twoG .w2 } } := rfl
  rw [h]
  exact ⟨fun _ => by decide +kernel, fun _ => ⟨rfl, by decide, rfl⟩, storedTable_wf twoG .w2⟩

/-- An SMUL in flight on slot 1, bound to 2G, its table valid. -/
theorem witness_StepKeepsInvariant : ((cached [(0, 3)]).withFetchWord 32 0x41200001).Inv ∧
    step ((cached [(0, 3)]).withFetchWord 32 0x41200001) =
      .next (get (step ((cached [(0, 3)]).withFetchWord 32 0x41200001))) := by
  refine ⟨⟨by decide, by decide, by decide, by decide, by decide, ?_, by decide⟩, rfl⟩
  intro i hi
  have h2 : i < 2 := hi
  match i, h2 with
  | 0, _ => exact ⟨fun _ => by decide +kernel, nofun, by decide⟩
  | 1, _ => exact cached_slot_ok 3

theorem witness_ResetMeetsInvariant : 0 < 16 ∧ 15 < 16 := by decide

theorem witness_FieldAddSubMul : (regs [(0, P - 1), (1, 0)]).xn (0 : Reg) < P ∧ (regs [(0, P - 1), (1, 0)]).xn (1 : Reg) < P := by
  decide +kernel

theorem witness_ScalarAddSubMul : (regs [(0, N - 1), (1, 0)]).xn (0 : Reg) < N ∧ (regs [(0, N - 1), (1, 0)]).xn (1 : Reg) < N := by
  decide +kernel

theorem witness_RepeatedSquaringIsPower : (regs [(0, P - 1)]).xn (0 : Reg) < P := by decide +kernel

theorem witness_InverseIsUnique : (regs [(0, P - 1)]).xn (0 : Reg) ≠ 0 ∧ (regs [(0, P - 1)]).xn (0 : Reg) < P ∧
    (regs [(0, N - 1)]).xn (0 : Reg) ≠ 0 ∧ (regs [(0, N - 1)]).xn (0 : Reg) < N ∧ P ≤ (regs [(0, P)]).xn (0 : Reg) ∧
    N ≤ (regs [(0, N)]).xn (0 : Reg) ∧ (regs [(0, 0)]).xn (0 : Reg) = 0 := by decide +kernel

theorem witness_BatchInverseElementwise : (Instr.binvp 8 4 2).wf = true ∧ FieldSpan (regs [(4, P - 1), (5, 0)]) (4 : Reg) (2 : Imm) ∧
    (Instr.binvp 31 31 0).wf = true ∧ FieldSpan State.reset (31 : Reg) (0 : Imm) := by
  unfold FieldSpan
  decide +kernel

theorem witness_SqrtChainIsPower : (regs [(0, 4)]).xn (0 : Reg) < P := by decide +kernel

/-- 9 is a square; P − 1 is none, since P ≡ 3 (mod 4). -/
theorem witness_SqrtOfSquareAndNonSquare : (regs [(0, 9)]).xn (0 : Reg) < P ∧ (∃ y, y * y % P = (regs [(0, 9)]).xn (0 : Reg)) ∧
    (regs [(0, P - 1)]).xn (0 : Reg) < P ∧ ¬∃ y, y * y % P = (regs [(0, P - 1)]).xn (0 : Reg) := by
  refine ⟨by decide +kernel, ⟨3, by decide +kernel⟩, by decide +kernel, ?_⟩
  rintro ⟨y, hy⟩
  rw [show (regs [(0, P - 1)]).xn (0 : Reg) = P - 1 by decide +kernel] at hy
  have : Fact (Nat.Prime P) := ⟨Laws.Prime.P_prime⟩
  have hz : (y : ZMod P) ^ 2 = -1 := by
    have h1 : ((y * y : Nat) : ZMod P) = ((P - 1 : Nat) : ZMod P) := by
      rw [ZMod.natCast_eq_natCast_iff']
      rw [hy]
      decide +kernel
    rw [pow_two, ← Nat.cast_mul, h1, Nat.cast_sub (by decide)]
    simp
  exact ZMod.mod_four_ne_three_of_sq_eq_neg_one hz (by decide)

theorem witness_DoublingFormula : (Instr.pdbl 29 29).wf = true ∧
    FieldSpan (regs [(29, Gx), (30, Gy), (31, 1)]) (29 : Reg) 3 := by
  unfold FieldSpan
  decide +kernel

/-- The second operand an identity; the first one. -/
theorem witness_AdditionIdentityCopies : (Instr.padd 9 0 3).wf = true ∧
    FieldSpan (regs (gj ++ [(3, 0), (4, 1), (5, 0)])) (0 : Reg) 3 ∧ FieldSpan (regs (gj ++ [(3, 0), (4, 1), (5, 0)])) (3 : Reg) 3 ∧
    (regs (gj ++ [(3, 0), (4, 1), (5, 0)])).xn (3 : Reg) = 0 ∧ (Instr.padd 9 3 0).wf = true ∧
    (regs (gj ++ [(3, 0), (4, 1), (5, 0)])).xn (0 : Reg) ≠ 0 ∧
    (regs (gj ++ [(3, 0), (4, 1), (5, 0)])).xn ((0 : Reg).val + 1) ≠ 0 := by
  unfold FieldSpan
  decide +kernel

/-- H ≠ 0 (G and (Gx + 1, Gy, 1)); H = 0 and r ≠ 0 (G and −G); H = 0 and r = 0 (G and G). -/
theorem witness_AdditionFormula : (Instr.padd 9 0 3).wf = true ∧
    (∀ q ∈ [((Gx + 1, Gy) : Nat × Nat), (Gx, P - Gy), (Gx, Gy)],
      FieldSpan (regs (gj ++ [(3, q.1), (4, q.2), (5, 1)])) (0 : Reg) 3 ∧
      FieldSpan (regs (gj ++ [(3, q.1), (4, q.2), (5, 1)])) (3 : Reg) 3 ∧
      (∀ i ∈ [0, 1, 3, 4], (regs (gj ++ [(3, q.1), (4, q.2), (5, 1)])).xn i ≠ 0)) ∧
    (((Gx + 1 : Nat) : Int) * 1 ^ 2 - Gx * 1 ^ 2) % P ≠ 0 ∧ ((Gx : Int) * 1 ^ 2 - Gx * 1 ^ 2) % P = 0 ∧
    (((P - Gy : Nat) : Int) * 1 ^ 3 - Gy * 1 ^ 3) % P ≠ 0 ∧ ((Gy : Int) * 1 ^ 3 - Gy * 1 ^ 3) % P = 0 := by
  unfold FieldSpan
  decide +kernel

theorem witness_NegationFormula : (Instr.pneg 29 0).wf = true ∧ FieldSpan (regs gj) (0 : Reg) 3 ∧
    FieldSpan (regs (gj ++ [(2, P)])) (0 : Reg) 2 ∧ P ≤ (regs (gj ++ [(2, P)])).xn ((0 : Reg).val + 2) := by
  unfold FieldSpan
  decide +kernel

/-- Two triples, one with Z = 0. -/
theorem witness_NormalisationElementwise : (Instr.pnorm 9 0 2).wf = true ∧
    FieldSpan (regs (gj ++ [(3, 0), (4, 1), (5, 0)])) (0 : Reg) (3 * (2 : Imm).val) := by
  unfold FieldSpan
  decide +kernel

/-- The base point and the identity (0, 1, 0), which the addition's test sees. -/
theorem witness_PointCommandsAreGroupLaw : ∃ (_ : Fact (Nat.Prime P)) (A B : curve.Point), (Instr.padd 29 0 3).wf = true ∧
    FieldSpan (regs (gj ++ [(3, 0), (4, 1), (5, 0)])) (0 : Reg) 3 ∧ FieldSpan (regs (gj ++ [(3, 0), (4, 1), (5, 0)])) (3 : Reg) 3 ∧
    Stands ((regs (gj ++ [(3, 0), (4, 1), (5, 0)])).triple (0 : Reg)) A ∧
    Stands ((regs (gj ++ [(3, 0), (4, 1), (5, 0)])).triple (3 : Reg)) B ∧
    (Recognised ((regs (gj ++ [(3, 0), (4, 1), (5, 0)])).triple (0 : Reg)) ∧
      Recognised ((regs (gj ++ [(3, 0), (4, 1), (5, 0)])).triple (3 : Reg))) ∧
    IdentityX ((regs (gj ++ [(3, 0), (4, 1), (5, 0)])).triple (0 : Reg)) ∧
    IdentityX ((regs (gj ++ [(3, 0), (4, 1), (5, 0)])).triple (3 : Reg)) := by
  have _h := P_fact
  have e0 : (regs (gj ++ [(3, 0), (4, 1), (5, 0)])).triple (0 : Reg) = baseJac := by decide +kernel
  have e1 : (regs (gj ++ [(3, 0), (4, 1), (5, 0)])).triple (3 : Reg) = jzero := by decide +kernel
  refine ⟨P_fact, baseG, 0, by decide, by unfold FieldSpan; decide +kernel, by unfold FieldSpan; decide +kernel, ?_, ?_, ?_, ?_⟩
  · rw [e0]; exact rep_base.stands
  · rw [e1]; exact rep_jzero.stands
  · rw [e0, e1]; unfold Recognised; decide +kernel
  · rw [e0, e1]; unfold IdentityX; decide +kernel

/-- The base point and (5, 9, 0), an identity that the addition's test does not see. -/
theorem witness_PointCommandsAreGroupLaw_lost : ∃ (_ : Fact (Nat.Prime P)) (A B : curve.Point), (Instr.padd 29 0 3).wf = true ∧
    FieldSpan (regs (gj ++ [(3, 5), (4, 9), (5, 0)])) (0 : Reg) 3 ∧ FieldSpan (regs (gj ++ [(3, 5), (4, 9), (5, 0)])) (3 : Reg) 3 ∧
    Stands ((regs (gj ++ [(3, 5), (4, 9), (5, 0)])).triple (0 : Reg)) A ∧
    Stands ((regs (gj ++ [(3, 5), (4, 9), (5, 0)])).triple (3 : Reg)) B ∧
    ¬(Recognised ((regs (gj ++ [(3, 5), (4, 9), (5, 0)])).triple (0 : Reg)) ∧
      Recognised ((regs (gj ++ [(3, 5), (4, 9), (5, 0)])).triple (3 : Reg))) := by
  have _h := P_fact
  have e0 : (regs (gj ++ [(3, 5), (4, 9), (5, 0)])).triple (0 : Reg) = baseJac := by decide +kernel
  have e1 : (regs (gj ++ [(3, 5), (4, 9), (5, 0)])).triple (3 : Reg) = ⟨5, 9, 0⟩ := by decide +kernel
  refine ⟨P_fact, baseG, 0, by decide, by unfold FieldSpan; decide +kernel, by unfold FieldSpan; decide +kernel, ?_, ?_, ?_⟩
  · rw [e0]; exact rep_base.stands
  · rw [e1]; exact (rfl : 0 % P = 0)
  · rw [e0, e1]; unfold Recognised; decide +kernel

/-- The base point against the identity; with the two operands exchanged, the clause of the identity. -/
theorem witness_NormalFormIsCanonical : ∃ (_ : Fact (Nat.Prime P)) (A B : curve.Point), (Instr.pnorm 6 0 1).wf = true ∧
    (Instr.pnorm 6 3 1).wf = true ∧
    FieldSpan (regs (gj ++ [(3, 0), (4, 1), (5, 0)])) (0 : Reg) 3 ∧ FieldSpan (regs (gj ++ [(3, 0), (4, 1), (5, 0)])) (3 : Reg) 3 ∧
    Stands ((regs (gj ++ [(3, 0), (4, 1), (5, 0)])).triple (0 : Reg)) A ∧
    Stands ((regs (gj ++ [(3, 0), (4, 1), (5, 0)])).triple (3 : Reg)) B := by
  obtain ⟨f, A, B, -, h1, h2, h3, h4, -⟩ := witness_PointCommandsAreGroupLaw
  exact ⟨f, A, B, by decide, by decide, h1, h2, h3, h4⟩

/-- The least and the largest scalar. -/
theorem witness_GlvSplitIsExact : (Instr.glvsplit 29 0).wf = true ∧ ∀ k ∈ [1, N - 1],
    (regs [(0, k)]).xn (0 : Reg) = k ∧ k ≠ 0 ∧ k < N ∧
    ∃ (c1 c2 r1 r2 k1 k2 : Nat) (e1 e2 : Bool), c1 = (B2 * k + N / 2) / N ∧ c2 = (NB1 * k + N / 2) / N ∧
      (r1 : Int) = ((k : Int) - c1 * A1 - c2 * A2) % (N : Int) ∧ (r2 : Int) = ((c1 : Int) * NB1 - c2 * B2) % (N : Int) ∧
      e1 = decide (r1 > 2 ^ 128) ∧ k1 = (if e1 then N - r1 else r1) ∧
      e2 = decide (r2 > 2 ^ 128) ∧ k2 = (if e2 then N - r2 else r2) := by
  refine ⟨by decide, fun k hk => ⟨by revert k; decide +kernel, by revert k; decide +kernel, by revert k; decide +kernel, ?_⟩⟩
  have nonneg : ∀ a : Int, ((a % (N : Int)).toNat : Int) = a % (N : Int) := fun a =>
    Int.toNat_of_nonneg (Int.emod_nonneg a (by decide))
  exact ⟨_, _, _, _, _, _, _, _, rfl, rfl, nonneg _, nonneg _, rfl, rfl, rfl, rfl⟩

theorem witness_WnafDigitsRecode : 2 ^ 128 ≤ 2 ^ 128 ∧ 0 ≤ 2 ^ 128 := by decide

/-- A miss at W = 8, a hit, and W = 1. -/
theorem witness_SmulCompletes : (Instr.smul 30 0 0).wf = true ∧
    (∀ s ∈ [regs [(0, 1)], cached [(0, N - 1)], bound [(0, 1)]], ∀ i ∈ [(0 : SlotIx), 1],
      s.nslot = 2 ∧ i.val < s.nslot ∧ s.xn (0 : Reg) ≠ 0 ∧ s.xn (0 : Reg) < N) ∧
    ((regs [(0, 1)]).slot (0 : SlotIx)).avalid = true ∧ ((cached [(0, N - 1)]).slot (1 : SlotIx)).avalid = true ∧
    ((bound [(0, 1)]).slot (1 : SlotIx)).avalid = true := by decide +kernel

theorem witness_CacheHitEqualsMiss : (1 : SlotIx).val < (cached [(0, 3)]).nslot ∧ ((cached [(0, 3)]).slot (1 : SlotIx)).Ok ∧
    ((cached [(0, 3)]).slot (1 : SlotIx)).win.tvalid = true := ⟨by decide, cached_slot_ok 3, by decide⟩

theorem witness_SmulIsScalarMultiple : ∃ (_ : Fact (Nat.Prime P)) (A : curve.Point), (Instr.smul 30 0 1).wf = true ∧
    Stands (lift ((cached [(0, 3)]).slot (1 : SlotIx)).anchor) A ∧
    ∀ k ∈ [1, 3, N - 1], PSlot (cached [(0, k)]) (1 : SlotIx) ∧ (cached [(0, k)]).xn (0 : Reg) = k ∧ k ≠ 0 ∧ k < N ∧
      ((cached [(0, k)]).slot (1 : SlotIx)).anchor = ((cached [(0, 3)]).slot (1 : SlotIx)).anchor := by
  have _h := P_fact
  obtain ⟨A, hA⟩ := exists_point (a := ((cached [(0, 3)]).slot (1 : SlotIx)).anchor) (by decide +kernel)
  refine ⟨P_fact, A, by decide, hA, fun k hk => ⟨⟨(show 1 < 2 by decide), rfl, cached_slot_ok k⟩, ?_, ?_, ?_, rfl⟩⟩
  all_goals revert k; decide +kernel

/-- Two pairs as triples in r0 to r2 and r3 to r5, and a scalar in r6. -/
theorem exists_lifted (a b : Affine) (k : Word) : ∃ p : State, p.triple (0 : Reg) = lift a ∧ p.triple (3 : Reg) = lift b ∧
    p.xn (6 : Reg) = k.toNat := by
  have h := (setSpan_writesOnly State.reset 0 [a.x, a.y, 1#256, b.x, b.y, 1#256, k] (show 7 ≤ 32 by decide)).1
  have x : ∀ (i : Nat) (v : Word), [a.x, a.y, 1#256, b.x, b.y, 1#256, k][i]? = some v →
      (State.reset.setSpan 0 [a.x, a.y, 1#256, b.x, b.y, 1#256, k]).xn i = v.toNat := fun i v hv => by
    have := xn_of_holds (h i v hv)
    rwa [Nat.zero_add] at this
  refine ⟨_, ?_, ?_, x 6 _ rfl⟩
  · simp only [State.triple, lift, Jac.mk.injEq]
    exact ⟨x 0 _ rfl, x 1 _ rfl, x 2 _ rfl⟩
  · simp only [State.triple, lift, Jac.mk.injEq]
    exact ⟨x 3 _ rfl, x 4 _ rfl, x 5 _ rfl⟩

/-- The laws of R182 on the slot of `cached`: 1·A + 1·A and (n − 1)·A + A by PADD, SMULU of n − 1, and the slot itself as the
one whose anchor is SMUL(1). -/
theorem witness_SmulIsScalarMultiple_laws : PSlot (cached [(0, 3)]) 1 ∧ ScalarInRange 1 ∧ ScalarInRange (N - 1) ∧
    (1 + 1) % N ≠ 0 ∧ (Instr.padd 29 0 3).wf = true ∧ (Instr.smulu 29 6 3).wf = true ∧
    ((cached [(0, 3)]).slot 1).anchor = (cached [(0, 3)]).smulResult 1 1 ∧
    (∃ p : State, p.triple (0 : Reg) = lift ((cached [(0, 3)]).smulResult 1 1) ∧
      p.triple (3 : Reg) = lift ((cached [(0, 3)]).smulResult 1 1)) ∧
    ∃ p : State, p.triple (0 : Reg) = lift ((cached [(0, 3)]).smulResult 1 (N - 1)) ∧
      p.triple (3 : Reg) = lift ((cached [(0, 3)]).slot 1).anchor ∧ p.xn (6 : Reg) = N - 1 := by
  have _h := P_fact
  have hs : PSlot (cached [(0, 3)]) 1 := ⟨(show 1 < 2 by decide), rfl, cached_slot_ok 3⟩
  obtain ⟨A, hA, h0⟩ := hs.anchor_rep
  have r := smulResult_rep hs hA h0 (k := 1) ⟨le_rfl, by decide +kernel⟩
  rw [one_nsmul] at r
  have e : ((cached [(0, 3)]).slot 1).anchor = (cached [(0, 3)]).smulResult 1 1 := by
    generalize (cached [(0, 3)]).smulResult 1 1 = m at r ⊢
    exact stands_lift_inj ⟨hA.x, hA.y⟩ ⟨r.x, r.y⟩ hA.stands r.stands
  obtain ⟨p, p1, p2, -⟩ := exists_lifted ((cached [(0, 3)]).smulResult 1 1) ((cached [(0, 3)]).smulResult 1 1) 0#256
  obtain ⟨q, q1, q2, q3⟩ := exists_lifted ((cached [(0, 3)]).smulResult 1 (N - 1)) ((cached [(0, 3)]).slot 1).anchor
    (BitVec.ofNat 256 (N - 1))
  exact ⟨hs, ⟨by decide, by decide⟩, ⟨by decide, by decide⟩, by decide, by decide, by decide,
    e, ⟨p, p1, p2⟩, ⟨q, q1, q2, q3.trans (by decide)⟩⟩

theorem witness_SmuluCompletes : (Instr.smulu 29 3 0).wf = true ∧
    ∀ k ∈ [1, 2, 3, N - 1], FieldSpan (regs (gj ++ [(3, k)])) (0 : Reg) 3 ∧ (regs (gj ++ [(3, k)])).xn (3 : Reg) = k ∧ k ≠ 0 ∧ k < N ∧
      ((regs (gj ++ [(3, k)])).triple (0 : Reg)).X ≠ 0 ∧ ((regs (gj ++ [(3, k)])).triple (0 : Reg)).Y ≠ 0 := by
  unfold FieldSpan
  decide +kernel

theorem witness_SmuluIsScalarMultiple : ∃ (_ : Fact (Nat.Prime P)) (Q : curve.Point), (Instr.smulu 29 3 0).wf = true ∧
    FieldSpan (regs (gj ++ [(3, 5)])) (0 : Reg) 3 ∧ (regs (gj ++ [(3, 5)])).xn (3 : Reg) ≠ 0 ∧
    (regs (gj ++ [(3, 5)])).xn (3 : Reg) < N ∧ Stands ((regs (gj ++ [(3, 5)])).triple (0 : Reg)) Q := by
  have _h := P_fact
  have e0 : (regs (gj ++ [(3, 5)])).triple (0 : Reg) = baseJac := by decide +kernel
  refine ⟨P_fact, baseG, by decide, by unfold FieldSpan; decide +kernel, by decide +kernel, by decide +kernel, ?_⟩
  rw [e0]; exact rep_base.stands

theorem witness_SetanchBindsSlot : (Instr.setanch 0 1).wf = true ∧ (1 : SlotIx).val < (regs gj).nslot ∧
    (regs gj).xn (0 : Reg) < P ∧ (regs gj).xn ((0 : Reg).val + 1) < P ∧
    (regs gj).xn ((0 : Reg).val + 1) ^ 2 % P = ((regs gj).xn (0 : Reg) ^ 3 + 7) % P := by decide +kernel

theorem witness_SetwResizesSlot : (0 : SlotIx).val < State.reset.nslot ∧ (1 : SlotIx).val < State.reset.nslot := by decide

/-- The first and the last entry at W = 2. -/
theorem witness_TblrdReadsEntry : (Instr.tblrd 30 2 1).wf = true ∧ (∀ e ∈ [0, 129],
    (1 : SlotIx).val < (cached [(2, e)]).nslot ∧ ((cached [(2, e)]).slot (1 : SlotIx)).win.tvalid = true ∧
      (cached [(2, e)]).xn (2 : Reg) < (128 / ((cached [(2, e)]).slot (1 : SlotIx)).win.w.val + 1) *
        2 ^ (((cached [(2, e)]).slot (1 : SlotIx)).win.w.val - 1) ∧
      (cached [(2, e)]).xn (2 : Reg) = e / 2 * 2 ^ (((cached [(2, e)]).slot (1 : SlotIx)).win.w.val - 1) + e % 2 ∧
      e % 2 < 2 ^ (((cached [(2, e)]).slot (1 : SlotIx)).win.w.val - 1)) ∧
    (∀ e, ((cached [(2, e)]).slot (1 : SlotIx)).Ok) ∧
    ∃ (_ : Fact (Nat.Prime P)) (A : curve.Point), ∀ e, Stands (lift ((cached [(2, e)]).slot (1 : SlotIx)).anchor) A := by
  refine ⟨by decide, by decide +kernel, cached2_slot_ok, P_fact, ?_⟩
  have _h := P_fact
  obtain ⟨A, hA⟩ := exists_point (a := twoG) (by decide +kernel)
  exact ⟨A, fun e => hA⟩

/-- P itself, and the second operand where the first is the largest field element. -/
theorem witness_FieldOperandRange : P ≤ (regs [(0, P)]).xn (0 : Reg) ∧ (regs [(0, P - 1), (1, P)]).xn (0 : Reg) < P ∧
    P ≤ (regs [(0, P - 1), (1, P)]).xn (1 : Reg) := by decide +kernel

theorem witness_ScalarOperandRange : N ≤ (regs [(0, N)]).xn (0 : Reg) ∧ (regs [(0, N - 1), (1, P - 1)]).xn (0 : Reg) < N ∧
    N ≤ (regs [(0, N - 1), (1, P - 1)]).xn (1 : Reg) := by decide +kernel

/-- The last register of a span is the only one out of range: of a triple, of a batch, of a batch of triples, of rb. -/
theorem witness_SpanOperandRange :
    (P ≤ (regs (gj ++ [(2, P)])).xn ((0 : Reg).val + 2) ∧ FieldSpan (regs (gj ++ [(2, P)])) (0 : Reg) 2 ∧
      (∀ i ∈ [Instr.pdbl 29 0, .pneg 29 0, .padd 29 0 3], i.wf = true) ∧ (Instr.binvp 8 0 3).wf = true ∧
      2 < (3 : Imm).val ∧ (Instr.pnorm 8 0 1).wf = true ∧ 2 < 3 * (1 : Imm).val) ∧
    P ≤ (regs (gj ++ [(3, 1), (4, 1), (5, P)])).xn ((3 : Reg).val + 2) ∧
      FieldSpan (regs (gj ++ [(3, 1), (4, 1), (5, P)])) (3 : Reg) 2 ∧ (Instr.padd 29 0 3).wf = true ∧
      FieldSpan (regs (gj ++ [(3, 1), (4, 1), (5, P)])) (0 : Reg) 3 ∧ (Instr.smulu 29 0 3).wf = true := by
  unfold FieldSpan
  decide +kernel

theorem witness_ScalarOutOfRange : (regs [(3, 0)]).xn (3 : Reg) = 0 ∧ N ≤ (regs (gj ++ [(3, N)])).xn (3 : Reg) ∧
    (Instr.glvsplit 29 3).wf = true ∧ (Instr.smul 30 3 0).wf = true ∧ (0 : SlotIx).val < (regs [(3, 0)]).nslot ∧
    ((regs [(3, 0)]).slot (0 : SlotIx)).avalid = true ∧ (Instr.smulu 29 3 0).wf = true ∧
    FieldSpan (regs (gj ++ [(3, N)])) (0 : Reg) 3 := by
  unfold FieldSpan
  decide +kernel

/-- Slot 2 of two slots; slot 1 unbound; slot 0 without a table. -/
theorem witness_SlotNotUsable : State.reset.nslot ≤ (2 : SlotIx).val ∧ (Instr.smul 30 0 2).wf = true ∧
    (Instr.setanch 30 2).wf = true ∧ (Instr.tblrd 30 0 2).wf = true ∧ (1 : SlotIx).val < State.reset.nslot ∧
    (State.reset.slot (1 : SlotIx)).avalid = false ∧ (State.reset.slot (0 : SlotIx)).win.tvalid = false := by decide

/-- x = P; y = P; (Gx, Gy + 1); entry 130 at W = 2. -/
theorem witness_CacheOperandFaults : (Instr.setanch 0 1).wf = true ∧ (1 : SlotIx).val < (regs []).nslot ∧
    P ≤ (regs [(0, P)]).xn (0 : Reg) ∧ (regs [(0, 1), (1, P)]).xn (0 : Reg) < P ∧
    P ≤ (regs [(0, 1), (1, P)]).xn ((0 : Reg).val + 1) ∧ (regs [(0, Gx), (1, Gy + 1)]).xn (0 : Reg) < P ∧
    (regs [(0, Gx), (1, Gy + 1)]).xn ((0 : Reg).val + 1) < P ∧
    (regs [(0, Gx), (1, Gy + 1)]).xn ((0 : Reg).val + 1) ^ 2 % P ≠ ((regs [(0, Gx), (1, Gy + 1)]).xn (0 : Reg) ^ 3 + 7) % P ∧
    (Instr.tblrd 30 2 1).wf = true ∧ ((cached [(2, 130)]).slot (1 : SlotIx)).win.tvalid = true ∧
    (128 / ((cached [(2, 130)]).slot (1 : SlotIx)).win.w.val + 1) *
      2 ^ (((cached [(2, 130)]).slot (1 : SlotIx)).win.w.val - 1) ≤ (cached [(2, 130)]).xn (2 : Reg) := by decide +kernel

theorem witness_RegisterWordWrite : 31 < 32 ∧ 7 < 8 ∧ (regs []).status.busy = false ∧ (regs []).rst = false ∧ 30 ≠ 31 := by decide

theorem witness_RegisterBytesBigEndian : (regs [(31, Gx)]).regs[31]? = some { val := BitVec.ofNat 256 Gx, known := 0xFF#8 } ∧
    (regs [(31, Gx)]).status.busy = false ∧ (regs [(31, Gx)]).rst = false ∧ 7 < 8 ∧ 31 < 32 := by decide +kernel

/-- Idle, busy, faulted. -/
theorem witness_CommandIssue : State.reset.rst = false ∧ State.reset.status.busy = false ∧ State.reset.status.fault = false ∧
    (withStatus true false false false).status.busy = true ∧ (withStatus false true true false).status.fault = true := by decide

theorem witness_StatusWriteOneToClear : (withStatus false true true true).rst = false ∧
    (withStatus false true true true).status.busy = false ∧ (0xE#32).getLsbD 1 = true ∧ (0xE#32).getLsbD 2 = true ∧
    (0xE#32).getLsbD 3 = true ∧ (0x0#32).getLsbD 1 = false ∧ (0x0#32).getLsbD 2 = false ∧ (0x0#32).getLsbD 3 = false := by decide

theorem witness_SetWinsOverClear : (inFlight 0#32 [.statusAtEnd 0xE#32]).turns = .statusAtEnd 0xE#32 :: [] ∧
    (inFlight 0#32 [.statusAtEnd 0xE#32]).status.busy = true ∧ (inFlight 0#32 [.statusAtEnd 0xE#32]).rst = false := by decide

/-- The last register word, SLOTST of slot 1, CMD and the last reserved word before the slots. -/
theorem witness_BusyCoreAccess : (withStatus true false false false).status.busy = true ∧ 0x3FC % 4 = 0 ∧ 0x3FC < 0x400 ∧
    1 < (withStatus true false false false).nslot ∧ (withStatus true false false false).nslot ≤ 16 ∧ 0x40 ≤ 0x40 ∧
    0x8C0 = 0x800 + 0x80 * 1 + 0x40 ∧ 0x400 ≤ 0x400 ∧ 0x400 < 0x800 ∧ 0x7FC < 0x800 ∧ 0x7FC % 4 = 0 := by decide

theorem witness_HostAccessForm : 8 ≠ 4 ∧ 0x402 % 4 ≠ 0 ∧ 0x1000 ≤ 0x1000 := by decide

/-- CAUSE, the first reserved word, a word past SLOTST, a word past the last slot; while
busy and while not. -/
theorem witness_ReadOnlyAndReserved : ∀ s ∈ [State.reset, withStatus true false false false], s.rst = false ∧
    (∀ off ∈ [0x40C, 0x420, 0x7FC, 0x844, 0x900, 0xFFC], off % 4 = 0 ∧ off < 0x1000 ∧ 0x40C ≤ off) ∧
    0x40C < 0x800 ∧ (∀ off ∈ [0x420, 0x7FC, 0x844, 0x900, 0xFFC], Reserved s off) ∧
    ¬Reserved s 0x41C ∧ ¬Reserved s 0x840 ∧ State.reset.status.busy = false := by
  unfold Reserved
  decide

theorem witness_ControlRegisterReads : (withStatus true true false true).rst = false := by decide

theorem witness_SlotReads : 0 < (cached []).nslot ∧ 1 < (cached []).nslot ∧ (cached []).nslot ≤ 16 ∧
    (cached []).status.busy = false ∧ (cached []).rst = false ∧ ((cached []).slot 1).avalid = true ∧ 7 < 8 := by decide

theorem witness_InterruptLevel : (withStatus false true false false).rst = false := by decide

theorem witness_ControlWrite : (withStatus true false false false).rst = false := by decide

end Sys2Proof.Tests
end

/-! Operand-range faults of the field and scalar commands (00_scope.md R15, 40_field_scalar_arith.md R101). Each of these
commands is legal in every operand, and lists its range checks right after the legality check, ra before rb; the fault
taken is then the first range check that raises. -/

namespace Sys2Proof.Machine

open Sys2Proof.Statement

/-- A command that names only single registers fits below r32 (30_encoding.md R84): it is legal once its immediate and its
slot are. -/
theorem wf_of_single_registers {i : Instr} (hs : ∀ p ∈ i.spans, p.2 = 1) (hi : i.immOk = true) (hl : i.slotOk = true) :
    i.wf = true := by
  have hfit : ∀ p ∈ i.spans, fits p.1 p.2 = true := fun p hp => by simp [fits, hs p hp]
  have hspans : i.spans.all (fun p => fits p.1 p.2) = true := List.all_eq_true.mpr hfit
  simp [Instr.wf, Instr.reject, hi, hl, hspans]

/-- A legal command ends by the first fault its checks after the legality check raise. -/
theorem faults_of_firstRaise {s t : State} {i : Instr} {cs : List (Option Raise)} {r : Raise} (hw : i.wf = true)
    (he : exec i s = s.endCommand (chkLegal i :: cs) t) (hr : firstRaise cs = some r) :
    Faults i s r.cause.code r.info := by
  have hall : firstRaise (chkLegal i :: cs) = some r := by rw [(chkLegal_eq_none i).mpr hw, firstRaise_cons_none, hr]
  unfold Faults
  rw [he]
  exact endCommand_faults hall t

/-- A register that holds no field element is reported whatever checks follow. -/
theorem firstRaise_chkP_of_le {s : State} {i : Nat} (h : P ≤ s.xn i) (cs : List (Option Raise)) :
    firstRaise (chkP s i :: cs) = some { cause := .operandRange, info := i } := by
  rw [chkP_of_le h, firstRaise_cons_some]

/-- A register that holds a field element leaves the verdict to the checks that follow. -/
theorem firstRaise_chkP_of_lt {s : State} {i : Nat} (h : s.xn i < P) (cs : List (Option Raise)) :
    firstRaise (chkP s i :: cs) = firstRaise cs := by
  rw [(chkP_eq_none i).mpr h, firstRaise_cons_none]

/-- A register that holds no scalar below n is reported whatever checks follow. -/
theorem firstRaise_chkN_of_le {s : State} {i : Nat} (h : N ≤ s.xn i) (cs : List (Option Raise)) :
    firstRaise (chkN s i :: cs) = some { cause := .operandRange, info := i } := by
  rw [chkN_of_le h, firstRaise_cons_some]

/-- A register that holds a scalar below n leaves the verdict to the checks that follow. -/
theorem firstRaise_chkN_of_lt {s : State} {i : Nat} (h : s.xn i < N) (cs : List (Option Raise)) :
    firstRaise (chkN s i :: cs) = firstRaise cs := by
  rw [(chkN_eq_none i).mpr h, firstRaise_cons_none]

/-- Settles O41: the check of ra comes first in all seven commands, and the check of rb follows it in the three that read
rb. -/
theorem fieldOperandRange : Obligations.FieldOperandRange := by
  unfold Obligations.FieldOperandRange
  intro s rd ra rb k
  refine ⟨fun ha i hi => ?_, fun ha hb i hi => ?_⟩
  · have first := firstRaise_chkP_of_le ha
    simp only [List.mem_cons, List.not_mem_nil, or_false] at hi
    obtain rfl | rfl | rfl | rfl | rfl | rfl | rfl := hi
    all_goals exact faults_of_firstRaise (wf_of_single_registers (by simp [Instr.spans]) rfl rfl) rfl (first _)
  · have second : firstRaise [chkP s ra, chkP s rb] = some { cause := .operandRange, info := rb } := by
      rw [firstRaise_chkP_of_lt ha, firstRaise_chkP_of_le hb]
    simp only [List.mem_cons, List.not_mem_nil, or_false] at hi
    obtain rfl | rfl | rfl := hi
    all_goals exact faults_of_firstRaise (wf_of_single_registers (by simp [Instr.spans]) rfl rfl) rfl second

/-- Settles O42: as for the field commands, with the bound n; INVN's check that its operand is invertible comes after the
range check. -/
theorem scalarOperandRange : Obligations.ScalarOperandRange := by
  unfold Obligations.ScalarOperandRange
  intro s rd ra rb
  refine ⟨fun ha i hi => ?_, fun ha hb i hi => ?_⟩
  · have first := firstRaise_chkN_of_le ha
    simp only [List.mem_cons, List.not_mem_nil, or_false] at hi
    obtain rfl | rfl | rfl | rfl := hi
    all_goals exact faults_of_firstRaise (wf_of_single_registers (by simp [Instr.spans]) rfl rfl) rfl (first _)
  · have second : firstRaise [chkN s ra, chkN s rb] = some { cause := .operandRange, info := rb } := by
      rw [firstRaise_chkN_of_lt ha, firstRaise_chkN_of_le hb]
    simp only [List.mem_cons, List.not_mem_nil, or_false] at hi
    obtain rfl | rfl | rfl := hi
    all_goals exact faults_of_firstRaise (wf_of_single_registers (by simp [Instr.spans]) rfl rfl) rfl second

end Sys2Proof.Machine

/-! The invariant of the machine (10_state.md R26, R36, R38) along every step. A step reaches CORE's state through the ending
of a command, a reset or a host write; each keeps the invariant, and everything else a step does is beside it. -/

namespace Sys2Proof.Machine

/-! ### What the invariant says of the slots -/

/-- The part of the invariant that speaks of slots: how many there are, and that each is as 10_state.md R36, R38 say. -/
def SlotsInv (s : State) : Prop := s.nslot ≤ Config.nslotMax ∧ ∀ i, i < s.nslot → (s.slot i).Ok

theorem State.Inv.slotsInv {s : State} (h : s.Inv) : SlotsInv s := ⟨h.slotCount, h.slotsOk⟩

theorem slotsInv_congr {s t : State} (h : SlotsSame s t) (hs : SlotsInv s) : SlotsInv t := by
  refine ⟨(nslot_congr h).trans_le hs.1, fun i hi => ?_⟩
  rw [slot_congr h]
  exact hs.2 i (nslot_congr h ▸ hi)

/-- A slot whose table is invalidated, whatever its window size becomes (43_scalar_mult.md R178). -/
theorem Slot.Ok.resize {sl : Slot} (h : sl.Ok) (w : WSize) :
    ({ sl with win := { sl.win with w := w, tvalid := false } } : Slot).Ok :=
  ⟨h.1, nofun, h.2.2⟩

/-- A bound slot whose own table is installed (43_scalar_mult.md R176). -/
theorem Slot.Ok.install {sl : Slot} (h : sl.Ok) (ha : sl.avalid = true) (hw : sl.win.w ≠ .w1) :
    ({ sl with win := { sl.win with tvalid := true, table := storedTable sl.anchor sl.win.w } } : Slot).Ok :=
  ⟨h.1, fun _ => ⟨ha, hw, rfl⟩, storedTable_wf _ _⟩

/-- A slot bound to a pair that is on the curve (43_scalar_mult.md R177). -/
theorem Slot.Ok.bind {sl : Slot} (h : sl.Ok) {a : Affine} (hx : a.x.toNat < P) (hy : a.y.toNat < P)
    (hc : onCurve a.x.toNat a.y.toNat = true) :
    ({ anchor := a, avalid := true, win := { sl.win with w := .w1, tvalid := false } } : Slot).Ok :=
  ⟨fun _ => ⟨hx, hy, hc⟩, nofun, h.2.2⟩

theorem slotsInv_setWindow {s : State} {i : Nat} {win : Window} (hi : i < s.nslot)
    (hok : ({ s.slot i with win := win } : Slot).Ok) (hs : SlotsInv s) : SlotsInv (s.setWindow i win) := by
  refine ⟨by simpa using hs.1, fun j hj => ?_⟩
  rw [slot_setWindow s i j win hi]
  split
  · exact hok
  · exact hs.2 j (by simpa using hj)

theorem slotsInv_resizeSlot {s : State} {i : Nat} (hi : i < s.nslot) (w : WSize) (hs : SlotsInv s) :
    SlotsInv (s.resizeSlot i w) :=
  slotsInv_setWindow hi ((hs.2 i hi).resize w) hs

theorem slotsInv_bindSlot {s : State} {i : Nat} {a : Affine} (h0 : i ≠ 0) (hi : i < s.nslot) (hx : a.x.toNat < P)
    (hy : a.y.toNat < P) (hc : onCurve a.x.toNat a.y.toNat = true) (hs : SlotsInv s) : SlotsInv (s.bindSlot i a) := by
  refine ⟨by simpa using hs.1, fun j hj => ?_⟩
  rw [slot_bindSlot s i j a h0 hi]
  split
  · exact (hs.2 i hi).bind hx hy hc
  · exact hs.2 j (by simpa using hj)

theorem slotsInv_smulInstall {s : State} {i : Nat} (hi : i < s.nslot) (ha : (s.slot i).avalid = true) (hs : SlotsInv s) :
    SlotsInv (s.smulInstall i) := by
  unfold State.smulInstall
  split
  · next hmiss => exact slotsInv_setWindow hi ((hs.2 i hi).install ha hmiss.1) hs
  · exact hs

/-- The base point's constants are coordinates of a point of the curve (10_state.md R33, R38). -/
theorem basePoint_onCurve : (BitVec.ofNat 256 Gx).toNat < P ∧ (BitVec.ofNat 256 Gy).toNat < P ∧
    onCurve (BitVec.ofNat 256 Gx).toNat (BitVec.ofNat 256 Gy).toNat = true := by decide

theorem slotsInv_resetWith {k : Nat} (hk : k < Config.nslotMax) : SlotsInv (State.resetWith k) := by
  have hn : (State.resetWith k).nslot = k + 1 := by simp [State.nslot, State.resetWith]
  refine ⟨by omega, fun i hi => ?_⟩
  cases i with
  | zero => exact ⟨fun _ => basePoint_onCurve, nofun, rfl⟩
  | succ i =>
    have hslot : (State.resetWith k).slot (i + 1) = Slot.unbound := by
      simp [State.slot, State.resetWith, List.getD_eq_getElem?_getD, show i < k by omega]
    rw [hslot]
    exact ⟨nofun, nofun, rfl⟩

/-! ### FINFO of a fault (60_exceptions.md R221) -/

/-- The check raises nothing, or a fault whose index fits FINFO's five bits. -/
def InfoIndex (c : Option Raise) : Prop := ∀ r, c = some r → r.info < 32

/-- A check that raises one fault under a condition. -/
theorem infoIndex_ite {q : Prop} [Decidable q] (k : Cause) {i : Nat} (hi : i < 32) :
    InfoIndex (if q then some { cause := k, info := i } else none) := by
  intro r hr
  obtain ⟨-, rfl⟩ := Option.ite_none_right_eq_some.mp hr |>.imp_right Option.some.inj
  exact hi

section Checks

variable {s : State} {i : Nat} (hi : i < 32)

include hi

@[simp] theorem infoIndex_chkP : InfoIndex (chkP s i) := infoIndex_ite _ hi

@[simp] theorem infoIndex_chkN : InfoIndex (chkN s i) := infoIndex_ite _ hi

@[simp] theorem infoIndex_chkScalar : InfoIndex (chkScalar s i) := infoIndex_ite _ hi

@[simp] theorem infoIndex_chkInvertible (m : Nat) : InfoIndex (chkInvertible s i m) := infoIndex_ite _ hi

@[simp] theorem infoIndex_chkSlot : InfoIndex (chkSlot s i) := infoIndex_ite _ hi

@[simp] theorem infoIndex_chkAnchored : InfoIndex (chkAnchored s i) := infoIndex_ite _ hi

@[simp] theorem infoIndex_chkTable : InfoIndex (chkTable s i) := infoIndex_ite _ hi

@[simp] theorem infoIndex_chkEntry (slot : Nat) : InfoIndex (chkEntry s i slot) := infoIndex_ite _ hi

@[simp] theorem infoIndex_chkOnCurve : InfoIndex (chkOnCurve s i) := by
  rw [chkOnCurve, ← ite_not]
  exact infoIndex_ite _ hi

end Checks

@[simp] theorem infoIndex_chkGlv (s : State) (i : Nat) : InfoIndex (chkGlv s i) := infoIndex_ite _ (by decide)

/-- A span that ends at or before r31 reports one of its registers (60_exceptions.md R222). -/
theorem infoIndex_chkSpanP {s : State} {i len : Nat} (h : i + len ≤ 32) : ∀ c ∈ chkSpanP s i len, InfoIndex c := by
  intro c hc
  obtain ⟨j, hj, rfl⟩ := mem_chkSpanP.mp hc
  exact infoIndex_chkP (by omega)

theorem infoIndex_firstRaise {cs : List (Option Raise)} (h : ∀ c ∈ cs, InfoIndex c) : InfoIndex (firstRaise cs) := by
  intro r hr
  obtain ⟨before, after, rfl, -⟩ := firstRaise_eq_some hr
  exact h (some r) (by simp) r rfl

/-- An illegal command reports index 0, so the later checks matter for a legal one only (60_exceptions.md R222). -/
theorem infoIndex_firstRaise_legal {i : Instr} {cs : List (Option Raise)} (h : i.wf = true → ∀ c ∈ cs, InfoIndex c) :
    InfoIndex (firstRaise (chkLegal i :: cs)) := by
  cases hw : i.wf with
  | false =>
    rw [chkLegal_of_not_wf hw, firstRaise_cons_some]
    rintro r ⟨⟩
    decide
  | true =>
    rw [(chkLegal_eq_none i).mpr hw, firstRaise_cons_none]
    exact infoIndex_firstRaise (h hw)

/-! ### The ending of a command -/

/-- The command is one ending (10_state.md R28). A completion touches nothing of STATUS and the fault record but BUSY and
DONE; the checks after the legality check of a legal command report indices only; and where all of them pass, the command's
writes leave the slots as the invariant says. -/
def HasEnding (i : Instr) (s : State) : Prop :=
  ∃ cs t, exec i s = s.endCommand (chkLegal i :: cs) t ∧ Completed s t.complete ∧
    (i.wf = true → (∀ c ∈ cs, InfoIndex c) ∧ ((∀ c ∈ cs, c = none) → SlotsInv s → SlotsInv t))

/-- A command that writes registers only: the slots are as they were. -/
theorem hasEnding_of_setSpan {i : Instr} {s : State} {cs : List (Option Raise)} {rd : Nat} {vs : List Word}
    (he : exec i s = s.endCommand (chkLegal i :: cs) (s.setSpan rd vs)) (hc : i.wf = true → ∀ c ∈ cs, InfoIndex c) :
    HasEnding i s :=
  ⟨cs, s.setSpan rd vs, he, by simp [Completed, Untouched],
    fun hw => ⟨hc hw, fun _ => slotsInv_congr (by simp [SlotsSame])⟩⟩

theorem exec_hasEnding (i : Instr) (s : State) : HasEnding i s := by
  cases i
  case nop => exact hasEnding_of_setSpan (cs := []) (rd := 0) (vs := []) rfl (by simp)
  case binvp rd ra n => exact hasEnding_of_setSpan rfl fun hw => infoIndex_chkSpanP (spans_binvp hw).2.2
  case pdbl rd ra => exact hasEnding_of_setSpan rfl fun hw => infoIndex_chkSpanP (spans_pdbl hw).2
  case padd rd ra rb =>
    refine hasEnding_of_setSpan rfl fun hw => ?_
    obtain ⟨-, ha, hb⟩ := spans_padd hw
    exact List.forall_mem_append.mpr ⟨infoIndex_chkSpanP ha, infoIndex_chkSpanP hb⟩
  case pneg rd ra => exact hasEnding_of_setSpan rfl fun hw => infoIndex_chkSpanP (spans_pneg hw).2
  case pnorm rd ra n => exact hasEnding_of_setSpan rfl fun hw => infoIndex_chkSpanP (spans_pnorm hw).2.2
  case smulu rd ra rb =>
    refine hasEnding_of_setSpan rfl fun hw => ?_
    exact List.forall_mem_append.mpr ⟨infoIndex_chkSpanP (spans_smulu hw).2, by simp⟩
  case glvsplit rd ra => exact hasEnding_of_setSpan rfl fun _ => by simp
  case tblrd rd ra slot => exact hasEnding_of_setSpan rfl fun _ => by simp
  case smul rd ra slot =>
    refine ⟨_, _, rfl, by simp [Completed, Untouched], fun _ => ⟨by simp, fun hpass hs => ?_⟩⟩
    have hanchored : chkAnchored s slot = none := hpass _ (by simp)
    obtain ⟨hslot, havalid⟩ := (chkAnchored_eq_none _).mp hanchored
    exact slotsInv_congr (by simp [SlotsSame]) (slotsInv_smulInstall hslot havalid hs)
  case setanch ra slot =>
    refine ⟨_, _, rfl, by simp [Completed, Untouched], fun hw => ?_⟩
    obtain ⟨hslot0, hspan⟩ := spans_setanch hw
    refine ⟨by simp [show ra.val + 1 < 32 by omega], fun hpass hs => ?_⟩
    simp only [List.mem_cons, List.not_mem_nil, or_false, forall_eq_or_imp, forall_eq, chkSlot_eq_none, chkP_eq_none,
      chkOnCurve_eq_none] at hpass
    obtain ⟨hslot, hx, hy, hcurve⟩ := hpass
    exact slotsInv_bindSlot hslot0 hslot hx hy hcurve hs
  case setw slot w =>
    refine ⟨_, _, rfl, by simp [Completed, Untouched], fun _ => ⟨by simp, fun hpass hs => ?_⟩⟩
    have hslot : chkSlot s slot = none := hpass _ (by simp)
    exact slotsInv_resizeSlot ((chkSlot_eq_none _).mp hslot) w hs
  -- The others write one register, and their checks name single registers.
  all_goals exact hasEnding_of_setSpan (vs := [_]) rfl fun _ => by simp

/-! ### The invariant -/

/-- The invariant depends on BUSY, FAULT, CAUSE, FINFO, the slots and the `rst` level alone. -/
theorem inv_congr {s t : State} (hs : s.Inv) (hbusy : t.status.busy = s.status.busy)
    (hfault : t.status.fault = s.status.fault) (hcause : t.cause = s.cause) (hfinfo : t.finfo = s.finfo)
    (hslots : SlotsSame s t) (hrst : t.rst = s.rst) : t.Inv where
  exclusive := hbusy ▸ hfault ▸ hs.exclusive
  causeCode := hcause ▸ hs.causeCode
  causeSet := hfault ▸ hcause ▸ hs.causeSet
  infoIndex := hfinfo ▸ hs.infoIndex
  slotCount := (slotsInv_congr hslots hs.slotsInv).1
  slotsOk := (slotsInv_congr hslots hs.slotsInv).2
  rstQuiet := hbusy ▸ hrst ▸ hs.rstQuiet

/-- A completion whose writes keep what the invariant says of the slots. -/
theorem inv_of_completed {s t : State} (hs : s.Inv) (h : Completed s t) (hslots : SlotsInv t) : t.Inv := by
  obtain ⟨hbusy, -, hfault, hcause, -, hfinfo, -⟩ := h
  exact {
    exclusive := by simp [hbusy]
    causeCode := hcause ▸ hs.causeCode
    causeSet := hfault ▸ hcause ▸ hs.causeSet
    infoIndex := hfinfo ▸ hs.infoIndex
    slotCount := hslots.1
    slotsOk := hslots.2
    rstQuiet := fun _ => hbusy }

/-- A fault taken with an index (60_exceptions.md R221). -/
theorem faultEntry_inv {s : State} (hs : s.Inv) {r : Raise} (hr : r.info < 32) : (s.faultEntry r).Inv := by
  have hcode : (BitVec.ofNat 32 r.cause.code).toNat = r.cause.code := by cases r.cause <;> rfl
  obtain ⟨hlow, hhigh⟩ := code_range r.cause
  have hslots : SlotsInv (s.faultEntry r) := slotsInv_congr ⟨rfl, rfl⟩ hs.slotsInv
  exact {
    exclusive := by simp
    causeCode := by simpa [hcode] using hhigh
    causeSet := fun _ => by rw [State.faultEntry_cause, hcode]; omega
    infoIndex := by rw [State.faultEntry_finfo, BitVec.toNat_ofNat]; omega
    slotCount := hslots.1
    slotsOk := hslots.2
    rstQuiet := fun _ => rfl }

theorem exec_inv {i : Instr} {s t : State} (hs : s.Inv) (h : exec i s = .next t) : t.Inv := by
  obtain ⟨cs, u, he, hcompleted, hlegal⟩ := exec_hasEnding i s
  rw [he] at h
  rcases endCommand_cases s (chkLegal i :: cs) u with ⟨hpass, hend⟩ | ⟨r, hraise, hend⟩
  · obtain rfl : u.complete = t := Host.Outcome.next.inj (hend.symm.trans h)
    obtain ⟨hw, hcs⟩ := List.forall_mem_cons.mp ((firstRaise_eq_none _).mp hpass)
    obtain ⟨-, hslots⟩ := hlegal ((chkLegal_eq_none i).mp hw)
    exact inv_of_completed hs hcompleted (slotsInv_congr ⟨rfl, rfl⟩ (hslots hcs hs.slotsInv))
  · obtain rfl : s.faultEntry r = t := Host.Outcome.next.inj (hend.symm.trans h)
    exact faultEntry_inv hs (infoIndex_firstRaise_legal (fun hw => (hlegal hw).1) r hraise)

/-- The sequencer's move (10_state.md R28, 30_encoding.md R88). -/
theorem coreMove_inv {s t : State} (hs : s.Inv) (h : s.coreMove = .next t) : t.Inv := by
  cases hbusy : s.status.busy with
  | false =>
    obtain rfl : s = t := Host.Outcome.next.inj ((coreMove_idle hbusy).symm.trans h)
    exact hs
  | true =>
    cases hd : decode s.cmdLatch with
    | ok i => exact exec_inv hs ((coreMove_ok hbusy hd).symm.trans h)
    | error r =>
      obtain rfl := Host.Outcome.next.inj ((coreMove_error hbusy hd).symm.trans h)
      exact faultEntry_inv hs (by decide)

theorem resetWith_inv {k : Nat} (hk : k < Config.nslotMax) : (State.resetWith k).Inv where
  exclusive := by simp [State.resetWith]
  causeCode := by simp [State.resetWith]
  causeSet := by simp [State.resetWith]
  infoIndex := by simp [State.resetWith]
  slotCount := (slotsInv_resetWith hk).1
  slotsOk := (slotsInv_resetWith hk).2
  rstQuiet := fun _ => rfl

/-- Reset keeps NSLOT, and nothing is in flight after it (70_reset_and_hazards.md R250). -/
theorem resetCore_inv {s : State} (hs : s.Inv) (level : Bool) : (s.resetCore level).Inv := by
  have hk : s.free.length < Config.nslotMax := hs.slotCount
  obtain ⟨hexclusive, hcode, hset, hindex, hcount, hslots, -⟩ := resetWith_inv hk
  have hsame : SlotsInv (s.resetCore level) := slotsInv_congr ⟨rfl, rfl⟩ ⟨hcount, hslots⟩
  exact ⟨hexclusive, hcode, hset, hindex, hsame.1, hsame.2, fun _ => rfl⟩

/-- A host write to STATUS clears FAULT or leaves it (10_state.md R26). -/
theorem writeStatus_inv {s : State} (hs : s.Inv) (v : HostWord) : (s.writeStatus v).Inv := by
  have hfault : (s.writeStatus v).status.fault = true → s.status.fault = true := by simp [Status.clear]; tauto
  have hslots : SlotsInv (s.writeStatus v) := slotsInv_congr ⟨rfl, rfl⟩ hs.slotsInv
  exact {
    exclusive := fun h => hs.exclusive ⟨h.1, hfault h.2⟩
    causeCode := hs.causeCode
    causeSet := fun h => hs.causeSet (hfault h)
    infoIndex := hs.infoIndex
    slotCount := hslots.1
    slotsOk := hslots.2
    rstQuiet := hs.rstQuiet }

/-- A command is accepted where the sequencer is idle (10_state.md R28). -/
theorem issue_of_idle {s : State} (hbusy : s.status.busy = false) (hfault : s.status.fault = false) (w : Cmd) :
    s.issue w = { s with cmdLatch := w, status := { s.status with busy := true } } := by
  simp [State.issue, State.idle, hbusy, hfault]

/-- A command is dropped where a command is in flight or a fault stands (60_exceptions.md R224). -/
theorem issue_of_not_idle {s : State} (h : s.status.busy = true ∨ s.status.fault = true) (w : Cmd) :
    s.issue w = { s with status := { s.status with ovr := true } } := by
  rcases h with h | h <;> simp [State.issue, State.idle, h]

theorem issue_inv {s : State} (hs : s.Inv) (hrst : s.rst = false) (w : Cmd) : (s.issue w).Inv := by
  by_cases h : s.status.busy = true ∨ s.status.fault = true
  · rw [issue_of_not_idle h]
    exact inv_congr hs rfl rfl rfl rfl ⟨rfl, rfl⟩ rfl
  · obtain ⟨hbusy, hfault⟩ : s.status.busy = false ∧ s.status.fault = false := by simpa using h
    rw [issue_of_idle hbusy hfault]
    have hslots := slotsInv_congr (t := { s with cmdLatch := w, status := { s.status with busy := true } }) ⟨rfl, rfl⟩
      hs.slotsInv
    exact {
      exclusive := by simp [hfault]
      causeCode := hs.causeCode
      causeSet := hs.causeSet
      infoIndex := hs.infoIndex
      slotCount := hslots.1
      slotsOk := hslots.2
      rstQuiet := by simp [hrst] }

theorem windowWrite_inv {s : State} (hs : s.Inv) (hrst : s.rst = false) (off : Nat) (v : HostWord) :
    (s.windowWrite off v).Inv := by
  unfold State.windowWrite
  split_ifs
  · exact inv_congr hs (by simp) (by simp) (by simp) (by simp) (by simp [SlotsSame]) (by simp)
  · exact issue_inv hs hrst v
  · exact writeStatus_inv hs v
  · exact inv_congr hs rfl rfl rfl rfl ⟨rfl, rfl⟩ rfl
  · exact hs

/-- The host's last reply is no part of CORE. -/
theorem reply_inv {s : State} (hs : s.Inv) (r : Reply) : ({ s with reply := r } : State).Inv :=
  inv_congr hs rfl rfl rfl rfl ⟨rfl, rfl⟩ rfl

theorem hostMove_inv {s t : State} {m : HostMove} (hs : s.Inv) (h : s.hostMove m = .next t) : t.Inv := by
  cases m with
  | read off size =>
    cases ha : s.accessRefusal off size with
    | some r => simp [State.hostMove, State.hostRead, ha] at h
    | none =>
      obtain rfl := Host.Outcome.next.inj ((hostRead_next ha).symm.trans h)
      exact inv_congr hs rfl rfl rfl rfl ⟨rfl, rfl⟩ rfl
  | write off size v =>
    cases ha : s.accessRefusal off size with
    | some r => simp [State.hostMove, State.hostWrite, ha] at h
    | none =>
      obtain rfl := Host.Outcome.next.inj ((hostWrite_next ha).symm.trans h)
      refine reply_inv ?_ _
      split
      · exact hs
      · next hrst => exact windowWrite_inv hs (by simpa using hrst) off v
  | assertRst =>
    obtain rfl := Host.Outcome.next.inj h
    exact resetCore_inv hs true
  | releaseRst =>
    obtain rfl := Host.Outcome.next.inj h
    refine reply_inv ?_ _
    split
    · exact resetCore_inv hs false
    · exact hs
  | sampleIrq =>
    obtain rfl := Host.Outcome.next.inj h
    exact reply_inv hs _

theorem takeTurn_inv {s t : State} {e : Turn} (hs : s.Inv) (h : s.takeTurn e = .next t) : t.Inv := by
  cases e with
  | host m => exact hostMove_inv hs h
  | core => exact coreMove_inv hs h
  | statusAtEnd v =>
    refine coreMove_inv (reply_inv ?_ _) h
    split
    · exact hs
    · exact writeStatus_inv hs v

/-- Settles O11: a step is the sequencer's move or a turn, and each keeps the invariant. -/
theorem stepKeepsInvariant : Obligations.StepKeepsInvariant := by
  unfold Obligations.StepKeepsInvariant
  intro s t hs h
  cases hturns : s.turns with
  | nil => exact coreMove_inv hs ((step_nil hturns).symm.trans h)
  | cons e ts =>
    have hrest : ({ s with turns := ts } : State).Inv := inv_congr hs rfl rfl rfl rfl ⟨rfl, rfl⟩ rfl
    exact takeTurn_inv hrest ((step_cons hturns).symm.trans h)

/-- Settles O12: the default NSLOT of 2 is one of the sixteen. -/
theorem resetMeetsInvariant : Obligations.ResetMeetsInvariant := by
  unfold Obligations.ResetMeetsInvariant
  exact ⟨resetWith_inv (by decide), fun k hk => resetWith_inv hk⟩

end Sys2Proof.Machine

/-! How a command in flight ends (10_state.md R28, 60_exceptions.md R221), by itself and as a step. -/

namespace Sys2Proof.Machine

/-- A command completes or takes one of the seven faults (60_exceptions.md R220). -/
theorem exec_completes_or_faults (i : Instr) (s : State) : ∃ t, exec i s = .next t ∧
    (Completed s t ∨ ∃ code info, 1 ≤ code ∧ code ≤ 7 ∧ FaultEffect s t code info) := by
  obtain ⟨cs, u, he, hcompleted, -⟩ := exec_form i s
  rw [he]
  rcases endCommand_cases s (chkLegal i :: cs) u with ⟨-, hend⟩ | ⟨r, -, hend⟩
  · exact ⟨_, hend, .inl hcompleted⟩
  · obtain ⟨hlow, hhigh⟩ := code_range r.cause
    exact ⟨_, hend, .inr ⟨_, _, hlow, hhigh, faultEffect_faultEntry s r⟩⟩

/-- So does the word in flight, a command or not (30_encoding.md R88). -/
theorem coreMove_completes_or_faults {s : State} (hbusy : s.status.busy = true) : ∃ t, s.coreMove = .next t ∧
    (Completed s t ∨ ∃ code info, 1 ≤ code ∧ code ≤ 7 ∧ FaultEffect s t code info) := by
  cases hd : decode s.cmdLatch with
  | ok i =>
    rw [coreMove_ok hbusy hd]
    exact exec_completes_or_faults i s
  | error r =>
    rw [coreMove_error hbusy hd]
    exact ⟨_, rfl, .inr ⟨1, 0, by decide, by decide, faultEffect_faultEntry s _⟩⟩

/-- A run is refused in one of its turns, or takes them all and ends what is still in flight (70_reset_and_hazards.md
R259). -/
theorem run_refused_or_ended (s : State) (ts : List Turn) :
    (∃ r, s.run ts = .refused r) ∨ ∃ t, s.run ts = .next t ∧ RunEnded t := by
  rcases after_next ts s with ⟨r, hrefused⟩ | ⟨u, hafter, hturns⟩
  · exact .inl ⟨r, steps_refused _ _ r hrefused⟩
  · obtain ⟨t, hmove, ht, hbusy⟩ := coreMove_ends u
    exact .inr ⟨t, (run_of_after hafter hturns).trans hmove, ht.trans hturns, hbusy⟩

/-- Settles O9: the two facts above, for one command and for a whole run. -/
theorem everyCommandEnds : Obligations.EveryCommandEnds := by
  unfold Obligations.EveryCommandEnds
  exact ⟨exec_completes_or_faults, run_refused_or_ended⟩

/-- A STATUS write in the instant of an ending comes before the ending (10_state.md R26; log entry 12). -/
theorem step_statusAtEnd {s : State} {v : HostWord} {ts : List Turn} (hturns : s.turns = .statusAtEnd v :: ts)
    (hrst : s.rst = false) :
    step s = ({ s with turns := ts, status := s.status.clear v, reply := .nothing } : State).coreMove := by
  simp [step_cons hturns, State.takeTurn, hrst, State.writeStatus]

theorem Completed.done {s t : State} : Completed s t → t.status.done = true := fun ⟨_, hdone, _⟩ => hdone

theorem FaultEffect.fault {s t : State} {code info : Nat} : FaultEffect s t code info → t.status.fault = true :=
  fun ⟨_, hfault, _⟩ => hfault

/-- Settles O51: the ending runs on the state whose bits the write has cleared, and sets its own bit there. -/
theorem setWinsOverClear : Obligations.SetWinsOverClear := by
  unfold Obligations.SetWinsOverClear
  intro s v ts hturns hbusy hrst
  obtain ⟨t, hmove, hend⟩ := coreMove_completes_or_faults
    (s := { s with turns := ts, status := s.status.clear v, reply := .nothing }) hbusy
  refine ⟨t, _, rfl, (step_statusAtEnd hturns hrst).trans hmove, ?_⟩
  rcases hend with hcompleted | ⟨code, info, hlow, hhigh, hfault⟩
  · exact .inl ⟨hcompleted.done, hcompleted⟩
  · exact .inr ⟨hfault.fault, code, info, hlow, hhigh, hfault⟩

/-- Settles O6: in each of the three steps the sequencer's move is `exec` of what CMDLATCH decodes to, and no turn changes
BUSY or CMDLATCH before it. -/
theorem stepRunsDecodedCommand : Obligations.StepRunsDecodedCommand := by
  unfold Obligations.StepRunsDecodedCommand
  intro s i hbusy hd
  refine ⟨fun hturns => ?_, fun ts hturns => ?_, fun v ts hturns hrst => ?_⟩
  · exact (step_nil hturns).trans (coreMove_ok hbusy hd)
  · exact (step_cons hturns).trans (coreMove_ok (s := { s with turns := ts }) hbusy hd)
  · exact (step_statusAtEnd hturns hrst).trans (coreMove_ok hbusy hd)

end Sys2Proof.Machine

/-! What the host reads and writes (10_state.md R26 to R35, 20_memory.md R51), outside reset: the window's words as numbers,
then the accesses. -/

namespace Sys2Proof.Machine

open Sys2Proof.Statement

/-! ### Words of the window -/

theorem statusWord_eq (st : Status) :
    st.word = BitVec.ofNat 32 (st.busy.toNat + 2 * st.done.toNat + 4 * st.fault.toNat + 8 * st.ovr.toNat) := by
  obtain ⟨busy, done, fault, ovr⟩ := st
  revert busy done fault ovr
  decide

theorem ctrlWord_eq (c : Ctrl) : c.word = BitVec.ofNat 32 (c.ieDone.toNat + 2 * c.ieFault.toNat) := by
  obtain ⟨ieDone, ieFault⟩ := c
  revert ieDone ieFault
  decide

/-- CTRL as read is the two bits written to it (10_state.md R27). -/
theorem ctrlOf_word (v : HostWord) : (ctrlOf v).word = v &&& 3#32 := by
  have hbits : (v.getLsbD 0).toNat + 2 * (v.getLsbD 1).toNat = v.toNat % 4 := by
    simp only [BitVec.getLsbD, Nat.toNat_testBit]
    omega
  have hmask : v.toNat &&& 3 = v.toNat % 4 := Nat.and_two_pow_sub_one_eq_mod v.toNat 2
  apply BitVec.eq_of_toNat_eq
  rw [ctrlWord_eq, ctrlOf, hbits, BitVec.toNat_and, BitVec.toNat_ofNat, show (3#32).toNat = 3 from rfl, hmask]
  omega

theorem stWord_eq (sl : Slot) :
    sl.stWord = BitVec.ofNat 32 (sl.avalid.toNat + 2 * sl.win.tvalid.toNat + 16 * sl.win.w.val) := by
  obtain ⟨anchor, avalid, w, tvalid, table⟩ := sl
  simp only [Slot.stWord]
  cases w <;> revert avalid tvalid <;> decide

/-- A slot's offsets name the slot and the byte of its 128 (20_memory.md R51). -/
theorem windowWord_slot (s : State) {i o : Nat} (ho : o < 0x80) : s.windowWord (0x800 + 0x80 * i + o) = s.slotWord i o := by
  unfold State.windowWord
  iterate 9 rw [if_neg (by omega)]
  have hslot : (0x800 + 0x80 * i + o - 0x800) / 0x80 = i := by omega
  have hbyte : (0x800 + 0x80 * i + o - 0x800) % 0x80 = o := by omega
  rw [hslot, hbyte]

section SlotWords

variable {s : State} {i : Nat} (hi : i < s.nslot)

include hi

theorem slotWord_status : s.slotWord i 0x40 = (s.slot i).stWord := by
  simp [State.slotWord, show ¬s.nslot ≤ i by omega]

theorem slotWord_anchorX (hbound : (s.slot i).avalid = true) {j : Nat} (hj : j < 8) :
    s.slotWord i (4 * j) = wordOf (s.slot i).anchor.x j := by
  simp [State.slotWord, State.hostAnchor, hbound, show ¬s.nslot ≤ i by omega, show 4 * j < 32 by omega]

theorem slotWord_anchorY (hbound : (s.slot i).avalid = true) {j : Nat} (hj : j < 8) :
    s.slotWord i (0x20 + 4 * j) = wordOf (s.slot i).anchor.y j := by
  simp [State.slotWord, State.hostAnchor, hbound, show ¬s.nslot ≤ i by omega, show 32 + 4 * j < 64 by omega]

end SlotWords

/-! ### Accesses -/

/-- The host's move comes before whatever turns the state has. -/
theorem hostDoes_eq (s : State) (m : HostMove) : hostDoes s m = s.hostMove m := step_host s m

section Accesses

variable {s : State} (hrst : s.rst = false) {off : Nat}

include hrst

theorem hostDoes_read (ha : s.accessRefusal off 4 = none) :
    hostDoes s (.read off 4) = .next { s with reply := .word (s.windowWord off), draw := s.draw + 1 } := by
  rw [hostDoes_eq, State.hostMove, hostRead_next ha]
  simp [hrst]

/-- A control register is written at any time, BUSY or not (20_memory.md R57). -/
theorem hostDoes_write_control (h : 0x400 ≤ off) (h2 : off < 0x800) (h4 : off % 4 = 0) (v : HostWord) :
    hostDoes s (.write off 4 v) = .next { s.windowWrite off v with reply := .nothing } := by
  rw [hostDoes_eq, State.hostMove, hostWrite_next (accessRefusal_control h h2 h4)]
  simp [hrst]

end Accesses

/-- A host write to CMD, at any time (10_state.md R28). -/
theorem hostDoes_write_cmd {s : State} (hrst : s.rst = false) (w : HostWord) :
    hostDoes s (.write 0x400 4 w) = .next { s.issue w with reply := .nothing } :=
  hostDoes_write_control hrst (by decide) (by decide) (by decide) w

theorem hostDoes_write_cmd_accepted {s : State} (hrst : s.rst = false) (hbusy : s.status.busy = false)
    (hfault : s.status.fault = false) (w : HostWord) :
    ∃ u, hostDoes s (.write 0x400 4 w) = .next u ∧ u.cmdLatch = w ∧ u.status.busy = true := by
  refine ⟨_, hostDoes_write_cmd hrst w, ?_⟩
  rw [issue_of_idle hbusy hfault]
  exact ⟨rfl, rfl⟩

/-- Settles O49: the write is `State.issue`, which accepts or drops the word. -/
theorem commandIssue : Obligations.CommandIssue := by
  unfold Obligations.CommandIssue
  intro s w hrst
  refine ⟨_, hostDoes_write_cmd hrst w, by simp [SameButStatus, SlotsSame], fun hbusy hfault => ?_, fun h => ?_⟩
  · rw [issue_of_idle hbusy hfault]
    exact ⟨rfl, rfl⟩
  · rw [issue_of_not_idle h]
    exact ⟨rfl, rfl⟩

/-- Write-1-to-clear, for one bit of STATUS and the written bit (10_state.md R26). -/
theorem cleared_bit (held written : Bool) :
    (written = true → (held && !written) = false) ∧ (written = false → (held && !written) = held) := by
  constructor <;> rintro rfl <;> simp

/-- Settles O50: the write clears bit by bit, and with FAULT cleared and BUSY 0 the next write to CMD is accepted. -/
theorem statusWriteOneToClear : Obligations.StatusWriteOneToClear := by
  unfold Obligations.StatusWriteOneToClear
  intro s v hrst
  refine ⟨{ s.writeStatus v with reply := .nothing },
    hostDoes_write_control hrst (by decide) (by decide) (by decide) v, by simp [SameButStatus, SlotsSame], rfl, rfl, ?_⟩
  obtain ⟨hdone1, hdone0⟩ := cleared_bit s.status.done (v.getLsbD 1)
  obtain ⟨hfault1, hfault0⟩ := cleared_bit s.status.fault (v.getLsbD 2)
  obtain ⟨hovr1, hovr0⟩ := cleared_bit s.status.ovr (v.getLsbD 3)
  refine ⟨hdone1, hdone0, hfault1, hfault0, hovr1, hovr0, ?_⟩
  intro hbusy h2 w
  exact hostDoes_write_cmd_accepted (s := { s.writeStatus v with reply := .nothing }) hrst hbusy (hfault1 h2) w

/-- Settles O55: each offset is a control register's, which answers at any time, with the word its rule gives. -/
theorem controlRegisterReads : Obligations.ControlRegisterReads := by
  unfold Obligations.ControlRegisterReads
  intro s hrst p hp
  have answers : ∀ off n : Nat, 0x400 ≤ off → off < 0x800 → off % 4 = 0 → s.windowWord off = BitVec.ofNat 32 n →
      ∃ t, hostDoes s (.read off 4) = .next t ∧ t.reply = .word (BitVec.ofNat 32 n) ∧ SameButStatus s t ∧
        t.status = s.status ∧ t.cmdLatch = s.cmdLatch := fun off n h h2 h4 hword =>
    ⟨_, hostDoes_read hrst (accessRefusal_control h h2 h4), by rw [hword], by simp [SameButStatus, SlotsSame], rfl, rfl⟩
  simp only [List.mem_cons, List.not_mem_nil, or_false] at hp
  obtain rfl | rfl | rfl | rfl | rfl | rfl | rfl | rfl := hp
  · exact answers 0x400 _ (by decide) (by decide) (by decide) rfl
  · exact answers 0x404 _ (by decide) (by decide) (by decide) (statusWord_eq _)
  · exact answers 0x408 _ (by decide) (by decide) (by decide) (ctrlWord_eq _)
  · exact answers 0x40C _ (by decide) (by decide) (by decide) (by simp [State.windowWord])
  · exact answers 0x410 _ (by decide) (by decide) (by decide) (by simp [State.windowWord])
  · exact answers 0x414 _ (by decide) (by decide) (by decide) (by simp [State.windowWord])
  · exact answers 0x418 _ (by decide) (by decide) (by decide) rfl
  · exact answers 0x41C _ (by decide) (by decide) (by decide) rfl

/-- Settles O56: SLOTST and the anchor words are three places of the slot's 128 bytes, and nothing is refused while not
busy. -/
theorem slotReads : Obligations.SlotReads := by
  unfold Obligations.SlotReads
  refine ⟨fun s => ⟨rfl, rfl⟩, fun s i hi h16 hbusy hrst => ?_⟩
  have answers : ∀ o, o < 0x80 → o % 4 = 0 → ∃ t, hostDoes s (.read (0x800 + 0x80 * i + o) 4) = .next t ∧
      t.reply = .word (s.slotWord i o) := fun o ho h4 =>
    ⟨_, hostDoes_read hrst (accessRefusal_idle hbusy (by omega) (by omega)), by rw [windowWord_slot s ho]⟩
  refine ⟨?_, fun hbound j hj => ⟨?_, ?_⟩⟩
  · rw [show 0x840 + 0x80 * i = 0x800 + 0x80 * i + 0x40 by omega, ← stWord_eq, ← slotWord_status hi]
    exact answers 0x40 (by decide) (by decide)
  · rw [← wordOf, ← slotWord_anchorX hi hbound hj]
    exact answers (4 * j) (by omega) (by omega)
  · rw [show 0x820 + 0x80 * i + 4 * j = 0x800 + 0x80 * i + (0x20 + 4 * j) by omega, ← wordOf,
      ← slotWord_anchorY hi hbound hj]
    exact answers (0x20 + 4 * j) (by omega) (by omega)

/-- Settles O58: a control register takes the write and answers the read at any time. -/
theorem controlWrite : Obligations.ControlWrite := by
  unfold Obligations.ControlWrite
  refine ⟨by decide, fun s v hrst => ?_⟩
  refine ⟨{ s.writeCtrl v with reply := .nothing }, _,
    hostDoes_write_control hrst (by decide) (by decide) (by decide) v, rfl, rfl, ⟨rfl, rfl⟩, rfl, rfl, rfl, rfl, rfl,
    hostDoes_read (s := { s.writeCtrl v with reply := .nothing }) hrst
      (accessRefusal_control (by decide) (by decide) (by decide)), ?_⟩
  exact congrArg Reply.word (ctrlOf_word v)

end Sys2Proof.Machine

/-! What the host sees of CORE's memory (20_memory.md R50 to R57): the words and bytes of the general registers, which
accesses are refused, and the offsets whose writes are ignored; and the commands that leave the cache alone (R60). -/

namespace Sys2Proof.Machine

open Sys2Proof.Statement

/-- Settles O10: a command completes with its writes, which leave the slots alone, or takes a fault, which does so too. -/
theorem onlyCacheCommandsChangeSlots : Obligations.OnlyCacheCommandsChangeSlots := by
  unfold Obligations.OnlyCacheCommandsChangeSlots
  intro i s t h hsmul hsetanch hsetw
  obtain ⟨cs, u, he, -, hslots⟩ := exec_form i s
  rw [he] at h
  rcases endCommand_cases s (chkLegal i :: cs) u with ⟨-, hend⟩ | ⟨r, -, hend⟩
  · obtain rfl : u.complete = t := Host.Outcome.next.inj (hend.symm.trans h)
    exact hslots hsmul hsetanch hsetw
  · obtain rfl : s.faultEntry r = t := Host.Outcome.next.inj (hend.symm.trans h)
    exact ⟨rfl, rfl⟩

/-! ### One word of a register (20_memory.md R52, R54) -/

theorem exists_register (s : State) {i : Nat} (hi : i < 32) : ∃ r, s.regs[i]? = some r :=
  ⟨s.regs[i], Vector.getElem?_eq_getElem hi⟩

theorem x_of_getElem? {s : State} {i : Nat} {r : GReg} (h : s.regs[i]? = some r) :
    s.x i = r.view (Config.freeReg s.draw i) := by simp [State.x, h]

theorem getElem?_setRegWord_self {s : State} {i : Nat} {r : GReg} (h : s.regs[i]? = some r) (j : Nat) (u : HostWord) :
    (s.setRegWord i j u).regs[i]? = some { val := putWord r.val j u, known := r.known ||| BitVec.ofNat 8 (2 ^ j) } := by
  have hi : i < 32 := (Vector.getElem?_eq_some_iff.mp h).1
  rw [State.setRegWord, h]
  exact Vector.getElem?_setIfInBounds_self_of_lt hi

theorem getElem?_setRegWord_ne (s : State) {i k : Nat} (hk : k ≠ i) (j : Nat) (u : HostWord) :
    (s.setRegWord i j u).regs[k]? = s.regs[k]? := by
  unfold State.setRegWord
  split
  · exact Vector.getElem?_setIfInBounds_ne hk.symm
  · rfl

/-- Writing word `j` makes it known, and no other word (10_state.md R21). -/
theorem getLsbD_known_or (known : BitVec 8) (j : Nat) {k : Nat} (hk : k < 8) :
    (known ||| BitVec.ofNat 8 (2 ^ j)).getLsbD k = (known.getLsbD k || decide (j = k)) := by
  rw [BitVec.getLsbD_or, BitVec.getLsbD_ofNat, Nat.testBit_two_pow, decide_eq_true hk, Bool.true_and]

/-- The host reads back the word it wrote, whatever else the register holds. -/
theorem regWord_setRegWord (s : State) {i j : Nat} (hi : i < 32) (hj : j < 8) (u : HostWord) :
    (s.setRegWord i j u).regWord i j = u := by
  obtain ⟨r, hr⟩ := exists_register s hi
  have hknown : (r.known ||| BitVec.ofNat 8 (2 ^ j)).getLsbD j = true := by
    rw [getLsbD_known_or r.known j hj, decide_eq_true rfl, Bool.or_true]
  have hword : wordOf (putWord r.val j u) j = u := by simpa using wordOf_putWord r.val j u ⟨j, hj⟩
  rw [State.regWord, x_of_getElem? (getElem?_setRegWord_self hr j u)]
  exact (wordOf_view _ _ ⟨j, hj⟩).trans ((if_pos hknown).trans hword)

/-- Every other word of the register, and whether it is known, is as before. -/
theorem setRegWord_other_words {s : State} {i j : Nat} {u : HostWord} {r q : GReg} (hr : s.regs[i]? = some r)
    (hq : (s.setRegWord i j u).regs[i]? = some q) {k : Nat} (hk : k < 8) (hkj : k ≠ j) :
    wordOf q.val k = wordOf r.val k ∧ q.known.getLsbD k = r.known.getLsbD k := by
  obtain rfl := Option.some.inj ((getElem?_setRegWord_self hr j u).symm.trans hq)
  refine ⟨?_, ?_⟩
  · exact (wordOf_putWord r.val j u ⟨k, hk⟩).trans (if_neg hkj)
  · rw [getLsbD_known_or r.known j hk, decide_eq_false hkj.symm, Bool.or_false]

/-- A register written whole reads as its value (10_state.md R21). -/
theorem regWord_of_known {s : State} {i : Nat} {r : GReg} (hr : s.regs[i]? = some r) (hknown : r.known = 0xFF#8) (j : Nat) :
    s.regWord i j = wordOf r.val j := by
  rw [State.regWord, x_of_getElem? hr, GReg.view, if_pos hknown]

/-- Byte `b` of a value is byte `b mod 4` of its word `b / 4`, both counted from the most significant (20_memory.md R52). -/
theorem byteOfWord_wordOf (v : Word) {b : Nat} (hb : b < 32) : byteOfWord (wordOf v (b / 4)) (b % 4) = byteOf v b := by
  apply BitVec.eq_of_getLsbD_eq
  intro k hk
  have hplace : 224 - 32 * (b / 4) + (24 - 8 * (b % 4) + k) = 248 - 8 * b + k := by omega
  simp [byteOfWord, wordOf, byteOf, hk, hplace, show 24 - 8 * (b % 4) + k < 32 by omega]

theorem windowByte_register (s : State) {i b : Nat} (hi : i < 32) (hb : b < 32) :
    s.windowByte (0x20 * i + b) = byteOfWord (s.regWord i (b / 4)) (b % 4) := by
  have hword : (0x20 * i + b) / 4 * 4 = 0x20 * i + 4 * (b / 4) := by omega
  have hbyte : (0x20 * i + b) % 4 = b % 4 := by omega
  rw [State.windowByte, hword, hbyte, windowWord_register s hi (by omega)]

/-! ### Guarded, reserved and read-only offsets (20_memory.md R51, R57) -/

theorem guarded_register (s : State) {off : Nat} (h : off < 0x400) : s.guarded off = true := by simp [State.guarded, h]

theorem guarded_slot {s : State} {i o : Nat} (hi : i < s.nslot) (ho : o ≤ 0x40) :
    s.guarded (0x800 + 0x80 * i + o) = true := by
  have hslot : (0x800 + 0x80 * i + o - 0x800) / 0x80 = i := by omega
  have hbyte : (0x800 + 0x80 * i + o - 0x800) % 0x80 = o := by omega
  simp only [State.guarded, hslot, hbyte]
  simp [hi, ho, show 0x800 ≤ 0x800 + 0x80 * i + o by omega]

theorem not_guarded_of_reserved {s : State} {off : Nat} (h : Reserved s off) : s.guarded off = false := by
  have hlow : ¬off < 0x400 := by
    rcases h with h | h | h <;> omega
  have hslot : ¬(0x800 ≤ off ∧ (off - 0x800) / 0x80 < s.nslot ∧ (off - 0x800) % 0x80 ≤ 0x40) := by
    rcases h with h | h | h <;> omega
  simpa [State.guarded, hlow, and_assoc] using hslot

/-- Outside the guarded locations every aligned word of the window answers, busy or not. -/
theorem accessRefusal_of_not_guarded {s : State} {off : Nat} (hg : s.guarded off = false) (h2 : off < 0x1000)
    (h4 : off % 4 = 0) : s.accessRefusal off 4 = none := by
  simp [State.accessRefusal, h4, show ¬0x1000 ≤ off by omega, hg]

/-- An access that is not one aligned word of the window is refused, and the first reason met is the one named. -/
theorem accessRefusal_of_bad_form (s : State) {off size : Nat} (h : size ≠ 4 ∨ off % 4 ≠ 0 ∨ 0x1000 ≤ off) :
    ∃ r, s.accessRefusal off size = some r ∧
      r ∈ [Refusal.hostAccessSize, .hostAccessUnaligned, .hostAccessOutsideWindow] := by
  unfold State.accessRefusal
  by_cases hsize : size = 4
  · by_cases halign : off % 4 = 0
    · have houtside : 0x1000 ≤ off := by tauto
      exact ⟨.hostAccessOutsideWindow, by simp [hsize, halign, houtside], by simp⟩
    · exact ⟨.hostAccessUnaligned, by simp [hsize, halign], by simp⟩
  · exact ⟨.hostAccessSize, by simp [hsize], by simp⟩

theorem windowWord_reserved {s : State} {off : Nat} (h : Reserved s off) : s.windowWord off = 0 := by
  unfold State.windowWord State.slotWord
  rcases h with ⟨hlow, hhigh⟩ | hpast | ⟨hslots, hbyte⟩
  · iterate 8 rw [if_neg (by omega)]
    rw [if_pos hhigh]
  · iterate 9 rw [if_neg (by omega)]
    rw [if_pos (by omega)]
  · iterate 9 rw [if_neg (by omega)]
    split
    · rfl
    · iterate 3 rw [if_neg (by omega)]

/-- Nothing from CAUSE on can be written by the host (20_memory.md R51). -/
theorem windowWrite_of_readOnly (s : State) {off : Nat} (h : 0x40C ≤ off) (v : HostWord) : s.windowWrite off v = s := by
  unfold State.windowWrite
  iterate 4 rw [if_neg (by omega)]

/-! ### Accesses that are refused and accesses that answer -/

theorem hostDoes_refused {s : State} {off size : Nat} {r : Refusal} (ha : s.accessRefusal off size = some r) (v : HostWord) :
    hostDoes s (.read off size) = .refused r ∧ hostDoes s (.write off size v) = .refused r := by
  simp [hostDoes_eq, State.hostMove, State.hostRead, State.hostWrite, ha]

theorem hostDoes_write {s : State} (hrst : s.rst = false) {off : Nat} (ha : s.accessRefusal off 4 = none) (v : HostWord) :
    hostDoes s (.write off 4 v) = .next { s.windowWrite off v with reply := .nothing } := by
  rw [hostDoes_eq, State.hostMove, hostWrite_next ha]
  simp [hrst]

/-- An answered read leaves CORE as it was (20_memory.md R55), in reset too. -/
theorem hostDoes_read_frame {s : State} {off : Nat} (ha : s.accessRefusal off 4 = none) :
    ∃ t, hostDoes s (.read off 4) = .next t ∧ SameButStatus s t ∧ t.status = s.status := by
  rw [hostDoes_eq, State.hostMove, hostRead_next ha]
  exact ⟨_, rfl, by simp [SameButStatus, SlotsSame], rfl⟩

/-- Settles O47: an idle core takes the write as `State.setRegWord` and answers the read with `State.regWord`. -/
theorem registerWordWrite : Obligations.RegisterWordWrite := by
  unfold Obligations.RegisterWordWrite
  intro s i j v hi hj hbusy hrst
  have hwrite : hostDoes s (.write (0x20 * i + 4 * j) 4 v) = .next { s.setRegWord i j v with reply := .nothing } := by
    rw [hostDoes_write hrst (accessRefusal_idle hbusy (by omega) (by omega)), windowWrite_register s hi hj]
  have hread := hostDoes_read (s := { s.setRegWord i j v with reply := .nothing }) (off := 0x20 * i + 4 * j) (by simp [hrst])
    (accessRefusal_idle (by simp [hbusy]) (by omega) (by omega))
  refine ⟨_, _, hwrite, hread, ?_, fun k hk => getElem?_setRegWord_ne s hk j v,
    fun r q hr hq k hk hkj => setRegWord_other_words hr hq hk hkj, by simp [SlotsSame], by simp, by simp, by simp, by simp,
    by simp⟩
  exact congrArg Reply.word ((windowWord_register _ hi hj).trans (regWord_setRegWord s hi hj v))

/-- Settles O48: the window's words of a register written whole are those of its value, and its bytes are theirs. -/
theorem registerBytesBigEndian : Obligations.RegisterBytesBigEndian := by
  unfold Obligations.RegisterBytesBigEndian
  intro s i r hr hknown hbusy hrst
  have hi : i < 32 := (Vector.getElem?_eq_some_iff.mp hr).1
  refine ⟨fun j hj => ⟨_, hostDoes_read hrst (accessRefusal_idle hbusy (by omega) (by omega)), ?_⟩, fun b hb => ?_⟩
  · rw [windowWord_register s hi hj, regWord_of_known hr hknown, wordOf]
  · rw [windowByte_register s hi hb, regWord_of_known hr hknown, byteOfWord_wordOf r.val hb, byteOf]

/-- Settles O52: registers and slot locations are guarded; between them lie the control registers. -/
theorem busyCoreAccess : Obligations.BusyCoreAccess := by
  unfold Obligations.BusyCoreAccess
  intro s off v hbusy h4
  refine ⟨fun hloc => ?_, fun h h2 => ⟨?_, ?_⟩⟩
  · have hguarded : off < 0x1000 ∧ s.guarded off = true := by
      rcases hloc with hreg | ⟨i, o, hi, h16, ho, rfl⟩
      · exact ⟨by omega, guarded_register s hreg⟩
      · exact ⟨by omega, guarded_slot hi ho⟩
    obtain ⟨hwindow, hguard⟩ := hguarded
    exact hostDoes_refused (accessRefusal_busy hbusy hwindow h4 hguard) v
  · exact hostDoes_read_frame (accessRefusal_control h h2 h4)
  · exact ⟨_, (hostDoes_eq s _).trans (hostWrite_next (accessRefusal_control h h2 h4))⟩

/-- Settles O53: the form of the access is checked before anything else, and alike for reads and writes. -/
theorem hostAccessForm : Obligations.HostAccessForm := by
  unfold Obligations.HostAccessForm
  intro s off size v h
  obtain ⟨r, hrefusal, hname⟩ := accessRefusal_of_bad_form s h
  obtain ⟨hread, hwrite⟩ := hostDoes_refused hrefusal v
  exact ⟨r, hread, hwrite, hname⟩

/-- Settles O54: none of these accesses is refused, the writes are ignored and the reserved words are 0. -/
theorem readOnlyAndReserved : Obligations.ReadOnlyAndReserved := by
  unfold Obligations.ReadOnlyAndReserved
  intro s off v hrst h4 hwindow hlow
  refine ⟨fun h => ?_, fun hreserved => ?_⟩
  · have ha : s.accessRefusal off 4 = none := by
      rcases h with hcontrol | hreserved | hbusy
      · exact accessRefusal_control (by omega) hcontrol h4
      · exact accessRefusal_of_not_guarded (not_guarded_of_reserved hreserved) hwindow h4
      · exact accessRefusal_idle hbusy hwindow h4
    refine ⟨_, hostDoes_write hrst ha v, ?_⟩
    rw [windowWrite_of_readOnly s hlow]
    exact ⟨by simp [SameButStatus, SlotsSame], rfl, rfl⟩
  · have ha := accessRefusal_of_not_guarded (not_guarded_of_reserved hreserved) hwindow h4
    exact ⟨_, hostDoes_read hrst ha, congrArg Reply.word (windowWord_reserved hreserved),
      by simp [SameButStatus, SlotsSame], rfl, rfl⟩

end Sys2Proof.Machine

/-! Decoder and encoder (30_encoding.md R81 to R88): what the decoder can answer for a word, opcode by opcode, from which both
directions of the round trip and the two kinds of rejection follow; then what a word or a command that is illegal does. -/

namespace Sys2Proof.Machine

open Sys2Proof.Statement

/-! ### The immediates that stand for something (30_encoding.md R83) -/

theorem constOf_eq_some {m : Imm} {c : Const} : constOf m = some c ↔ m.val = c.sel := by
  constructor
  · intro h
    unfold constOf at h
    split at h <;> cases h <;> assumption
  · intro h
    rw [constOf, h]
    cases c <;> rfl

theorem wsizeOf_eq_some {aux : Nat} {w : WSize} : wsizeOf aux = some w ↔ aux = w.val := by
  constructor
  · intro h
    unfold wsizeOf at h
    split at h <;> cases h <;> rfl
  · rintro rfl
    cases w <;> rfl

theorem constSel_lt (c : Const) : c.sel < 512 := by cases c <;> decide

/-- SETW's immediate fits its field, with its slot below `aux`. -/
theorem setw_imm_lt (slot : SlotIx) (ws : WSize) : 2 ^ 5 * ws.val + slot.val < 512 := by
  have := slot.isLt
  cases ws <;> simp only [WSize.val] <;> omega

/-! ### From a command to its word and back: one lemma per format -/

section Accept

variable {w : Cmd} {op d a b : Nat} {rd ra rb : Reg} {m : Imm} {slot : SlotIx}

/-- An immediate below 32 is all slot (30_encoding.md R83(d)). -/
theorem slotOf_of_fields (F : Fields w op d a b slot) : slotOf w = slot :=
  Fin.ext (F.slot.trans (Nat.mod_eq_of_lt slot.isLt))

theorem auxOf_of_fields (F : Fields w op d a b slot) : auxOf w = 0 := F.aux.trans (Nat.div_eq_of_lt slot.isLt)

theorem accept_R2 {mk : Reg → Reg → Instr} (F : Fields w op rd ra 0 0) (hi : (mk rd ra).wf = true) :
    accept .R2 w (some (mk (rdOf w) (raOf w))) = .ok (mk rd ra) := by
  rw [Fin.ext F.rd, Fin.ext F.ra]
  exact accept_some (by simp [Format.unusedZero, Fin.ext_iff, F.rb, F.imm]) hi

theorem accept_R3 {mk : Reg → Reg → Reg → Instr} (F : Fields w op rd ra rb 0) (hi : (mk rd ra rb).wf = true) :
    accept .R3 w (some (mk (rdOf w) (raOf w) (rbOf w))) = .ok (mk rd ra rb) := by
  rw [Fin.ext F.rd, Fin.ext F.ra, Fin.ext F.rb]
  exact accept_some (by simp [Format.unusedZero, Fin.ext_iff, F.imm]) hi

theorem accept_RI {mk : Reg → Reg → Imm → Instr} (F : Fields w op rd ra 0 m) (hi : (mk rd ra m).wf = true) :
    accept .RI w (some (mk (rdOf w) (raOf w) (immOf w))) = .ok (mk rd ra m) := by
  rw [Fin.ext F.rd, Fin.ext F.ra, Fin.ext F.imm]
  exact accept_some (by simp [Format.unusedZero, Fin.ext_iff, F.rb]) hi

theorem accept_RS {mk : Reg → Reg → SlotIx → Instr} (F : Fields w op rd ra 0 slot) (hi : (mk rd ra slot).wf = true) :
    accept .RS w (some (mk (rdOf w) (raOf w) (slotOf w))) = .ok (mk rd ra slot) := by
  rw [Fin.ext F.rd, Fin.ext F.ra, slotOf_of_fields F]
  exact accept_some (by simp [Format.unusedZero, Fin.ext_iff, F.rb, auxOf_of_fields F]) hi

theorem accept_DI {c : Const} (F : Fields w op rd 0 0 c.sel) (hi : (Instr.ldc rd c).wf = true) :
    accept .DI w ((constOf (immOf w)).map (Instr.ldc (rdOf w))) = .ok (.ldc rd c) := by
  rw [Fin.ext F.rd, constOf_eq_some.mpr F.imm]
  exact accept_some (by simp [Format.unusedZero, Fin.ext_iff, F.ra, F.rb]) hi

theorem accept_AS (F : Fields w op 0 ra 0 slot) (hi : (Instr.setanch ra slot).wf = true) :
    accept .AS w (some (.setanch (raOf w) (slotOf w))) = .ok (.setanch ra slot) := by
  rw [Fin.ext F.ra, slotOf_of_fields F]
  exact accept_some (by simp [Format.unusedZero, Fin.ext_iff, F.rd, F.rb, auxOf_of_fields F]) hi

theorem accept_SW {ws : WSize} (F : Fields w op 0 0 0 (2 ^ 5 * ws.val + slot.val)) (hi : (Instr.setw slot ws).wf = true) :
    accept .SW w ((wsizeOf (auxOf w)).map (Instr.setw (slotOf w))) = .ok (.setw slot ws) := by
  have hslot : slotOf w = slot := Fin.ext (by have := F.slot; omega)
  have haux : auxOf w = ws.val := by have := F.aux; omega
  rw [hslot, wsizeOf_eq_some.mpr haux]
  exact accept_some (by simp [Format.unusedZero, Fin.ext_iff, F.rd, F.ra, F.rb]) hi

end Accept

theorem fields_encode (i : Instr) (rd ra rb : Reg) (m : Imm) (h : encode i = assemble i.opcode rd ra rb m) :
    Fields (encode i) i.opcode rd ra rb m :=
  h ▸ fields_assemble (opcode_lt i) rd.isLt ra.isLt rb.isLt m.isLt

/-- A legal command's word carries its operands in the fields its format uses, and zeros in the others. -/
theorem decode_encode {i : Instr} (hi : i.wf = true) : decode (encode i) = .ok i := by
  have fields := fields_encode i
  unfold decode
  cases i
  case nop => rfl
  case mov rd ra | sqrp rd ra | redp rd ra | invp rd ra | sqrtp rd ra | redn rd ra | invn rd ra | pdbl rd ra | pneg rd ra
      | glvsplit rd ra =>
    have F := fields rd ra 0 0 rfl
    rw [F.op]
    exact accept_R2 F hi
  case addp rd ra rb | subp rd ra rb | mulp rd ra rb | addn rd ra rb | subn rd ra rb | muln rd ra rb | padd rd ra rb
      | smulu rd ra rb =>
    have F := fields rd ra rb 0 rfl
    rw [F.op]
    exact accept_R3 F hi
  case pow2p rd ra m | binvp rd ra m | pnorm rd ra m =>
    have F := fields rd ra 0 m rfl
    rw [F.op]
    exact accept_RI F hi
  case smul rd ra slot | tblrd rd ra slot =>
    have F := fields rd ra 0 (slot.castLE (by decide)) rfl
    rw [F.op]
    exact accept_RS F hi
  case ldc rd c =>
    have F := fields rd 0 0 ⟨c.sel, constSel_lt c⟩ rfl
    rw [F.op]
    exact accept_DI F hi
  case setanch ra slot =>
    have F := fields 0 ra 0 (slot.castLE (by decide)) rfl
    rw [F.op]
    exact accept_AS F hi
  case setw slot ws =>
    have F := fields 0 0 0 ⟨2 ^ 5 * ws.val + slot.val, setw_imm_lt slot ws⟩ rfl
    rw [F.op]
    exact accept_SW F hi

/-! ### From a word to the command it decodes to -/

/-- The word put together from the fields of `w` that the format uses, the others zero. -/
def usedPart : Format → Cmd → Cmd
  | .Z, w => assemble (opOf w) 0 0 0 0
  | .R2, w => assemble (opOf w) (rdOf w) (raOf w) 0 0
  | .R3, w => assemble (opOf w) (rdOf w) (raOf w) (rbOf w) 0
  | .RI, w => assemble (opOf w) (rdOf w) (raOf w) 0 (immOf w)
  | .RS, w => assemble (opOf w) (rdOf w) (raOf w) 0 (slotOf w)
  | .DI, w => assemble (opOf w) (rdOf w) 0 0 (immOf w)
  | .AS, w => assemble (opOf w) 0 (raOf w) 0 (slotOf w)
  | .SW, w => assemble (opOf w) 0 0 0 (immOf w)

theorem usedPart_eq_self {f : Format} {w : Cmd} (h : f.unusedZero w = true) : usedPart f w = w := by
  have hw := assemble_fields w
  have himm := immOf_eq_slot_aux w
  cases f <;> simp_all [Format.unusedZero, usedPart]

/-- Everything the decoder can do (30_encoding.md R86): reject an opcode outside the map, or run the checks of the format the
map gives the opcode, on a command read from the fields that format uses. -/
theorem decode_cases (w : Cmd) :
    (opOf w ∉ opcodeMap.map Prod.fst ∧ decode w = .error .unknownOp) ∨
      ∃ f o, (opOf w, f) ∈ opcodeMap ∧ decode w = accept f w o ∧ ∀ i, o = some i → encode i = usedPart f w := by
  unfold decode
  split
  -- the opcode of no row
  case h_28 => exact .inl ⟨by simp_all [opcodeMap], rfl⟩
  -- LDC, whose immediate has to name a constant
  case h_3 h =>
    refine .inr ⟨_, _, by simp [h, opcodeMap], rfl, ?_⟩
    intro i hi
    obtain ⟨c, hc, rfl⟩ := Option.map_eq_some_iff.mp hi
    simp [encode, Instr.opcode, usedPart, h, constOf_eq_some.mp hc]
  -- SETW, whose `aux` has to name a window size
  case h_26 h =>
    refine .inr ⟨_, _, by simp [h, opcodeMap], rfl, ?_⟩
    intro i hi
    obtain ⟨ws, hws, rfl⟩ := Option.map_eq_some_iff.mp hi
    have himm : (immOf w).val = 32 * ws.val + (slotOf w).val := by
      rw [immOf_eq_slot_aux, wsizeOf_eq_some.mp hws, Nat.mul_comm]
    simp [encode, Instr.opcode, usedPart, h, himm]
  -- every other row, which reads its fields as they are
  all_goals
    next h =>
      refine .inr ⟨_, _, by simp [h, opcodeMap], rfl, ?_⟩
      rintro i ⟨⟩
      simp [encode, Instr.opcode, usedPart, h]

/-- A format stands at an opcode once (30_encoding.md R85). -/
theorem opcodeMap_functional : ∀ p ∈ opcodeMap, ∀ q ∈ opcodeMap, p.1 = q.1 → p.2 = q.2 := by decide

/-- The opcode map gives a word its format, and the decoder runs that format's checks. -/
theorem decode_of_mem_opcodeMap {w : Cmd} {f : Format} (h : (opOf w, f) ∈ opcodeMap) : ∃ o, decode w = accept f w o := by
  rcases decode_cases w with ⟨hnot, -⟩ | ⟨g, o, hg, hdecode, -⟩
  · exact absurd (List.mem_map_of_mem h) hnot
  · obtain rfl : g = f := opcodeMap_functional _ hg _ h rfl
    exact ⟨o, hdecode⟩

theorem wf_and_encode_of_decode {w : Cmd} {i : Instr} (h : decode w = .ok i) : i.wf = true ∧ encode i = w := by
  rcases decode_cases w with ⟨-, hdecode⟩ | ⟨f, o, -, hdecode, hread⟩
  · simp [hdecode] at h
  · obtain ⟨hz, ho, hi⟩ := accept_eq_ok (hdecode.symm.trans h)
    exact ⟨hi, (hread i ho).trans (usedPart_eq_self hz)⟩

/-! ### Must-be-zero bits and the masks (30_encoding.md R82) -/

/-- The fields a format does not use, each as its lowest bit and its width (30_encoding.md R81, R82). -/
def unusedFields : Format → List (Nat × Nat)
  | .Z => [(19, 5), (14, 5), (9, 5), (0, 9)]
  | .R2 => [(9, 5), (0, 9)]
  | .R3 => [(0, 9)]
  | .RI => [(9, 5)]
  | .RS => [(9, 5), (5, 4)]
  | .DI => [(14, 5), (9, 5)]
  | .AS => [(19, 5), (9, 5), (5, 4)]
  | .SW => [(19, 5), (14, 5), (9, 5)]

theorem unusedZero_iff_fields (f : Format) (w : Cmd) :
    f.unusedZero w = true ↔ ∀ p ∈ unusedFields f, w.toNat / 2 ^ p.1 % 2 ^ p.2 = 0 := by
  cases f <;> simp only [Format.unusedZero, Bool.and_eq_true, decide_eq_true_eq] <;>
    simp [unusedFields, rdOf, raOf, rbOf, immOf, auxOf, Fin.ext_iff, and_assoc]

/-- Below the opcode, the mask of a format covers the bits of its unused fields and no others. -/
theorem maskOf_bit (f : Format) : ∀ i < 24,
    (maskOf f).getLsbD i = (unusedFields f).any (fun p => decide (p.1 ≤ i ∧ i < p.1 + p.2)) := by
  cases f <;> decide

/-- Every mask covers the opcode. -/
theorem maskOf_opcode_bit (f : Format) : ∀ i < 32, 24 ≤ i → (maskOf f).getLsbD i = true := by
  cases f <;> decide

theorem unusedFields_below (f : Format) : ∀ p ∈ unusedFields f, p.1 + p.2 ≤ 24 := by
  cases f <;> decide

theorem unusedZero_iff_bits (f : Format) (w : Cmd) :
    f.unusedZero w = true ↔ ∀ i < 24, (maskOf f).getLsbD i = true → w.getLsbD i = false := by
  simp only [unusedZero_iff_fields, field_eq_zero]
  constructor
  · intro h i hi hm
    rw [maskOf_bit f i hi] at hm
    obtain ⟨p, hp, hr⟩ := List.any_eq_true.mp hm
    obtain ⟨hlow, hhigh⟩ := of_decide_eq_true hr
    simpa [Nat.add_sub_cancel' hlow] using h p hp (i - p.1) (by omega)
  · intro h p hp j hj
    have hi : p.1 + j < 24 := by have := unusedFields_below f p hp; omega
    refine h _ hi ?_
    rw [maskOf_bit f _ hi]
    exact List.any_eq_true.mpr ⟨p, hp, decide_eq_true ⟨by omega, by omega⟩⟩

/-- The match value of a word: its opcode, and zeros below. -/
theorem getLsbD_matchValue (w : Cmd) {i : Nat} (hi : i < 32) :
    (BitVec.ofNat 32 (w.toNat / 2 ^ 24 * 2 ^ 24)).getLsbD i = (decide (24 ≤ i) && w.getLsbD i) := by
  rw [BitVec.getLsbD_ofNat, Nat.testBit_mul_two_pow, Nat.testBit_div_two_pow]
  by_cases h : 24 ≤ i
  · simp [h, hi, BitVec.getLsbD]
  · simp [h]

theorem and_maskOf_eq_iff (f : Format) (w : Cmd) :
    w &&& maskOf f = BitVec.ofNat 32 (w.toNat / 2 ^ 24 * 2 ^ 24) ↔ f.unusedZero w = true := by
  rw [unusedZero_iff_bits]
  constructor
  · intro h i hi hm
    have hbit : (w &&& maskOf f).getLsbD i = (decide (24 ≤ i) && w.getLsbD i) := by
      rw [h, getLsbD_matchValue w (by omega)]
    simpa [hm, show ¬24 ≤ i by omega] using hbit
  · intro h
    apply BitVec.eq_of_getLsbD_eq
    intro i hi
    rw [BitVec.getLsbD_and, getLsbD_matchValue w hi]
    by_cases hop : 24 ≤ i
    · simp [hop, maskOf_opcode_bit f i hi hop]
    · cases hm : (maskOf f).getLsbD i with
      | false => simp [hop]
      | true => simp [hop, h i (by omega) hm]

/-! ### The encoding's obligations -/

/-- Settles O2: the word's fields give back the operands, and the legality check passes. -/
theorem decodeOfEncode : Obligations.DecodeOfEncode := by
  unfold Obligations.DecodeOfEncode
  exact fun i hi => decode_encode hi

/-- Settles O3: what the decoder accepts has its unused fields zero, so the word is the fields it was read from. -/
theorem encodeOfDecode : Obligations.EncodeOfDecode := by
  unfold Obligations.EncodeOfDecode
  exact fun w i h => wf_and_encode_of_decode h

/-- Settles O4: every other case of the decoder has an opcode of the map. -/
theorem unknownOpcodeRejected : Obligations.UnknownOpcodeRejected := by
  unfold Obligations.UnknownOpcodeRejected
  intro w hnot
  rcases decode_cases w with ⟨-, hdecode⟩ | ⟨f, o, hmem, -, -⟩
  · exact hdecode
  · exact absurd (List.mem_map_of_mem hmem) hnot

/-- Settles O5: the checks of the format reject for the unused fields exactly when a bit of them is 1, and the mask covers
these bits and the opcode. -/
theorem maskDecidesUnusedBits : Obligations.MaskDecidesUnusedBits := by
  unfold Obligations.MaskDecidesUnusedBits
  intro w f hmem
  obtain ⟨o, hdecode⟩ := decode_of_mem_opcodeMap hmem
  rw [hdecode, accept_eq_mustBeZero, ne_eq, and_maskOf_eq_iff, Bool.not_eq_true]

/-! ### What an illegal command or word does (30_encoding.md R88) -/

/-- Settles O8: every command checks first that it is legal. -/
theorem illFormedCommandTraps : Obligations.IllFormedCommandTraps := by
  unfold Obligations.IllFormedCommandTraps Faults
  intro i s hi
  obtain ⟨cs, t, he, -, -⟩ := exec_form i s
  rw [he, chkLegal_of_not_wf hi]
  exact endCommand_faults (firstRaise_cons_some _ cs) t

/-- Settles O1: each word decodes by computation. -/
theorem sampleWordsDecode : Obligations.SampleWordsDecode := by
  unfold Obligations.SampleWordsDecode
  decide

/-- The sequencer's move on a word that is no command. -/
theorem coreMove_illegalWord {s : State} {r : Reject} (hbusy : s.status.busy = true) (hd : decode s.cmdLatch = .error r) :
    ∃ t, s.coreMove = .next t ∧ FaultEffect s t 1 0 :=
  ⟨_, coreMove_error hbusy hd, faultEffect_faultEntry s _⟩

/-- Settles O7: in each of the three steps the sequencer's move is that of a word that is no command, and no turn changes
BUSY or CMDLATCH before it. -/
theorem illegalWordTakesFault : Obligations.IllegalWordTakesFault := by
  unfold Obligations.IllegalWordTakesFault
  intro s r hbusy hd
  refine ⟨fun hturns => ?_, fun ts hturns => ?_, fun v ts hturns hrst => ?_⟩
  · rw [step_nil hturns]
    exact coreMove_illegalWord hbusy hd
  · rw [step_cons hturns]
    exact coreMove_illegalWord (s := { s with turns := ts }) hbusy hd
  · rw [step_statusAtEnd hturns hrst]
    exact coreMove_illegalWord hbusy hd

end Sys2Proof.Machine

/-! Field and scalar arithmetic (40_field_scalar_arith.md R100 to R111). Every command of the family is legal in every operand
and ends by writing one register once its range checks pass; what is left is that the number written is the one the rules
name. -/

namespace Sys2Proof.Machine

open Sys2Proof.Statement

/-- A legal command whose checks pass and whose result is one number writes that number and nothing else. -/
theorem writes_putNat {i : Instr} {s : State} {cs : List (Option Raise)} {rd : Reg} {v : Nat} (hw : i.wf = true)
    (he : exec i s = s.endCommand (chkLegal i :: cs) (s.putNat rd v)) (hc : firstRaise cs = none) :
    Writes i s rd [word v] := by
  have hall : firstRaise (chkLegal i :: cs) = none := by rw [(chkLegal_eq_none i).mpr hw, firstRaise_cons_none, hc]
  exact exec_writes he hall (Nat.succ_le_of_lt rd.isLt)

/-! ### The values (00_scope.md R11, R14) -/

theorem wordMod_eq_word_residue (a : Int) (m : Nat) : wordMod a m = word (residue a m) := rfl

/-- `Fadd` and `Nadd`: the exact sum, reduced. -/
theorem wordMod_add (a b m : Nat) : wordMod ((a : Int) + b) m = word ((a + b) % m) := by
  rw [wordMod_eq_word_residue, ← Nat.cast_add, residue_natCast]

/-- `Fmul` and `Nmul`: the exact product, reduced. -/
theorem wordMod_mul (a b m : Nat) : wordMod ((a : Int) * b) m = word (a * b % m) := by
  rw [wordMod_eq_word_residue, ← Nat.cast_mul, residue_natCast]

/-- Reduction below twice the modulus subtracts it at most once. -/
theorem mod_eq_ite_sub {v m : Nat} (h : v < 2 * m) : v % m = if v < m then v else v - m := by
  split
  · next hlt => exact Nat.mod_eq_of_lt hlt
  · next hle => rw [Nat.mod_eq_sub_mod (by omega), Nat.mod_eq_of_lt (by omega)]

theorem pow2_eq {t : Nat} (h : t < P) (k : Nat) : pow2 t k = t ^ 2 ^ k % P :=
  eq_of_cast_eq (pow2_lt h k) (Nat.mod_lt _ P_pos) (by simp)

/-! ### The family's obligations -/

/-- Settles O16: the checks of both operands pass, and `Fadd`, `Fsub`, `Fmul` are the residues of the exact results. -/
theorem fieldAddSubMul : Obligations.FieldAddSubMul := by
  unfold Obligations.FieldAddSubMul
  intro s rd ra rb ha hb
  have pass : firstRaise [chkP s ra, chkP s rb] = none := by
    rw [firstRaise_chkP_of_lt ha, firstRaise_chkP_of_lt hb, firstRaise_nil]
  rw [wordMod_add, wordMod_mul]
  refine ⟨?add, ?sub, ?mul⟩
  all_goals exact writes_putNat (wf_of_single_registers (by simp [Instr.spans]) rfl rfl) rfl pass

/-- Settles O17: as for the field commands, with the bound n. -/
theorem scalarAddSubMul : Obligations.ScalarAddSubMul := by
  unfold Obligations.ScalarAddSubMul
  intro s rd ra rb ha hb
  have pass : firstRaise [chkN s ra, chkN s rb] = none := by
    rw [firstRaise_chkN_of_lt ha, firstRaise_chkN_of_lt hb, firstRaise_nil]
  rw [wordMod_add, wordMod_mul]
  refine ⟨?add, ?sub, ?mul⟩
  all_goals exact writes_putNat (wf_of_single_registers (by simp [Instr.spans]) rfl rfl) rfl pass

/-- Settles O18: no operand is checked, and a register's content is below twice either modulus. -/
theorem reductionOfAnyValue : Obligations.ReductionOfAnyValue := by
  unfold Obligations.ReductionOfAnyValue
  intro s rd ra
  have hP : s.xn ra < 2 * P := (xn_lt s ra).trans (by decide)
  have hN : s.xn ra < 2 * N := (xn_lt s ra).trans (by decide)
  rw [← mod_eq_ite_sub hP, ← mod_eq_ite_sub hN]
  refine ⟨?redp, ?redn⟩
  all_goals exact writes_putNat (wf_of_single_registers (by simp [Instr.spans]) rfl rfl) rfl firstRaise_nil

/-- Settles O19: the one check passes; `Fsqr` is the square, and `k` squarings are the power 2^k, reduced. -/
theorem repeatedSquaringIsPower : Obligations.RepeatedSquaringIsPower := by
  unfold Obligations.RepeatedSquaringIsPower
  intro s rd ra k ha
  have pass : firstRaise [chkP s ra] = none := by rw [firstRaise_chkP_of_lt ha, firstRaise_nil]
  rw [pow_two, ← pow2_eq ha]
  refine ⟨?sqrp, ?pow2p⟩
  all_goals exact writes_putNat (wf_of_single_registers (by simp [Instr.spans]) rfl rfl) rfl pass

/-- Settles O13: each relation is one of numerals, decided by computation. -/
theorem curveConstantRelations : Obligations.CurveConstantRelations := by
  unfold Obligations.CurveConstantRelations
  decide

end Sys2Proof.Machine

/-! Inverse, batched inverse and square root (41_inverse_sqrt.md R130 to R135). The commands end as those of field arithmetic
do; what is left is that `invert` gives the one inverse, `invertBatch` the inverse of each element, and the square of SQRTP's
chain is the operand up to the sign that Euler's criterion names. -/

namespace Sys2Proof.Machine

open Sys2Proof.Statement

/-! ### INVP and INVN (R130 to R132) -/

theorem chkInvertible_of_zero {s : State} {i : Nat} (h : s.xn i = 0) (m : Nat) :
    chkInvertible s i m = some { cause := .notInvertible, info := i } := by simp [chkInvertible, h]

/-- An operand prime to the modulus passes. -/
theorem chkInvertible_of_coprime {s : State} {i m : Nat} (h0 : s.xn i ≠ 0) (hg : Nat.gcd (s.xn i) m = 1) :
    chkInvertible s i m = none := by
  rw [chkInvertible_eq_none, ← Bool.not_eq_true, invertFails_iff, not_not]
  exact ⟨h0, hg⟩

theorem mod_eq_one_of_cast {a m : Nat} (hm : 1 < m) (h : (a : ZMod m) = 1) : a % m = 1 := by
  rw [← Nat.cast_one, ZMod.natCast_eq_natCast_iff', Nat.mod_eq_of_lt hm] at h
  exact h

/-- `invert_cast_mul` over the numbers. -/
theorem mul_invert_mod {x m : Nat} (hm : 1 < m) (hg : Nat.gcd x m = 1) : x * invert x m % m = 1 :=
  mod_eq_one_of_cast hm (by rw [Nat.cast_mul, mul_comm, invert_cast_mul (by omega) hg])

theorem invert_pos {x m : Nat} (hm : 1 < m) (hg : Nat.gcd x m = 1) : 1 ≤ invert x m := by
  have hmul := mul_invert_mod hm hg
  by_contra hlt
  simp [show invert x m = 0 by omega] at hmul

/-- Factors below the modulus with equal products cancel, the other factor being prime to it. -/
theorem eq_invert_of_mul_mod {x m q : Nat} (hm : 1 < m) (hg : Nat.gcd x m = 1) (hq : q < m) (h : x * q % m = 1) :
    q = invert x m := by
  have hmul : x * q ≡ x * invert x m [MOD m] := h.trans (mul_invert_mod hm hg).symm
  have hcancel := Nat.ModEq.cancel_left_of_coprime (Nat.gcd_comm x m ▸ hg) hmul
  exact hcancel.eq_of_lt_of_lt hq (invert_lt x (by omega))

section Inversion

/-! What INVP and INVN share: a legal command that checks its operand's range by `c`, then that it is invertible, and writes
the inverse. -/

variable {i : Instr} {s : State} {rd ra : Reg} {m : Nat} {c : Option Raise} (hw : i.wf = true)
  (he : exec i s = s.endCommand [chkLegal i, c, chkInvertible s ra m] (s.putNat rd (invert (s.xn ra) m)))
  (hc : c = none)

include hw he hc

theorem writes_inverse (hm : 1 < m) (h0 : s.xn ra ≠ 0) (hg : Nat.gcd (s.xn ra) m = 1) :
    ∃ r, Writes i s rd [word r] ∧ 1 ≤ r ∧ r < m ∧ s.xn ra * r % m = 1 ∧
      ∀ q, 1 ≤ q → q < m → s.xn ra * q % m = 1 → q = r := by
  have pass : firstRaise [c, chkInvertible s ra m] = none := by
    rw [hc, firstRaise_cons_none, chkInvertible_of_coprime h0 hg, firstRaise_cons_none, firstRaise_nil]
  exact ⟨_, writes_putNat hw he pass, invert_pos hm hg, invert_lt _ (by omega), mul_invert_mod hm hg,
    fun q _ hq hmul => eq_invert_of_mul_mod hm hg hq hmul⟩

theorem faults_of_zero (h0 : s.xn ra = 0) : Faults i s 3 ra := by
  have raised : firstRaise [c, chkInvertible s ra m] = some { cause := .notInvertible, info := ra } := by
    rw [hc, firstRaise_cons_none, chkInvertible_of_zero h0, firstRaise_cons_some]
  exact faults_of_firstRaise hw he raised

end Inversion

/-- Settles O20: P and n are prime, so a nonzero operand in range has a gcd of 1 with the modulus; 0 is in range and fails
the check that follows. -/
theorem inverseIsUnique : Obligations.InverseIsUnique := by
  unfold Obligations.InverseIsUnique
  intro s rd ra
  have hwP : (Instr.invp rd ra).wf = true := wf_of_single_registers (by simp [Instr.spans]) rfl rfl
  have hwN : (Instr.invn rd ra).wf = true := wf_of_single_registers (by simp [Instr.spans]) rfl rfl
  have passP (h : s.xn ra < P) : chkP s ra = none := (chkP_eq_none _).mpr h
  have passN (h : s.xn ra < N) : chkN s ra = none := (chkN_eq_none _).mpr h
  refine ⟨fun h0 h => ?_, fun h => ?_, fun h0 => ?_, fun h0 h => ?_, fun h => ?_, fun h0 => ?_⟩
  · exact writes_inverse hwP rfl (passP h) (by decide) h0 (gcd_P_eq_one h0 h)
  · exact faults_of_firstRaise hwP rfl (firstRaise_chkP_of_le h _)
  · exact faults_of_zero hwP rfl (passP (h0 ▸ P_pos)) h0
  · exact writes_inverse hwN rfl (passN h) (by decide) h0 (gcd_N_eq_one h0 h)
  · exact faults_of_firstRaise hwN rfl (firstRaise_chkN_of_le h _)
  · exact faults_of_zero hwN rfl (passN (h0 ▸ N_pos)) h0

/-! ### BINVP (R133) -/

@[simp] theorem batch_length (s : State) (i len : Nat) : (s.batch i len).length = len := by simp [State.batch]

theorem batch_getElem? (s : State) (i : Nat) {len k : Nat} (hk : k < len) : (s.batch i len)[k]? = some (s.xn (i + k)) := by
  simp [State.batch, hk]

theorem batch_lt {s : State} {i len : Nat} (h : FieldSpan s i len) : ∀ x ∈ s.batch i len, x < P := by
  intro x hx
  obtain ⟨j, hj, rfl⟩ := List.mem_map.mp hx
  exact h j (List.mem_range.mp hj)

/-- Entry `k` of a batched inversion is the inverse of entry `k`, in the field where the inverse of 0 is 0. -/
theorem invertBatch_getElem? [Fact (Nat.Prime P)] {xs : List Nat} (hx : ∀ x ∈ xs, x < P) {k x v : Nat}
    (hxk : xs[k]? = some x) (hv : (invertBatch xs)[k]? = some v) : v < P ∧ (v : ZMod P) = (x : ZMod P)⁻¹ := by
  obtain ⟨hcast, hlt⟩ := invertBatch_cast hx
  have hk := congrArg (fun l => l[k]?) hcast
  simp only [List.getElem?_map, hxk, hv, Option.map_some, Option.some.injEq] at hk
  exact ⟨hlt v (List.mem_of_getElem? hv), hk⟩

/-- Field elements inverse in ZMod P have the product 1. -/
theorem mul_mod_of_cast_eq_inv [Fact (Nat.Prime P)] {x v : Nat} (h0 : x ≠ 0) (hx : x < P)
    (h : (v : ZMod P) = (x : ZMod P)⁻¹) : x * v % P = 1 :=
  mod_eq_one_of_cast (by decide) (by rw [Nat.cast_mul, h, mul_inv_cancel₀ (cast_ne_zero_of_lt h0 hx)])

theorem writes_binvp {s : State} {rd ra : Reg} {n : Imm} (hw : (Instr.binvp rd ra n).wf = true) (h : FieldSpan s ra n) :
    Writes (.binvp rd ra n) s rd ((invertBatch (s.batch ra n)).map word) := by
  obtain ⟨-, hrd, -⟩ := spans_binvp hw
  exact exec_writes rfl (firstRaise_legal hw (chkSpanP_pass h)) (by simpa using hrd)

/-- Settles O21: each entry is the inverse in the field of P elements, where that of 0 is 0. -/
theorem batchInverseElementwise : Obligations.BatchInverseElementwise := by
  unfold Obligations.BatchInverseElementwise
  intro s rd ra n hw hspan
  have _h := P_fact
  have hlen : (invertBatch (s.batch ra n)).length = n.val := by simp
  refine ⟨_, hlen, writes_binvp hw hspan, fun k v hv => ?_⟩
  have hk : k < n.val := hlen ▸ (List.getElem?_eq_some_iff.mp hv).1
  obtain ⟨hvP, hinv⟩ := invertBatch_getElem? (batch_lt hspan) (batch_getElem? s ra hk) hv
  refine ⟨hvP, fun h0 => ?_, fun h0 => mul_mod_of_cast_eq_inv h0 (hspan k hk) hinv⟩
  rw [h0, Nat.cast_zero, inv_zero, cast_eq_zero_iff, Nat.mod_eq_of_lt hvP] at hinv
  exact hinv

/-! ### SQRTP (R134, R135) -/

theorem writes_sqrtp {s : State} {ra : Reg} (h : s.xn ra < P) (rd : Reg) :
    Writes (.sqrtp rd ra) s rd [word (sqrtChain (s.xn ra))] := by
  have pass : firstRaise [chkP s ra] = none := by rw [firstRaise_chkP_of_lt h, firstRaise_nil]
  exact writes_putNat (wf_of_single_registers (by simp [Instr.spans]) rfl rfl) rfl pass

theorem sqrtChain_eq (x : Nat) : sqrtChain x = x ^ ((P + 1) / 4) % P :=
  eq_of_cast_eq (sqrtChain_lt x) (Nat.mod_lt _ P_pos) (by rw [sqrtChain_cast, ZMod.natCast_mod, Nat.cast_pow])

/-- Settles O22: the chain is that power. -/
theorem sqrtChainIsPower : Obligations.SqrtChainIsPower := by
  unfold Obligations.SqrtChainIsPower
  intro s rd ra h
  rw [← sqrtChain_eq]
  exact writes_sqrtp h rd

/-- The square of the chain is x^((P+1)/2), which is the operand times the power of Euler's criterion. -/
theorem sqrtChain_sq_cast (x : Nat) : (sqrtChain x : ZMod P) ^ 2 = x * (x : ZMod P) ^ (P / 2) := by
  rw [sqrtChain_cast, ← pow_mul, ← pow_succ', show (P + 1) / 4 * 2 = P / 2 + 1 by decide]

/-- Being a square in the field of P elements, over the numbers. -/
theorem isSquare_cast_iff {x : Nat} (hx : x < P) : IsSquare (x : ZMod P) ↔ ∃ y, y * y % P = x := by
  have _h := P_fact
  constructor
  · rintro ⟨z, hz⟩
    refine ⟨z.val, eq_of_cast_eq (Nat.mod_lt _ P_pos) hx ?_⟩
    rw [ZMod.natCast_mod, Nat.cast_mul, ZMod.natCast_zmod_val, hz]
  · rintro ⟨y, rfl⟩
    exact ⟨y, by rw [ZMod.natCast_mod, Nat.cast_mul]⟩

section Euler

variable [Fact (Nat.Prime P)]

theorem sqrtChain_sq_of_isSquare {x : Nat} (h : IsSquare (x : ZMod P)) : (sqrtChain x : ZMod P) ^ 2 = x := by
  rw [sqrtChain_sq_cast]
  by_cases h0 : (x : ZMod P) = 0
  · rw [h0, zero_mul]
  · rw [(ZMod.euler_criterion P h0).mp h, mul_one]

theorem sqrtChain_sq_of_not_isSquare {x : Nat} (h : ¬IsSquare (x : ZMod P)) : (sqrtChain x : ZMod P) ^ 2 = -x := by
  have h0 : (x : ZMod P) ≠ 0 := fun h0 => h (h0 ▸ IsSquare.zero)
  have hpow : (x : ZMod P) ^ (P / 2) = -1 :=
    (ZMod.pow_div_two_eq_neg_one_or_one P h0).resolve_left (mt (ZMod.euler_criterion P h0).mpr h)
  rw [sqrtChain_sq_cast, hpow, mul_neg_one]

end Euler

/-- Settles O23: by Euler's criterion the power left beside the operand is 1 or −1 as the operand is a square or not. -/
theorem sqrtOfSquareAndNonSquare : Obligations.SqrtOfSquareAndNonSquare := by
  unfold Obligations.SqrtOfSquareAndNonSquare
  intro s rd ra h
  have _h := P_fact
  refine ⟨_, sqrtChain_lt _, writes_sqrtp h rd, fun hsquare => ?_, fun hnot => ?_⟩
  · have hroot := sqrtChain_sq_of_isSquare ((isSquare_cast_iff h).mpr hsquare)
    refine eq_of_cast_eq (Nat.mod_lt _ P_pos) h ?_
    rw [ZMod.natCast_mod, Nat.cast_mul, ← pow_two, hroot]
  · have hroot := sqrtChain_sq_of_not_isSquare (mt (isSquare_cast_iff h).mp hnot)
    rw [← cast_eq_zero_iff, Nat.cast_add, Nat.cast_mul, ← pow_two, hroot, neg_add_cancel]

end Sys2Proof.Machine

/-! Jacobian points (42_jacobian_point.md R150 to R155). The four commands check a span or two and write the words of the
model's `jdbl`, `jadd`, `jneg` or `jnorm`; what is left is which polynomials these are modulo P, and what they compute in the
group of the curve. -/

namespace Sys2Proof.Machine

open Sys2Proof.Statement

/-! ### Triples in registers (R150, 10_state.md R22) -/

/-- The register contents of a triple. -/
def Jac.words (t : Jac) : List Word := [word t.X, word t.Y, word t.Z]

theorem words_triple (s : State) (i : Nat) : (s.triple i).words = [s.x i, s.x (i + 1), s.x (i + 2)] := by
  simp [Jac.words, State.triple, word]

theorem fieldSpan_triple {s : State} {i : Nat} (h : FieldSpan s i 3) :
    (s.triple i).X < P ∧ (s.triple i).Y < P ∧ (s.triple i).Z < P :=
  ⟨h 0 (by decide), h 1 (by decide), h 2 (by decide)⟩

/-- A command whose spans end at or before r31 is legal once its immediate and its slot are. -/
theorem wf_of_spans {i : Instr} (hs : ∀ p ∈ i.spans, p.1.val + p.2 ≤ 32) (hi : i.immOk = true) (hl : i.slotOk = true) :
    i.wf = true := by
  have hspans : i.spans.all (fun p => fits p.1 p.2) = true :=
    List.all_eq_true.mpr fun p hp => decide_eq_true (hs p hp)
  simp [Instr.wf, Instr.reject, hi, hl, hspans]

/-! ### The writes of the four commands -/

section Writes

variable {s : State} {rd ra rb : Reg}

theorem writes_pdbl (hw : (Instr.pdbl rd ra).wf = true) (ha : FieldSpan s ra 3) :
    Writes (.pdbl rd ra) s rd (jdbl (s.triple ra)).words :=
  exec_writes rfl (firstRaise_legal hw (chkSpanP_pass ha)) (spans_pdbl hw).1

theorem writes_padd (hw : (Instr.padd rd ra rb).wf = true) (ha : FieldSpan s ra 3) (hb : FieldSpan s rb 3) :
    Writes (.padd rd ra rb) s rd (jadd (s.triple ra) (s.triple rb)).words := by
  have pass : ∀ c ∈ chkSpanP s ra 3 ++ chkSpanP s rb 3, c = none :=
    List.forall_mem_append.mpr ⟨chkSpanP_pass ha, chkSpanP_pass hb⟩
  exact exec_writes rfl (firstRaise_legal hw pass) (spans_padd hw).1

theorem writes_pneg (hw : (Instr.pneg rd ra).wf = true) (ha : FieldSpan s ra 3) :
    Writes (.pneg rd ra) s rd (jneg (s.triple ra)).words :=
  exec_writes rfl (firstRaise_legal hw (chkSpanP_pass ha)) (spans_pneg hw).1

theorem writes_pnorm {n : Imm} (hw : (Instr.pnorm rd ra n).wf = true) (ha : FieldSpan s ra (3 * n.val)) :
    Writes (.pnorm rd ra n) s rd ((jnorm (s.triples ra n)).flatMap (fun a => [a.x, a.y])) := by
  obtain ⟨-, hrd, -⟩ := spans_pnorm hw
  refine exec_writes rfl (firstRaise_legal hw (chkSpanP_pass ha)) ?_
  simpa [State.triples, Nat.mul_comm] using hrd

/-- The triple a command has written is in its registers. -/
theorem triple_of_writes {i : Instr} {t : Jac} (h : Writes i s rd t.words) (hx : t.X < P) (hy : t.Y < P) (hz : t.Z < P) :
    ∃ u, exec i s = .next u ∧ Completed s u ∧ u.triple rd = t := by
  obtain ⟨u, hu, hcompleted, -, hwrites⟩ := h
  exact ⟨u, hu, hcompleted, triple_of_writesOnly hx hy hz hwrites⟩

end Writes

/-! ### The formulas, modulo P (R151 to R153) -/

/-- A field element is the residue of every integer it is congruent to. -/
theorem word_eq_wordMod {v : Nat} {a : Int} (hv : v < P) (h : (v : ZMod P) = a) : word v = wordMod a P := by
  rw [wordMod_eq_word_residue, eq_of_cast_eq hv (residue_lt a P_pos) (h.trans (residue_cast a P_pos).symm)]

/-- A triple of field elements congruent to three integers. -/
theorem words_eq_wordMod {t : Jac} {x y z : Int} (hx : t.X < P) (hy : t.Y < P) (hz : t.Z < P) (ex : (t.X : ZMod P) = x)
    (ey : (t.Y : ZMod P) = y) (ez : (t.Z : ZMod P) = z) : t.words = [wordMod x P, wordMod y P, wordMod z P] := by
  rw [Jac.words, word_eq_wordMod hx ex, word_eq_wordMod hy ey, word_eq_wordMod hz ez]

theorem jdbl_lt (t : Jac) : (jdbl t).X < P ∧ (jdbl t).Y < P ∧ (jdbl t).Z < P :=
  ⟨fsub_lt _ _, fsub_lt _ _, fmul_lt _ _⟩

/-- `jdbl` is R151's polynomials over the integers, reduced once. -/
theorem jdbl_words (t : Jac) {D E X' : Int} (hD : D = 2 * ((t.X + t.Y ^ 2) ^ 2 - t.X ^ 2 - t.Y ^ 4)) (hE : E = 3 * t.X ^ 2)
    (hX : X' = E ^ 2 - 2 * D) :
    (jdbl t).words = [wordMod X' P, wordMod (E * (D - X') - 8 * t.Y ^ 4) P, wordMod (2 * t.Y * t.Z) P] := by
  subst hD hE hX
  obtain ⟨hx, hy, hz⟩ := jdbl_lt t
  refine words_eq_wordMod hx hy hz ?_ ?_ ?_
  all_goals
    simp only [jdbl, fsub_cast, fadd_cast, fmul_cast, fsqr_cast, Nat.cast_ofNat]
    push_cast
    ring

/-- Settles O24: PDBL writes `jdbl` of the triple. -/
theorem doublingFormula : Obligations.DoublingFormula := by
  unfold Obligations.DoublingFormula
  rintro s rd ra hw ha X Y Z D E X' rfl rfl rfl hD hE hX
  have formula := jdbl_words (s.triple ra) hD hE hX
  exact formula ▸ writes_pdbl hw ha

section Addition

variable {p q : Jac}

theorem jadd_of_snd_zero (hq : q.X = 0 ∨ q.Y = 0) : jadd p q = p := if_pos hq

theorem jadd_of_fst_zero (hq : ¬(q.X = 0 ∨ q.Y = 0)) (hp : p.X = 0 ∨ p.Y = 0) : jadd p q = q := by
  rw [jadd, if_neg hq, if_pos hp]

/-- `H` of `jadd`: 0 where the two triples have the same x. -/
def addH (p q : Jac) : Nat := fsub (fmul q.X (fsqr p.Z)) (fmul p.X (fsqr q.Z))

/-- `r` of `jadd`: 0 where the two triples have the same y. -/
def addR (p q : Jac) : Nat := fsub (fmul (fmul q.Y p.Z) (fsqr p.Z)) (fmul (fmul p.Y q.Z) (fsqr q.Z))

theorem addH_cast {U1 H : Int} (hU : U1 = p.X * q.Z ^ 2) (hH : H = q.X * p.Z ^ 2 - U1) : (addH p q : ZMod P) = H := by
  subst hU hH
  simp [addH]

theorem addR_cast {S1 r : Int} (hS : S1 = p.Y * q.Z ^ 3) (hr : r = q.Y * p.Z ^ 3 - S1) : (addR p q : ZMod P) = r := by
  subst hS hr
  simp only [addR, fsub_cast, fmul_cast, fsqr_cast]
  push_cast
  ring

/-- A field element congruent to an integer is 0 exactly where the integer's residue is. -/
theorem eq_zero_iff_emod {v : Nat} {a : Int} (hv : v < P) (h : (v : ZMod P) = a) : v = 0 ↔ a % P = 0 := by
  rw [← Int.dvd_iff_emod_eq_zero, ← ZMod.intCast_zmod_eq_zero_iff_dvd, ← h, cast_eq_zero_iff, Nat.mod_eq_of_lt hv]

variable (hp : ¬(p.X = 0 ∨ p.Y = 0)) (hq : ¬(q.X = 0 ∨ q.Y = 0))

include hp hq

theorem jadd_eq_jdbl (hH : addH p q = 0) (hr : addR p q = 0) : jadd p q = jdbl p := by
  rw [addH] at hH
  rw [addR] at hr
  simp only [jadd, if_neg hq, if_neg hp, if_pos hH, if_pos hr]

theorem jadd_eq_jzero (hH : addH p q = 0) (hr : addR p q ≠ 0) : jadd p q = jzero := by
  rw [addH] at hH
  rw [addR] at hr
  simp only [jadd, if_neg hq, if_neg hp, if_pos hH, if_neg hr]

/-- `jadd` is R152's polynomials over the integers, reduced once. -/
theorem jadd_words (lt : (jadd p q).X < P ∧ (jadd p q).Y < P ∧ (jadd p q).Z < P) (hH0 : addH p q ≠ 0)
    {U1 S1 H r X3 : Int} (hU : U1 = p.X * q.Z ^ 2) (hS : S1 = p.Y * q.Z ^ 3) (hH : H = q.X * p.Z ^ 2 - U1)
    (hr : r = q.Y * p.Z ^ 3 - S1) (hX : X3 = r ^ 2 - H ^ 3 - 2 * (U1 * H ^ 2)) :
    (jadd p q).words = [wordMod X3 P, wordMod (r * (U1 * H ^ 2 - X3) - S1 * H ^ 3) P, wordMod (p.Z * q.Z * H) P] := by
  obtain ⟨hx, hy, hz⟩ := lt
  subst hX hr hH hS hU
  rw [addH] at hH0
  refine words_eq_wordMod hx hy hz ?_ ?_ ?_
  all_goals
    simp only [jadd, if_neg hq, if_neg hp, if_neg hH0, fsub_cast, fmul_cast, fsqr_cast, Nat.cast_ofNat]
    push_cast
    ring

end Addition

theorem jadd_lt_of_fieldSpan {s : State} {i j : Nat} (hi : FieldSpan s i 3) (hj : FieldSpan s j 3) :
    (jadd (s.triple i) (s.triple j)).X < P ∧ (jadd (s.triple i) (s.triple j)).Y < P ∧
      (jadd (s.triple i) (s.triple j)).Z < P := by
  obtain ⟨px, py, pz⟩ := fieldSpan_triple hi
  obtain ⟨qx, qy, qz⟩ := fieldSpan_triple hj
  exact jadd_lt px py pz qx qy qz

/-- Settles O25: the two tests of `jadd`, the second operand's first. -/
theorem additionIdentityCopies : Obligations.AdditionIdentityCopies := by
  unfold Obligations.AdditionIdentityCopies
  intro s rd ra rb hw ha hb
  have hwrites := writes_padd hw ha hb
  refine ⟨fun hzero => ?_, fun hx hy hzero => ?_⟩
  · rwa [jadd_of_snd_zero hzero, words_triple] at hwrites
  · rwa [jadd_of_fst_zero (not_or.mpr ⟨hx, hy⟩) hzero, words_triple] at hwrites

/-- Settles O26: `H` and `r` of `jadd` are R152's modulo P, and decide its three ways on. -/
theorem additionFormula : Obligations.AdditionFormula := by
  unfold Obligations.AdditionFormula
  rintro s rd ra rb hw ha hb hx1 hy1 hx2 hy2 X1 Y1 Z1 X2 Y2 Z2 U1 S1 H r X3 rfl rfl rfl rfl rfl rfl hU hS hH hr hX
  have hp : ¬((s.triple ra).X = 0 ∨ (s.triple ra).Y = 0) := not_or.mpr ⟨hx1, hy1⟩
  have hq : ¬((s.triple rb).X = 0 ∨ (s.triple rb).Y = 0) := not_or.mpr ⟨hx2, hy2⟩
  have hwrites := writes_padd hw ha hb
  have zeroH : addH (s.triple ra) (s.triple rb) = 0 ↔ H % P = 0 := eq_zero_iff_emod (fsub_lt _ _) (addH_cast hU hH)
  have zeroR : addR (s.triple ra) (s.triple rb) = 0 ↔ r % P = 0 := eq_zero_iff_emod (fsub_lt _ _) (addR_cast hS hr)
  refine ⟨fun hH0 => ?_, fun hH0 hr0 => ?_, fun hH0 hr0 => ⟨_, rfl, ?_⟩⟩
  · have formula := jadd_words hp hq (jadd_lt_of_fieldSpan ha hb) (mt zeroH.mp hH0) hU hS hH hr hX
    exact formula ▸ hwrites
  · rwa [jadd_eq_jzero hp hq (zeroH.mpr hH0) (mt zeroR.mp hr0)] at hwrites
  · rwa [jadd_eq_jdbl hp hq (zeroH.mpr hH0) (zeroR.mpr hr0)] at hwrites

theorem fneg_eq {a : Nat} (h : a < P) : fneg a = if a = 0 then 0 else P - a := by
  split
  · next h0 => rw [h0]; rfl
  · next h0 => exact eq_of_cast_eq (fneg_lt a) (by omega) (by simp [Nat.cast_sub h.le])

/-- Settles O27: `Fneg` of a nonzero field element is P less it; of the triple's checks the lowest that raises is taken. -/
theorem negationFormula : Obligations.NegationFormula := by
  unfold Obligations.NegationFormula
  intro s rd ra hw
  refine ⟨fun ha => ?_, fun j hj hlow hP => ?_⟩
  · have hwrites := writes_pneg hw ha
    have hneg : fneg (s.xn (ra.val + 1)) = _ := fneg_eq (ha 1 (by decide))
    rw [Jac.words, jneg] at hwrites
    simpa [State.triple, word, hneg] using hwrites
  · have raised := firstRaise_chkSpanP hj hlow hP []
    rw [List.append_nil] at raised
    exact faults_of_firstRaise hw rfl raised

/-! ### Normalisation (R154) -/

theorem triples_length (s : State) (i len : Nat) : (s.triples i len).length = len := by simp [State.triples]

theorem triples_getElem? (s : State) (i : Nat) {len k : Nat} (hk : k < len) :
    (s.triples i len)[k]? = some (s.triple (i + 3 * k)) := by
  simp [State.triples, hk]

/-- The triple scaled by 0, which is what the batched inversion gives for Z = 0. -/
theorem jscale_zero (t : Jac) : jscale t 0 = ⟨0, 0⟩ := by simp [jscale, fsqr, fmul]

theorem jscale_eq (t : Jac) (z : Nat) : jscale t z = ⟨word (t.X * z ^ 2 % P), word (t.Y * z ^ 3 % P)⟩ := by
  have hx : fmul t.X (fsqr z) = t.X * z ^ 2 % P :=
    eq_of_cast_eq (fmul_lt _ _) (Nat.mod_lt _ P_pos) (by simp)
  have hy : fmul t.Y (fmul (fsqr z) z) = t.Y * z ^ 3 % P :=
    eq_of_cast_eq (fmul_lt _ _) (Nat.mod_lt _ P_pos) (by simp [← pow_succ])
  simp only [jscale, hx, hy]
  rfl

/-- In the field of P elements the inverse of 0 is 0. -/
theorem eq_zero_of_inv [Fact (Nat.Prime P)] {z v : Nat} (hz : z < P) (h : (z : ZMod P) = (v : ZMod P)⁻¹) (h0 : v = 0) :
    z = 0 := by
  rw [h0, Nat.cast_zero, inv_zero, cast_eq_zero_iff, Nat.mod_eq_of_lt hz] at h
  exact h

/-- Settles O28: entry k is triple k scaled by the inverse of its Z, which is 0 where Z is. -/
theorem normalisationElementwise : Obligations.NormalisationElementwise := by
  unfold Obligations.NormalisationElementwise
  intro s rd ra n hw hspan
  have _h := P_fact
  have hlen : (jnorm (s.triples ra n)).length = n.val := by rw [jnorm_length, triples_length]
  refine ⟨_, hlen, writes_pnorm hw hspan, fun k a ha => ?_⟩
  have hk : k < n.val := hlen ▸ (List.getElem?_eq_some_iff.mp ha).1
  have hZ : ∀ t ∈ s.triples ra n, t.Z < P := by
    intro t ht
    obtain ⟨j, hj, rfl⟩ := List.mem_map.mp ht
    have hj' := List.mem_range.mp hj
    exact hspan (3 * j + 2) (by omega)
  obtain ⟨z, hzP, hinv, hz⟩ := jnorm_getElem? hZ (triples_getElem? s ra hk)
  obtain rfl : jscale (s.triple (ra.val + 3 * k)) z = a := Option.some.inj (hz.symm.trans ha)
  refine ⟨fun h0 => ?_, fun h0 => ⟨z, hzP, ?_, ?_, ?_⟩⟩
  · rw [eq_zero_of_inv hzP hinv h0, jscale_zero]
    exact ⟨rfl, rfl⟩
  · exact mul_mod_of_cast_eq_inv h0 (hspan (3 * k + 2) (by omega)) hinv
  · rw [jscale_eq]; rfl
  · rw [jscale_eq]; rfl

/-! ### The group of the curve (R150, R155) -/

/-- The spans of PDBL and PNEG are among those of PADD. -/
theorem wf_of_padd {rd ra rb : Reg} (h : (Instr.padd rd ra rb).wf = true) :
    (Instr.pdbl rd ra).wf = true ∧ (Instr.pneg rd ra).wf = true := by
  obtain ⟨hrd, hra, -⟩ := spans_padd h
  exact ⟨wf_of_spans (by simp [Instr.spans, hrd, hra]) rfl rfl, wf_of_spans (by simp [Instr.spans, hrd, hra]) rfl rfl⟩

theorem stands_zero_of_Z {t : Jac} (h : t.Z = 0) : Stands t 0 := by
  show t.Z % P = 0
  rw [h, Nat.zero_mod]

/-- Settles O29: the registers hold `jadd`, `jdbl` and `jneg` of the triples, which compute in the group. -/
theorem pointCommandsAreGroupLaw : Obligations.PointCommandsAreGroupLaw := by
  unfold Obligations.PointCommandsAreGroupLaw
  intro _ s rd ra rb hw ha hb A B hA hB
  obtain ⟨px, py, pz⟩ := fieldSpan_triple ha
  obtain ⟨qx, qy, qz⟩ := fieldSpan_triple hb
  obtain ⟨hwDouble, hwNegate⟩ := wf_of_padd hw
  refine ⟨?padd, ?pdbl, ?pneg⟩
  case padd =>
    obtain ⟨t, ht, hc, htriple⟩ := exec_padd_next hw ha hb
    refine ⟨t, ht, hc, ?_⟩
    rw [htriple]
    exact ⟨jadd_stands px py pz qx qy qz hA hB,
      fun hlost => stands_zero_of_Z (jadd_lost px py pz qx qy qz hA hB hlost),
      jadd_identityX px py pz qx qy qz hA hB⟩
  case pdbl =>
    obtain ⟨lx, ly, lz⟩ := jdbl_lt (s.triple ra)
    obtain ⟨t, ht, hc, htriple⟩ := triple_of_writes (writes_pdbl hwDouble ha) lx ly lz
    refine ⟨t, ht, hc, ?_⟩
    rw [htriple]
    exact ⟨jdbl_stands px py pz hA, fun hX => (jdbl_rep ⟨px, py, pz, hA, hX⟩).identityX⟩
  case pneg =>
    obtain ⟨t, ht, hc, htriple⟩ := triple_of_writes (writes_pneg hwNegate ha) px (fneg_lt _) pz
    refine ⟨t, ht, hc, ?_⟩
    rw [htriple]
    exact ⟨jneg_stands px py pz hA, fun hX => (jneg_rep ⟨px, py, pz, hA, hX⟩).identityX⟩

/-! ### The normal form of a point (R154) -/

/-- The pair that PNORM gives a triple of the point: the point's own coordinates, (0, 0) for the identity. -/
structure NormalForm (a : Affine) (A : curve.Point) : Prop where
  lt : a.x.toNat < P ∧ a.y.toNat < P
  stands : A ≠ 0 → Stands (lift a) A
  zero : A = 0 → a = ⟨0, 0⟩

section NormalForm

variable [Fact (Nat.Prime P)] {a b : Affine} {A B : curve.Point}

/-- No point of the curve has the coordinates (0, 0). -/
theorem NormalForm.eq_zero_iff (h : NormalForm a A) : a = ⟨0, 0⟩ ↔ A = 0 := by
  refine ⟨fun ha => ?_, h.zero⟩
  by_contra h0
  have hrep : Rep (lift a) A := rep_of_ne h.lt.1 h.lt.2 (show 1 < P by decide) (h.stands h0) h0
  obtain ⟨x, y, hn, rfl⟩ := (point_cases A).resolve_left h0
  exact hrep.x_ne_zero (by rw [ha]; rfl)

/-- The normal form names the point. -/
theorem NormalForm.eq_iff (ha : NormalForm a A) (hb : NormalForm b B) : a = b ↔ A = B := by
  constructor
  · rintro rfl
    by_cases hA : A = 0
    · rw [hA, hb.eq_zero_iff.mp (ha.zero hA)]
    · have hB : B ≠ 0 := mt hb.eq_zero_iff.mpr (mt ha.eq_zero_iff.mp hA)
      exact stands_unique (ha.stands hA) (hb.stands hB)
  · rintro rfl
    by_cases hA : A = 0
    · rw [ha.zero hA, hb.zero hA]
    · exact stands_lift_inj ha.lt hb.lt (ha.stands hA) (hb.stands hA)

/-- A triple of field elements scaled by the inverse of its Z is the normal form of its point. -/
theorem jscale_normalForm {t : Jac} {z : Nat} (hx : t.X < P) (hy : t.Y < P) (hz : t.Z < P) (hA : Stands t A) (hzP : z < P)
    (hinv : (z : ZMod P) = (t.Z : ZMod P)⁻¹) : NormalForm (jscale t z) A where
  lt := jscale_lt t z
  stands h0 := (jscale_rep (rep_of_ne hx hy hz hA h0) h0 hinv).stands
  zero h0 := by
    subst h0
    rw [eq_zero_of_inv hzP hinv (eq_zero_of hA hz), jscale_zero]

/-- PNORM of one triple of a point writes the normal form of the point. -/
theorem writes_normalForm {s : State} {rd ra : Reg} (hw : (Instr.pnorm rd ra 1).wf = true) (h : FieldSpan s ra 3)
    (hA : Stands (s.triple ra) A) : ∃ a, Writes (.pnorm rd ra 1) s rd [a.x, a.y] ∧ NormalForm a A := by
  obtain ⟨hx, hy, hz⟩ := fieldSpan_triple h
  obtain ⟨z, hzP, hinv, hget⟩ := jnorm_getElem? (ts := [s.triple ra]) (by simpa using hz) (k := 0) rfl
  have hone : jnorm [s.triple ra] = [jscale (s.triple ra) z] := by
    obtain ⟨a, ha⟩ := List.length_eq_one_iff.mp (jnorm_length [s.triple ra])
    rw [ha] at hget ⊢
    rw [Option.some.inj hget]
  refine ⟨_, ?_, jscale_normalForm hx hy hz hA hzP hinv⟩
  have hwrites := writes_pnorm hw h
  have htriples : s.triples ra (1 : Imm).val = [s.triple ra] := by
    show s.triples ra 1 = _
    simp [State.triples]
  rwa [htriples, hone] at hwrites

end NormalForm

/-- Settles O30: both pairs are normal forms of their points. -/
theorem normalFormIsCanonical : Obligations.NormalFormIsCanonical := by
  unfold Obligations.NormalFormIsCanonical
  intro _ s rd ra rb hwa hwb ha hb A B hA hB
  obtain ⟨a, hwritesA, hnormA⟩ := writes_normalForm hwa ha hA
  obtain ⟨b, hwritesB, hnormB⟩ := writes_normalForm hwb hb hB
  exact ⟨a, b, hwritesA, hwritesB, hnormA.stands, hnormA.zero, hnormA.eq_iff hnormB⟩

end Sys2Proof.Machine

/-! The faults of scalar multiplication and of the cache, and the commands that manage the cache (43_scalar_mult.md R172, R175
to R180). Each command lists its checks in the order of 60_exceptions.md R222; a slot check depends on NSLOT and on the slot,
never on a register. -/

namespace Sys2Proof.Machine

open Sys2Proof.Statement

/-! ### The checks that raise (R172, R175, R177 to R180) -/

theorem firstRaise_chkScalar_of_bad {s : State} {i : Nat} (h : s.xn i = 0 ∨ N ≤ s.xn i) (cs : List (Option Raise)) :
    firstRaise (chkScalar s i :: cs) = some { cause := .scalarRange, info := i } := by
  rw [chkScalar_of_bad h, firstRaise_cons_some]

section SlotChecks

variable {s : State} {i : Nat}

theorem firstRaise_chkSlot_of_le (h : s.nslot ≤ i) (cs : List (Option Raise)) :
    firstRaise (chkSlot s i :: cs) = some { cause := .slotInvalid, info := i } := by
  rw [chkSlot, if_pos h, firstRaise_cons_some]

theorem firstRaise_chkSlot_of_lt (h : i < s.nslot) (cs : List (Option Raise)) :
    firstRaise (chkSlot s i :: cs) = firstRaise cs := by
  rw [(chkSlot_eq_none i).mpr h, firstRaise_cons_none]

theorem firstRaise_chkAnchored_of_bad (h : s.nslot ≤ i ∨ (s.slot i).avalid = false) (cs : List (Option Raise)) :
    firstRaise (chkAnchored s i :: cs) = some { cause := .slotInvalid, info := i } := by
  rw [chkAnchored, if_pos h, firstRaise_cons_some]

theorem firstRaise_chkAnchored_of_bound (h : i < s.nslot) (ha : (s.slot i).avalid = true) (cs : List (Option Raise)) :
    firstRaise (chkAnchored s i :: cs) = firstRaise cs := by
  rw [(chkAnchored_eq_none i).mpr ⟨h, ha⟩, firstRaise_cons_none]

theorem firstRaise_chkTable_of_bad (h : s.nslot ≤ i ∨ (s.slot i).win.tvalid = false) (cs : List (Option Raise)) :
    firstRaise (chkTable s i :: cs) = some { cause := .slotInvalid, info := i } := by
  rw [chkTable, if_pos h, firstRaise_cons_some]

end SlotChecks

/-- The admission test of SETANCH, with the powers written out (R177). -/
theorem onCurve_iff (x y : Nat) : onCurve x y = true ↔ y ^ 2 % P = (x ^ 3 + 7) % P := by
  rw [onCurve, decide_eq_true_iff, pow_two, pow_succ x, pow_two, B7]

theorem wf_setw (slot : SlotIx) (w : WSize) : (Instr.setw slot w).wf = true :=
  wf_of_single_registers (by simp [Instr.spans]) rfl rfl

/-! ### The family's faults -/

/-- Settles O44: the checks of slot and point that come before the scalar's pass. -/
theorem scalarOutOfRange : Obligations.ScalarOutOfRange := by
  unfold Obligations.ScalarOutOfRange
  intro s rd ra rb slot hbad
  have raised := firstRaise_chkScalar_of_bad hbad
  refine ⟨fun hw => ?glvsplit, fun hw hslot havalid => ?smul, fun hw hspan => ?smulu⟩
  case glvsplit => exact faults_of_firstRaise hw rfl (raised _)
  case smul =>
    have afterSlot := (firstRaise_chkAnchored_of_bound hslot havalid _).trans (raised [chkGlv s ra])
    exact faults_of_firstRaise hw rfl afterSlot
  case smulu =>
    have afterPoint := (firstRaise_append_of_none (chkSpanP_pass hspan) _).trans (raised [])
    exact faults_of_firstRaise hw rfl afterPoint

/-- Settles O45: the slot's check is the first after the legality check in all four commands. -/
theorem slotNotUsable : Obligations.SlotNotUsable := by
  unfold Obligations.SlotNotUsable
  intro s rd ra slot w
  refine ⟨fun hslot => ⟨fun hw => ?smul, fun hw => ?setanch, ?setw, fun hw => ?tblrd⟩,
    fun hslot => ⟨fun hw havalid => ?unbound, fun hw htvalid => ?noTable⟩⟩
  case smul => exact faults_of_firstRaise hw rfl (firstRaise_chkAnchored_of_bad (.inl hslot) _)
  case setanch => exact faults_of_firstRaise hw rfl (firstRaise_chkSlot_of_le hslot _)
  case setw => exact faults_of_firstRaise (wf_setw slot w) rfl (firstRaise_chkSlot_of_le hslot _)
  case tblrd => exact faults_of_firstRaise hw rfl (firstRaise_chkTable_of_bad (.inl hslot) _)
  case unbound => exact faults_of_firstRaise hw rfl (firstRaise_chkAnchored_of_bad (.inr havalid) _)
  case noTable => exact faults_of_firstRaise hw rfl (firstRaise_chkTable_of_bad (.inr htvalid) _)

/-- Settles O46: SETANCH checks slot, x, y and then the curve; TBLRD compares the index after its slot's check passed. -/
theorem cacheOperandFaults : Obligations.CacheOperandFaults := by
  unfold Obligations.CacheOperandFaults
  intro s rd ra slot hslot
  refine ⟨fun hw => ⟨fun hx => ?x, fun hx hy => ?y, fun hx hy hcurve => ?curve⟩, fun hw htvalid hentry => ?tblrd⟩
  case x =>
    have raised := (firstRaise_chkSlot_of_lt hslot _).trans
      (firstRaise_chkP_of_le hx [chkP s (ra.val + 1), chkOnCurve s ra])
    exact faults_of_firstRaise hw rfl raised
  case y =>
    have raised := (firstRaise_chkSlot_of_lt hslot _).trans
      ((firstRaise_chkP_of_lt hx _).trans (firstRaise_chkP_of_le hy [chkOnCurve s ra]))
    exact faults_of_firstRaise hw rfl raised
  case curve =>
    have hoff : chkOnCurve s ra = some { cause := .notOnCurve, info := ra } := if_neg (mt (onCurve_iff _ _).mp hcurve)
    have raised : firstRaise [chkSlot s slot, chkP s ra, chkP s (ra.val + 1), chkOnCurve s ra] =
        some { cause := .notOnCurve, info := ra } := by
      rw [firstRaise_chkSlot_of_lt hslot, firstRaise_chkP_of_lt hx, firstRaise_chkP_of_lt hy, hoff, firstRaise_cons_some]
    exact faults_of_firstRaise hw rfl raised
  case tblrd =>
    have htable : chkTable s slot = none := (chkTable_eq_none _).mpr ⟨hslot, htvalid⟩
    have hpast : chkEntry s ra slot = some { cause := .operandRange, info := ra } := if_pos hentry
    have raised : firstRaise [chkTable s slot, chkEntry s ra slot] = some { cause := .operandRange, info := ra } := by
      rw [htable, firstRaise_cons_none, hpast, firstRaise_cons_some]
    exact faults_of_firstRaise hw rfl raised

/-! ### What a command leaves of the slots -/

/-- Slots are untouched by what touches neither slot 0's window nor the free slots. -/
theorem otherSlotsSame_congr {s t u : State} {i : Nat} (hu : SlotsSame t u) (h : OtherSlotsSame s t i) :
    OtherSlotsSame s u i :=
  ⟨(nslot_congr hu).trans h.1, fun j hj => (slot_congr hu j).trans (h.2 j hj)⟩

theorem otherSlotsSame_setWindow {s : State} {i : Nat} (hi : i < s.nslot) (win : Window) :
    OtherSlotsSame s (s.setWindow i win) i :=
  ⟨nslot_setWindow s i win, fun j hj => by rw [slot_setWindow s i j win hi, if_neg hj]⟩

theorem otherSlotsSame_bindSlot {s : State} {i : Nat} (h0 : i ≠ 0) (hi : i < s.nslot) (a : Affine) :
    OtherSlotsSame s (s.bindSlot i a) i :=
  ⟨nslot_bindSlot s i a, fun j hj => by rw [slot_bindSlot s i j a h0 hi, if_neg hj]⟩

theorem slotsSame_complete (s : State) : SlotsSame s s.complete := ⟨rfl, rfl⟩

/-! ### The commands that manage the cache -/

/-- Settles O38: SETANCH completes with `State.bindSlot`. -/
theorem setanchBindsSlot : Obligations.SetanchBindsSlot := by
  unfold Obligations.SetanchBindsSlot
  intro s ra slot hw hslot hx hy hcurve
  obtain ⟨hslot0, -⟩ := spans_setanch hw
  have pass : firstRaise
      [chkLegal (.setanch ra slot), chkSlot s slot, chkP s ra, chkP s (ra.val + 1), chkOnCurve s ra] = none :=
    firstRaise_legal hw (by simp [hslot, hx, hy, onCurve_iff, hcurve])
  have hslots := slotsSame_complete (s.bindSlot slot (s.pair ra))
  refine ⟨_, endCommand_of_none pass _, by simp [Completed, Untouched], by simp,
    otherSlotsSame_congr hslots (otherSlotsSame_bindSlot hslot0 hslot _), ?_⟩
  rw [slot_congr hslots, slot_bindSlot s slot slot _ hslot0 hslot, if_pos rfl]
  exact ⟨rfl, rfl, rfl, rfl⟩

/-- Settles O39: SETW completes with `State.resizeSlot`. -/
theorem setwResizesSlot : Obligations.SetwResizesSlot := by
  unfold Obligations.SetwResizesSlot
  intro s slot w hslot
  have pass : firstRaise [chkLegal (.setw slot w), chkSlot s slot] = none :=
    firstRaise_legal (wf_setw slot w) (by simp [hslot])
  have hslots := slotsSame_complete (s.resizeSlot slot w)
  refine ⟨_, endCommand_of_none pass _, by simp [Completed, Untouched], by simp,
    otherSlotsSame_congr hslots (otherSlotsSame_setWindow hslot _), ?_⟩
  rw [slot_congr hslots, State.resizeSlot, slot_setWindow s slot slot _ hslot, if_pos rfl]
  exact ⟨rfl, rfl, rfl, rfl⟩

/-- A pair of field elements that stands for a point stands for one other than the identity, its third coordinate being 1
(42_jacobian_point.md R150). -/
theorem rep_lift_of_stands {a : Affine} {A : curve.Point} (hx : a.x.toNat < P) (hy : a.y.toNat < P) (h : Stands (lift a) A) :
    Rep (lift a) A ∧ A ≠ 0 := by
  have h0 : A ≠ 0 := by
    rintro rfl
    exact absurd h (show ¬1 % P = 0 by decide)
  exact ⟨rep_of_ne hx hy (show 1 < P by decide) h h0, h0⟩

/-- A computed table has every entry that its window size counts (R173, 10_state.md R36). -/
theorem storedTable_getElem? (a : Affine) (w : WSize) {e : Nat} (he : e < entriesOf w) :
    (storedTable a w)[e]? = some (tableEntry (storedTable a w) e) := by
  have hget : (storedTable a w)[e]? = some ((storedTable a w)[e]'(by simpa using he)) := List.getElem?_eq_getElem _
  rw [tableEntry, hget]

/-- Settles O40: the entry of a table as the invariant has it is one of `storedTable_rep`. -/
theorem tblrdReadsEntry : Obligations.TblrdReadsEntry := by
  unfold Obligations.TblrdReadsEntry
  intro s rd ra slot hw hslot htvalid hlt
  have hentry : s.xn ra < entriesOf (s.slot slot).win.w := hlt
  have pass : firstRaise [chkLegal (.tblrd rd ra slot), chkTable s slot, chkEntry s ra slot] = none :=
    firstRaise_legal hw (by simp [hslot, htvalid, hentry])
  refine ⟨tableEntry (s.slot slot).win.table (s.xn ra), exec_writes rfl pass (spans_tblrd hw),
    fun b hb => by rw [tableEntry, hb], fun hok => ?_⟩
  obtain ⟨havalid, -, htable⟩ := hok.2.1 htvalid
  obtain ⟨hx, hy, -⟩ := hok.1 havalid
  have hget := storedTable_getElem? (s.slot slot).anchor _ hentry
  obtain ⟨lx, ly⟩ := jnorm_lt (List.mem_of_getElem? hget)
  rw [htable]
  refine ⟨hget, lx, ly, fun A hA i j hij hj => ?_⟩
  obtain ⟨hrep, h0⟩ := rep_lift_of_stands hx hy hA
  have hi : i < windowsOf (s.slot slot).win.w := by
    have hbound : i * halfOf (s.slot slot).win.w < windowsOf (s.slot slot).win.w * halfOf (s.slot slot).win.w :=
      (Nat.le_add_right _ j).trans_lt (hij ▸ hentry)
    exact Nat.lt_of_mul_lt_mul_right hbound
  rw [hij]
  exact (storedTable_rep hrep h0 (s.slot slot).win.w i j hi hj).stands

end Sys2Proof.Machine

/-! The GLV split and the digits of a scalar (43_scalar_mult.md R171, R172, R174). -/

namespace Sys2Proof.Machine

open Sys2Proof.Statement

/-! ### The GLV split (R171, R172) -/

theorem halfSign_eq (r : Nat) :
    halfSign r = (if decide (r > 2 ^ 128) = true then N - r else r, decide (r > 2 ^ 128)) := by
  have hPow : Pow128 = 2 ^ 128 := by decide
  rw [halfSign, hPow]
  split
  · next h => rw [decide_eq_true h, if_pos rfl]
  · next h => rw [decide_eq_false h, if_neg Bool.false_ne_true]

/-- A natural number that is the least nonnegative residue of an integer. -/
theorem residue_eq {a : Int} {m r : Nat} (hm : 0 < m) (h : (r : Int) = a % m) : residue a m = r :=
  Int.ofNat_inj.mp ((residue_cast_int a hm).trans h.symm)

/-- `glvsplit` is R171's formula. -/
theorem glvSplit_eq_ofHalves {k c1 c2 r1 r2 : Nat} (hc1 : c1 = (B2 * k + N / 2) / N) (hc2 : c2 = (NB1 * k + N / 2) / N)
    (hr1 : (r1 : Int) = ((k : Int) - c1 * A1 - c2 * A2) % (N : Int))
    (hr2 : (r2 : Int) = ((c1 : Int) * NB1 - c2 * B2) % (N : Int)) :
    glvSplit k = Split.ofHalves (halfSign r1) (halfSign r2) := by
  have h1 : roundDivN (B2 * k) = c1 := by rw [roundDivN, Nat.add_comm, hc1]
  have h2 : roundDivN (NB1 * k) = c2 := by rw [roundDivN, Nat.add_comm, hc2]
  have half1 : residue ((k : Int) - A1 * c1 - A2 * c2) N = r1 := residue_eq N_pos (by rw [hr1]; ring_nf)
  have half2 : residue ((NB1 : Int) * c1 - B2 * c2) N = r2 := residue_eq N_pos (by rw [hr2]; ring_nf)
  rw [glvSplit_eq, h1, h2, half1, half2]

theorem writes_glvsplit {s : State} {rd ra : Reg} (hw : (Instr.glvsplit rd ra).wf = true) (h0 : s.xn ra ≠ 0)
    (hN : s.xn ra < N) : Writes (.glvsplit rd ra) s rd
      [word (glvSplit (s.xn ra)).k1, word (glvSplit (s.xn ra)).k2, word (glvSplit (s.xn ra)).signs] := by
  obtain ⟨hfits, -⟩ := glvSplit_spec (k := s.xn ra)
  have pass : firstRaise [chkLegal (.glvsplit rd ra), chkScalar s ra, chkGlv s ra] = none :=
    firstRaise_legal hw (by simp [h0, hN, hfits])
  exact exec_writes rfl pass (spans_glvsplit hw)

/-- Settles O31: `glvSplit_spec`, with the split written as R171's formula. -/
theorem glvSplitIsExact : Obligations.GlvSplitIsExact := by
  unfold Obligations.GlvSplitIsExact
  rintro s rd ra hw h0 hN c1 c2 r1 r2 k1 k2 e1 e2 hc1 hc2 hr1 hr2 rfl rfl rfl rfl
  have hwrites := writes_glvsplit hw h0 hN
  have hspec := glvSplit_spec (k := s.xn ra)
  rw [glvSplit_eq_ofHalves hc1 hc2 hr1 hr2, halfSign_eq, halfSign_eq] at hwrites hspec
  obtain ⟨-, hk1, hk2, hsum⟩ := hspec
  exact ⟨hwrites, hk1, hk2, hsum⟩

/-! ### The digits of a scalar (R174) -/

section Digits

variable (w : WSize)

theorem digits_rest (count m : Nat) : (digits w count m).2 = wnafRest w count m := by
  induction count generalizing m with
  | zero => rfl
  | succ count ih => exact ih _

/-- The digits stand for what has been taken off the scalar. -/
theorem digitSum_digits (count m : Nat) :
    digitSum w (digits w count m).1 = (m : Int) - 2 ^ (w.val * count) * wnafRest w count m := by
  induction count generalizing m with
  | zero => simp [digits, digitSum, wnafRest]
  | succ count ih =>
    obtain ⟨hm, -, -⟩ := wnafDigit_spec w m
    rw [digits, digitSum, ih, wnafRest, Nat.mul_succ, pow_add]
    linear_combination -hm

theorem digits_range (count m : Nat) : ∀ d ∈ (digits w count m).1, -(halfOf w : Int) < d ∧ d ≤ (halfOf w : Int) := by
  induction count generalizing m with
  | zero => simp [digits]
  | succ count ih =>
    obtain ⟨-, hlow, hhigh⟩ := wnafDigit_spec w m
    exact List.forall_mem_cons.mpr ⟨⟨hlow, hhigh⟩, ih _⟩

end Digits

/-- Settles O32: nothing is left of a scalar up to 2^128 after the last window. -/
theorem wnafDigitsRecode : Obligations.WnafDigitsRecode := by
  unfold Obligations.WnafDigitsRecode
  intro w m hm
  have hrest := wnafRest_windows w hm
  refine ⟨(digits_rest w _ m).trans hrest, ?_, digits_range w _ m⟩
  rw [digitSum_digits, hrest, Nat.cast_zero, mul_zero, sub_zero]

end Sys2Proof.Machine

/-! SMUL and SMULU (43_scalar_mult.md R175, R176, R180): what they write and install. -/

namespace Sys2Proof.Machine

open Sys2Proof.Statement

/-! ### SMUL and the table it uses (R175, R176) -/

theorem smulTable_eq_ite (s : State) (i : Nat) : s.smulTable i =
    if (s.slot i).win.w ≠ .w1 ∧ (s.slot i).win.tvalid = true then (s.slot i).win.table
    else storedTable (s.slot i).anchor (s.slot i).win.w := by
  simp [State.smulTable, State.tableHit]

/-- A table that is not valid is not looked up. -/
theorem smulTable_of_invalid {s : State} {i : Nat} (h : (s.slot i).win.tvalid = false) :
    s.smulTable i = storedTable (s.slot i).anchor (s.slot i).win.w := by
  rw [smulTable_eq_ite, if_neg (by simp [h])]

theorem otherSlotsSame_smulInstall {s : State} {i : Nat} (hi : i < s.nslot) : OtherSlotsSame s (s.smulInstall i) i := by
  unfold State.smulInstall
  split
  · exact otherSlotsSame_setWindow hi _
  · exact ⟨rfl, fun _ _ => rfl⟩

theorem slot_smulInstall {s : State} {i : Nat} (hi : i < s.nslot) : (s.smulInstall i).slot i =
    if (s.slot i).win.w ≠ .w1 ∧ (s.slot i).win.tvalid = false then
      { s.slot i with win := { w := (s.slot i).win.w, tvalid := true, table := s.smulTable i } }
    else s.slot i := by
  unfold State.smulInstall
  split
  · next hmiss => rw [State.installTable, slot_setWindow s i i _ hi, if_pos rfl, smulTable_of_invalid hmiss.2]
  · rfl

/-- A table installed on the side leaves SMUL's register writes as they are (R175, R176). -/
theorem smul_writesOnly {rd ra : Reg} {slot : SlotIx} (hw : (Instr.smul rd ra slot).wf = true) (s : State) (r : Affine) :
    WritesOnly s ((s.smulInstall slot).putPair rd r).complete rd [r.x, r.y] := by
  obtain ⟨hin, hout⟩ := setSpan_writesOnly (s.smulInstall slot) rd [r.x, r.y] (spans_smul hw)
  exact ⟨hin, fun j hj => (hout j hj).trans (by rw [State.smulInstall_regs])⟩

theorem smul_completed (s : State) (rd : Reg) (slot : SlotIx) (r : Affine) :
    Completed s ((s.smulInstall slot).putPair rd r).complete := by simp [Completed, Untouched]

/-- Settles O33: SMUL completes with `State.smulInstall` and the pair of `State.smulResult`. -/
theorem smulCompletes : Obligations.SmulCompletes := by
  unfold Obligations.SmulCompletes
  intro s rd ra slot hw hslot havalid h0 hN
  have hslots : SlotsSame (s.smulInstall slot) ((s.smulInstall slot).putPair rd (s.smulResult slot (s.xn ra))).complete := by
    simp [SlotsSame]
  refine ⟨_, s.smulTable slot, _, exec_smul_next hw hslot havalid h0 hN, smul_completed s rd slot _, smulTable_eq_ite s slot,
    rfl, smul_writesOnly hw s _, otherSlotsSame_congr hslots (otherSlotsSame_smulInstall hslot), ?_⟩
  rw [slot_congr hslots, slot_smulInstall hslot]

/-! ### A hit and a miss (R176) -/

/-- Two states that agree in the registers, STATUS, CAUSE and FINFO. -/
def SameEnding (t u : State) : Prop := t.regs = u.regs ∧ t.status = u.status ∧ t.cause = u.cause ∧ t.finfo = u.finfo

/-- The same checks end a command alike in states that agree. -/
theorem endCommand_sameEnding {s u t v : State} (hs : SameEnding s u) (ht : SameEnding t v) (checks : List (Option Raise)) :
    ∃ a b, s.endCommand checks t = .next a ∧ u.endCommand checks v = .next b ∧ SameEnding a b := by
  cases hr : firstRaise checks with
  | none =>
    obtain ⟨hregs, hstatus, hcause, hfinfo⟩ := ht
    exact ⟨_, _, endCommand_of_none hr t, endCommand_of_none hr v, by simp [SameEnding, hregs, hstatus, hcause, hfinfo]⟩
  | some r =>
    obtain ⟨hregs, hstatus, -, -⟩ := hs
    exact ⟨_, _, endCommand_of_some hr t, endCommand_of_some hr v, by simp [SameEnding, hregs, hstatus]⟩

theorem setSpan_regs_congr {t u : State} (h : t.regs = u.regs) (i : Nat) (vs : List Word) :
    (t.setSpan i vs).regs = (u.setSpan i vs).regs := by
  induction vs generalizing t u i with
  | nil => exact h
  | cons v vs ih => exact ih (by rw [State.setX_regs, State.setX_regs, h]) _

/-- On slots as the invariant has them, whose anchors and window sizes agree, SMUL gives the same pair. -/
theorem smulResult_congr {s u : State} {i : Nat} (hs : (s.slot i).Ok) (hu : (u.slot i).Ok)
    (ha : (u.slot i).anchor = (s.slot i).anchor) (hw : (u.slot i).win.w = (s.slot i).win.w) (k : Nat) :
    u.smulResult i k = s.smulResult i k := by
  rw [State.smulResult, State.smulResult, smulTable_eq hs, smulTable_eq hu, ha, hw]

/-- SMUL ends alike where the states agree, the slot is there and bound in both or in neither, and the scalar and the
result are the same. -/
theorem exec_smul_sameEnding {s u : State} {rd ra : Reg} {slot : SlotIx} (hs : SameEnding s u) (hn : u.nslot = s.nslot)
    (ha : (u.slot slot).avalid = (s.slot slot).avalid) (hk : u.xn ra = s.xn ra)
    (hr : u.smulResult slot (s.xn ra) = s.smulResult slot (s.xn ra)) :
    ∃ a b, exec (.smul rd ra slot) s = .next a ∧ exec (.smul rd ra slot) u = .next b ∧ SameEnding a b := by
  have hchecks : [chkLegal (.smul rd ra slot), chkAnchored s slot, chkScalar s ra, chkGlv s ra] =
      [chkLegal (.smul rd ra slot), chkAnchored u slot, chkScalar u ra, chkGlv u ra] := by
    rw [chkAnchored, chkAnchored, chkScalar, chkScalar, chkGlv, chkGlv, hn, ha, hk]
  have hwritten : SameEnding ((s.smulInstall slot).putPair rd (s.smulResult slot (s.xn ra)))
      ((u.smulInstall slot).putPair rd (u.smulResult slot (u.xn ra))) := by
    obtain ⟨hregs, hstatus, hcause, hfinfo⟩ := hs
    refine ⟨?_, by simpa using hstatus, by simpa using hcause, by simpa using hfinfo⟩
    rw [hk, hr]
    exact setSpan_regs_congr (by simpa using hregs) _ _
  obtain ⟨a, b, hsNext, huNext, hab⟩ := endCommand_sameEnding hs hwritten
    [chkLegal (.smul rd ra slot), chkAnchored s slot, chkScalar s ra, chkGlv s ra]
  rw [hchecks] at huNext
  exact ⟨a, b, hsNext, huNext, hab⟩

/-- Settles O34: dropping the table leaves anchor, AVALID and window size, so the table used is the stored table of both. -/
theorem cacheHitEqualsMiss : Obligations.CacheHitEqualsMiss := by
  unfold Obligations.CacheHitEqualsMiss
  intro s rd ra slot hslot hok _
  have hdrop : (s.setWindow slot { (s.slot slot).win with tvalid := false }).slot slot =
      { s.slot slot with win := { (s.slot slot).win with tvalid := false } } := by
    rw [slot_setWindow s slot slot _ hslot, if_pos rfl]
  have hresult := smulResult_congr hok (hdrop ▸ hok.resize _) (by rw [hdrop]) (by rw [hdrop]) (s.xn ra)
  exact exec_smul_sameEnding (by simp [SameEnding]) (nslot_setWindow s slot _) (by rw [hdrop]) (by simp [State.xn, State.x])
    hresult

/-! ### SMULU (R180) -/

/-- The double of a triple with X = 0 has X = 0 (42_jacobian_point.md R151). -/
theorem jdbl_X_zero {t : Jac} (h : t.X = 0) : (jdbl t).X = 0 := by
  refine eq_zero_of ?_ (fsub_lt _ _)
  rw [← cast_eq_zero_iff]
  simp [jdbl, h]

/-- Until the first bit that is 1 the accumulator stays one that the addition takes for the identity, and that bit replaces it
by the point. -/
theorem doubleAndAdd_of_topBit {k m : Nat} (hlow : 2 ^ m ≤ k) (hhigh : k < 2 ^ (m + 1)) {q : Jac} (hq : ¬(q.X = 0 ∨ q.Y = 0))
    (n : Nat) : ∀ acc : Jac, acc.X = 0 → doubleAndAdd k q (m + 1 + n) acc = doubleAndAdd k q m q := by
  induction n with
  | zero =>
    intro acc hX
    have htop : k.testBit m = true := by
      rw [Nat.testBit_eq_decide_div_mod_eq, Nat.div_eq_of_lt_le (k := 1) (by omega) (by omega)]
      rfl
    rw [Nat.add_zero, doubleAndAdd, htop, if_pos rfl, jadd_of_fst_zero hq (.inl (jdbl_X_zero hX))]
  | succ n ih =>
    intro acc hX
    have hbit : k.testBit (m + 1 + n) = false :=
      Nat.testBit_lt_two_pow (hhigh.trans_le (Nat.pow_le_pow_right (by decide) (Nat.le_add_right _ _)))
    rw [← Nat.add_assoc, doubleAndAdd, hbit, if_neg Bool.false_ne_true]
    exact ih _ (jdbl_X_zero hX)

theorem multiplyUnsafe_of_topBit {k m : Nat} (hm : m < 256) (hlow : 2 ^ m ≤ k) (hhigh : k < 2 ^ (m + 1)) {q : Jac}
    (hq : ¬(q.X = 0 ∨ q.Y = 0)) : multiplyUnsafe k q = doubleAndAdd k q m q := by
  have hloop := doubleAndAdd_of_topBit hlow hhigh hq (255 - m) jzero rfl
  rwa [show m + 1 + (255 - m) = 256 by omega] at hloop

theorem multiplyUnsafe_small {q : Jac} (hq : ¬(q.X = 0 ∨ q.Y = 0)) :
    multiplyUnsafe 1 q = q ∧ multiplyUnsafe 2 q = jdbl q ∧ multiplyUnsafe 3 q = jadd (jdbl q) q :=
  ⟨multiplyUnsafe_of_topBit (m := 0) (by decide) (by decide) (by decide) hq,
    multiplyUnsafe_of_topBit (m := 1) (by decide) (by decide) (by decide) hq,
    multiplyUnsafe_of_topBit (m := 1) (by decide) (by decide) (by decide) hq⟩

theorem writes_smulu {s : State} {rd ra rb : Reg} (hw : (Instr.smulu rd ra rb).wf = true) (hb : FieldSpan s rb 3)
    (h0 : s.xn ra ≠ 0) (hN : s.xn ra < N) :
    Writes (.smulu rd ra rb) s rd (multiplyUnsafe (s.xn ra) (s.triple rb)).words := by
  have pass : ∀ c ∈ chkSpanP s rb 3 ++ [chkScalar s ra], c = none :=
    List.forall_mem_append.mpr ⟨chkSpanP_pass hb, by simp [h0, hN]⟩
  exact exec_writes rfl (firstRaise_legal hw pass) (spans_smulu hw).1

/-- Settles O36: the loop of `multiplyUnsafe` meets the scalar's top bit with an accumulator that counts as the identity. -/
theorem smuluCompletes : Obligations.SmuluCompletes := by
  unfold Obligations.SmuluCompletes
  intro s rd ra rb hw hb h0 hN
  refine ⟨_, rfl, writes_smulu hw hb h0 hN, fun hX hY => ?_⟩
  obtain ⟨one, two, three⟩ := multiplyUnsafe_small (not_or.mpr ⟨hX, hY⟩)
  exact ⟨fun hk => by rw [hk, one], fun hk => by rw [hk, two], fun hk => by rw [hk, three]⟩

/-- Settles O37: the triple written is `multiplyUnsafe`, which multiplies whatever triple stands for the identity. -/
theorem smuluIsScalarMultiple : Obligations.SmuluIsScalarMultiple := by
  unfold Obligations.SmuluIsScalarMultiple
  intro _ s rd ra rb hw hb h0 hN Q hQ
  obtain ⟨hx, hy, hz⟩ := fieldSpan_triple hb
  obtain ⟨t, ht, hcompleted, htriple⟩ := exec_smulu_next hw hb h0 hN
  refine ⟨t, ht, hcompleted, ?_⟩
  rw [htriple]
  exact multiplyUnsafe_stands hx hy hz hQ (xn_lt s ra)

end Sys2Proof.Machine

/-! SMUL in the group of the curve (43_scalar_mult.md R175, R182). On a slot as the invariant says, the
pair SMUL writes for k is the one of field elements that stands for k·A; each of R182's equalities is then one of the group. -/

namespace Sys2Proof.Machine

open Sys2Proof.Statement

/-! ### Scalars and triples in range (R175, R180) -/

theorem scalarInRange_mod {k : Nat} (h : k % N ≠ 0) : ScalarInRange (k % N) := ⟨Nat.pos_of_ne_zero h, Nat.mod_lt _ N_pos⟩

/-- n is prime, so it divides no product of scalars in range. -/
theorem scalarInRange_mul {a b : Nat} (ha : ScalarInRange a) (hb : ScalarInRange b) : ScalarInRange (a * b % N) := by
  refine scalarInRange_mod fun hzero => ?_
  rcases (Nat.Prime.dvd_mul Laws.Prime.N_prime).mp (Nat.dvd_of_mod_eq_zero hzero) with hd | hd
  · exact Nat.not_dvd_of_pos_of_lt ha.1 ha.2 hd
  · exact Nat.not_dvd_of_pos_of_lt hb.1 hb.2 hd

/-- The registers of a triple that stands for a point hold field elements. -/
theorem fieldSpan_of_rep {p : State} {i : Nat} {T : Jac} {A : curve.Point} (hT : p.triple i = T) (h : Rep T A) :
    FieldSpan p i 3 :=
  triple_lt hT h.x h.y h.z

section Group

variable [Fact (Nat.Prime P)] {s : State} {slot : Nat} {A : curve.Point}

/-! ### The scalars 1 and n − 1 (R182) -/

theorem pred_order_nsmul (A : curve.Point) : (N - 1) • A = -A := by
  have hsum : (N - 1) • A + A = N • A := by rw [← succ_nsmul, Nat.sub_add_cancel N_pos]
  exact eq_neg_of_add_eq_zero_left (hsum.trans (order_dvd A))

/-- The negative of an affine point of the curve is (x, P − y): its y is not 0 (42_jacobian_point.md R153). -/
theorem rep_neg_pair {a : Affine} (h : Rep (lift a) A) (h0 : A ≠ 0) : Rep (lift ⟨a.x, word (P - a.y.toNat)⟩) (-A) := by
  obtain ⟨x, y, hn, rfl⟩ := (point_cases A).resolve_left h0
  have hy0 : a.y.toNat ≠ 0 := h.y_ne_zero
  have hy : fneg a.y.toNat = P - a.y.toNat := (fneg_eq h.y).trans (if_neg hy0)
  have hword : (word (P - a.y.toNat)).toNat = P - a.y.toNat := by
    rw [word, BitVec.toNat_ofNat, Nat.mod_eq_of_lt ((Nat.sub_le P _).trans_lt P_lt)]
  have hneg : lift ⟨a.x, word (P - a.y.toNat)⟩ = jneg (lift a) := by
    rw [lift, hword, ← hy]
    rfl
  exact hneg ▸ jneg_rep h

/-- A multiple by a scalar in range is not the identity. -/
theorem nsmul_ne_zero (h0 : A ≠ 0) {k : Nat} (hk : ScalarInRange k) : k • A ≠ 0 :=
  smul_ne h0 (Nat.not_dvd_of_pos_of_lt hk.1 hk.2)

/-! ### What SMUL writes -/

section Slot

variable (hs : PSlot s slot) (hA : Rep (lift (s.slot slot).anchor) A) (h0 : A ≠ 0)

include hs hA h0

/-- A pair of field elements that stands for k·A is the one SMUL writes. -/
theorem smulResult_eq {k : Nat} (hk : ScalarInRange k) {r : Affine} (hr : Rep (lift r) (k • A)) :
    s.smulResult slot k = r := by
  have hrep := smulResult_rep hs hA h0 hk
  exact stands_lift_inj ⟨hrep.x, hrep.y⟩ ⟨hr.x, hr.y⟩ hrep.stands hr.stands

/-- PNORM of a triple that stands for k·A writes what SMUL writes for k. -/
theorem pnorm_writes_smulResult {q : State} {rd : Reg} (hrd : rd.val + 3 ≤ 32) {k : Nat} (hk : ScalarInRange k)
    (hq : Rep (q.triple rd) (k • A)) :
    ∃ t, exec (.pnorm rd rd 1) q = .next t ∧ RegEffect q t rd [(s.smulResult slot k).x, (s.smulResult slot k).y] :=
  exec_pnorm_one hrd hq (nsmul_ne_zero h0 hk) (smulResult_rep hs hA h0 hk)

end Slot

/-! ### The laws of R182 -/

theorem multiplicationLaws (hs : PSlot s slot) : MultiplicationLaws s slot := by
  obtain ⟨A, hA, h0⟩ := hs.anchor_rep
  have rep : ∀ {k}, ScalarInRange k → Rep (lift (s.smulResult slot k)) (k • A) := smulResult_rep hs hA h0
  refine ⟨fun k hk => ?onCurve, fun a b ha hb hab p rd ra rb hw hpa hpb => ?sum, fun a b ha hb u other hu hanchor => ?product,
    fun k hk p rd ra rb hw hpk hpb => ?smulu, fun p rd ra rb hw hpa hpb => ?order⟩
  case onCurve => exact onCurve_of_rep (rep hk) (nsmul_ne_zero h0 hk)
  case sum =>
    obtain ⟨hrd, -⟩ := spans_padd hw
    obtain ⟨q, hq, -, htriple⟩ := exec_padd_next hw (fieldSpan_of_rep hpa (rep ha)) (fieldSpan_of_rep hpb (rep hb))
    have hsum : Rep (q.triple rd) (((a + b) % N) • A) := by
      rw [htriple, hpa, hpb, mod_nsmul, add_nsmul]
      exact jadd_rep (rep ha) (rep hb)
    obtain ⟨t, ht, heffect⟩ := pnorm_writes_smulResult hs hA h0 hrd (scalarInRange_mod hab) hsum
    exact ⟨q, t, hq, ht, heffect⟩
  case product =>
    have hprod : Rep (lift (s.smulResult slot (a * b % N))) (a • b • A) := by
      have hrep := rep (scalarInRange_mul ha hb)
      rwa [mod_nsmul, mul_nsmul'] at hrep
    exact smulResult_eq hu (hanchor ▸ rep hb) (nsmul_ne_zero h0 hb) ha hprod
  case smulu =>
    obtain ⟨hrd, -⟩ := spans_smulu hw
    obtain ⟨q, hq, -, htriple⟩ := exec_smulu_next hw (fieldSpan_of_rep hpb hA) (hpk ▸ Nat.ne_of_gt hk.1) (hpk ▸ hk.2)
    have hmul : Rep (q.triple rd) (k • A) := by
      rw [htriple, hpk, hpb]
      exact multiplyUnsafe_rep hA (hpk ▸ xn_lt p ra)
    obtain ⟨t, ht, heffect⟩ := pnorm_writes_smulResult hs hA h0 hrd hk hmul
    exact ⟨q, t, hq, ht, heffect⟩
  case order =>
    have hlast : Rep (lift (s.smulResult slot (N - 1))) (-A) := pred_order_nsmul A ▸ rep ⟨by decide, by decide⟩
    obtain ⟨q, hq, hcompleted, htriple⟩ := exec_padd_next hw (fieldSpan_of_rep hpa hlast) (fieldSpan_of_rep hpb hA)
    exact ⟨q, hq, hcompleted, by rw [htriple, hpa, hpb, jadd_opposite hlast hA h0]⟩

end Group

/-- Settles O35: the pair written is the one that stands for k·A, which for k = 1 is A's and for k = n − 1 that of −A. -/
theorem smulIsScalarMultiple : Obligations.SmulIsScalarMultiple := by
  unfold Obligations.SmulIsScalarMultiple
  refine ⟨?multiple, fun s slot hs => ?laws⟩
  case multiple =>
    intro _ s rd ra slot hw hs hk0 hkN A hA
    have ⟨hslot, havalid, hok⟩ := hs
    obtain ⟨hx, hy, -⟩ := hok.1 havalid
    obtain ⟨hrep, h0⟩ := rep_lift_of_stands hx hy hA
    have hk : ScalarInRange (s.xn ra) := ⟨Nat.pos_of_ne_zero hk0, hkN⟩
    have hr := smulResult_rep hs hrep h0 hk
    refine ⟨_, _, exec_smul_next hw hslot havalid hk0 hkN, smul_completed s rd slot _, rfl, smul_writesOnly hw s _,
      hr.x, hr.y, hr.stands, fun hone => ?one, fun hlast => ?last⟩
    case one => exact smulResult_eq hs hrep h0 hk (by rwa [hone, one_nsmul])
    case last => exact smulResult_eq hs hrep h0 hk (by rw [hlast, pred_order_nsmul]; exact rep_neg_pair hrep h0)
  case laws =>
    have _h := P_fact
    exact multiplicationLaws hs

end Sys2Proof.Machine

/-! The move and system commands (44_move_system.md R210 to R213). The legality check is the only check of NOP, MOV and LDC, and
every form of theirs is legal: each of them completes in every state. -/

namespace Sys2Proof.Machine

open Sys2Proof.Statement

/-- A legal command that checks nothing else writes its span of registers and nothing else. -/
theorem writes_of_legal_only {i : Instr} {s : State} {rd : Nat} {vs : List Word} (hw : i.wf = true)
    (he : exec i s = s.endCommand [chkLegal i] (s.setSpan rd vs)) (hl : rd + vs.length ≤ 32) : Writes i s rd vs := by
  have pass : firstRaise [chkLegal i] = none := by rw [(chkLegal_eq_none i).mpr hw, firstRaise_cons_none, firstRaise_nil]
  exact exec_writes he pass hl

/-- The constants LDC loads are those of R213's table. -/
theorem constValue_eq_constTable (c : Const) : constValue c = constTable c := by
  cases c <;> rfl

/-- Settles O14: NOP writes the empty span, and MOV the one register `rd`, with the value `ra` held before. -/
theorem nopAndMovComplete : Obligations.NopAndMovComplete := by
  unfold Obligations.NopAndMovComplete
  intro s rd ra
  refine ⟨?nop, ?mov⟩
  case nop => exact writes_of_legal_only rfl rfl (Nat.zero_le 32)
  case mov =>
    have hw : (Instr.mov rd ra).wf = true := wf_of_single_registers (by simp [Instr.spans]) rfl rfl
    exact writes_of_legal_only hw rfl (Nat.succ_le_of_lt rd.isLt)

/-- Settles O15: LDC's only check is its legality, and the value it writes is the table's entry. -/
theorem ldcLoadsConstant : Obligations.LdcLoadsConstant := by
  unfold Obligations.LdcLoadsConstant
  intro s rd c
  rw [← constValue_eq_constTable]
  exact writes_putNat (wf_of_single_registers (by simp [Instr.spans]) rfl rfl) rfl firstRaise_nil

end Sys2Proof.Machine

/-! Spans of operands and the interrupt output (60_exceptions.md R222, R225). A span's checks are one `chkSpanP` each, in
the order of the command's pseudocode, and `irq` is a function of STATUS, CTRL and the `rst` level. -/

namespace Sys2Proof.Machine

open Sys2Proof.Statement

/-! ### The span checks of a command (R222) -/

section Spans

variable {s t : State} {i : Instr} {a j : Nat} (hP : P ≤ s.xn (a + j)) (low : FieldSpan s a j)

include hP low

/-- A legal command whose first checks are those of a span reports the lowest register that holds no field element, whatever
it checks after the span. -/
theorem faults_of_span_append {len : Nat} {cs : List (Option Raise)} (hj : j < len) (hw : i.wf = true)
    (he : exec i s = s.endCommand (chkLegal i :: (chkSpanP s a len ++ cs)) t) : Faults i s 2 (a + j) :=
  faults_of_firstRaise hw he (firstRaise_chkSpanP hj low hP cs)

/-- The same where the span is all the command checks. -/
theorem faults_of_span {len : Nat} (hj : j < len) (hw : i.wf = true)
    (he : exec i s = s.endCommand (chkLegal i :: chkSpanP s a len) t) : Faults i s 2 (a + j) :=
  faults_of_span_append (cs := []) hP low hj hw (by rw [he, List.append_nil])

end Spans

/-- Settles O43: each command's first span raises at its lowest offending register; PADD's second span is reached once the
first has passed. -/
theorem spanOperandRange : Obligations.SpanOperandRange := by
  unfold Obligations.SpanOperandRange
  intro s rd ra rb n j
  refine ⟨fun hP low => ⟨fun hj i hi hw => ?triple, fun hj hw => ?binvp, fun hj hw => ?pnorm⟩,
    fun hP low hj => ⟨fun hw ha => ?second, fun hw => ?smulu⟩⟩
  case triple =>
    simp only [List.mem_cons, List.not_mem_nil, or_false] at hi
    obtain rfl | rfl | rfl := hi
    · exact faults_of_span hP low hj hw rfl
    · exact faults_of_span hP low hj hw rfl
    · exact faults_of_span_append hP low hj hw rfl
  case binvp => exact faults_of_span hP low hj hw rfl
  case pnorm => exact faults_of_span hP low hj hw rfl
  case second =>
    have raised := firstRaise_chkSpanP hj low hP []
    rw [List.append_nil] at raised
    have afterFirst := (firstRaise_append_of_none (chkSpanP_pass ha) _).trans raised
    exact faults_of_firstRaise hw rfl afterFirst
  case smulu => exact faults_of_span_append hP low hj hw rfl

/-! ### The interrupt output (R225) -/

/-- Outside reset `irq` is the level R225 gives; while `rst` is asserted it is 0 (70_reset_and_hazards.md R250). -/
theorem irq_eq_true_iff {s : State} (hrst : s.rst = false) : s.irq = true ↔
    (s.status.done = true ∧ s.ctrl.ieDone = true) ∨ (s.status.fault = true ∧ s.ctrl.ieFault = true) := by
  simp [State.irq, hrst]

/-- Settles O57: a sample answers with `State.irq` and changes the reply alone. -/
theorem interruptLevel : Obligations.InterruptLevel := by
  unfold Obligations.InterruptLevel
  refine ⟨by decide, fun s hrst => ?_⟩
  have sampled : hostDoes s .sampleIrq = .next { s with reply := .level s.irq } := hostDoes_eq s .sampleIrq
  exact ⟨_, s.irq, sampled, rfl, irq_eq_true_iff hrst, by simp [SameButStatus, SlotsSame], rfl⟩

end Sys2Proof.Machine

/-! Reset (70_reset_and_hazards.md R250, R251). An assertion and a release are each a `State.resetCore`, and the second
finds as many free slots as the first: NSLOT is the hardware's. -/

namespace Sys2Proof.Machine

open Sys2Proof.Statement

/-! ### The state that reset leaves (R251) -/

/-- No register of the reset state has a byte marked as written (10_state.md R21). -/
theorem not_written_resetWith (k i : Nat) : ¬Written (State.resetWith k) i := by
  rintro ⟨r, hr, hknown⟩
  obtain ⟨-, rfl⟩ : i < 32 ∧ GReg.unwritten = r := by simpa [State.resetWith, Vector.getElem?_replicate] using hr
  exact absurd hknown (by decide)

/-- Settles O59: the words, the level and the fields of the two slots are evaluated; the registers are R21's. -/
theorem resetValues : Obligations.ResetValues := by
  unfold Obligations.ResetValues
  refine ⟨?status, ?ctrl, ?cause, ?fcmd, ?finfo, ?id, ?cfg, ?slot0, ?slot1, ?irq, rfl, rfl, rfl, rfl, rfl,
    not_written_resetWith _⟩
  all_goals decide

/-! ### Assertion and release (R250) -/

theorem length_free_resetCore (s : State) (level : Bool) : (s.resetCore level).free.length = s.free.length :=
  List.length_replicate

theorem nslot_resetCore (s : State) (level : Bool) : (s.resetCore level).nslot = s.nslot :=
  congrArg (· + 1) (length_free_resetCore s level)

/-- While `rst` is asserted `irq` is 0. -/
theorem irq_eq_false_of_rst {s : State} (hrst : s.rst = true) : s.irq = false := by
  simp [State.irq, hrst]

theorem hostDoes_assertRst (s : State) : hostDoes s .assertRst = .next (s.resetCore true) :=
  hostDoes_eq s .assertRst

/-- A release after an assertion is a reset; reset leaves no reply of its own. -/
theorem hostDoes_releaseRst {s : State} (hrst : s.rst = true) : hostDoes s .releaseRst = .next (s.resetCore false) := by
  rw [hostDoes_eq, State.hostMove, if_pos hrst]
  rfl

/-- Of two resets the second stands, but for the model's own count of draws. -/
theorem resetCore_resetCore (s : State) (first second : Bool) :
    (s.resetCore first).resetCore second = { s.resetCore second with draw := s.draw + 2 } := by
  rw [State.resetCore, length_free_resetCore]
  rfl

/-- Settles O60: the assertion and the release are two resets, of which the second stands. -/
theorem rstRestoresReset : Obligations.RstRestoresReset := by
  unfold Obligations.RstRestoresReset
  intro s
  refine ⟨s.resetCore true, (s.resetCore true).resetCore false, hostDoes_assertRst s, rfl, irq_eq_false_of_rst rfl, rfl,
    hostDoes_releaseRst rfl, rfl, ?nslot, ?state⟩
  case nslot => rw [nslot_resetCore, nslot_resetCore]
  case state =>
    rw [resetCore_resetCore]
    rfl

end Sys2Proof.Machine
